-- ==== Sys2Proof/Word.lean ====
section
/-! DEFINITION. The word and byte types of the bit-extraction unit (R6, R8, R11). -/

namespace Sys2Proof

/-- One 64-bit word: the unit of storage, of every memory access and of every descriptor field (R6, R65, R100).
Bit 0 is the least-significant bit (R8), which is `BitVec`'s own numbering. -/
abbrev Word := BitVec 64

/-- One byte of the byte view of memory (R64). The unit itself never sees a byte. -/
abbrev Byte := BitVec 8

end Sys2Proof
end

