-- ==== Sys2Proof/Machine/Bits.lean ====
section
/-! DEFINITION. The word primitives of R13, each on 64-bit words and total (R152). -/

namespace Sys2Proof.Machine

/-- Bit 63 of a descriptor word read as two's complement: the word is negative (R6, R9, R102). -/
def isNeg (w : Word) : Bool := w.msb

/-- `0xFFFF_FFFF_FFFF_FFFF`: the word with all bits set; also the result −1 (R9). -/
def allOnes : Word := BitVec.allOnes 64

/-- `ones(lo, hi)` (R13): bits `lo` to `hi − 1` set and all others clear. Nothing is shifted by more than 64. -/
def ones (lo hi : Nat) : Word := (allOnes <<< min lo 64) &&& ~~~(allOnes <<< min hi 64)

/-- `popcount64` (R13): the number of 1 bits, 0 to 64. -/
def popcount64 (w : Word) : Nat := (List.range 64).countP (fun i => w.getLsbD i)

/-- `ctz64` (R13): the number of 0 bits below the lowest 1 bit, and 64 for 0. -/
def ctz64 (w : Word) : Nat := ((List.range 64).find? (fun i => w.getLsbD i)).getD 64

/-- `clz64` (R13): the number of 0 bits above the highest 1 bit, and 64 for 0. -/
def clz64 (w : Word) : Nat := ((List.range 64).find? (fun i => w.getLsbD (63 - i))).getD 64

/-- `rev64` (R13): bit `j` of the result is bit `63 − j` of `w`. -/
def rev64 (w : Word) : Word := w.reverse

/-- A Boolean result in `RES`: 0 or 1 (R35). -/
def boolWord (b : Bool) : Word := if b then 1 else 0

/-- A count or an index in `RES`, as a 64-bit integer (R35). -/
def natWord (n : Nat) : Word := BitVec.ofNat 64 n

/-- An index, or −1 (`0xFFFF_FFFF_FFFF_FFFF`) when there is none (R35). -/
def indexWord : Option Nat → Word
  | none => allOnes
  | some p => natWord p

end Sys2Proof.Machine
end

