-- ==== Sys2Proof/Config.lean ====
section
/-! DEFINITION. What the spec leaves to a configuration (R6: `MEMWORDS`, `NUNITS`) and the free values
(`93_implementation_defined.md`, treatment "any value"). -/

namespace Sys2Proof.Config

/-- The free value drawn where the spec says "any value" (R79, U6, U7): the `RES` of a raced command and the
destination-range bits it writes. It has no body, so nothing can be proved of it; the machine applies it to a
counter in `State`, so that every draw is its own. Log entry 3. -/
opaque freeWord : Nat → Word

/-- `MEMWORDS` of the machine that `State.reset` describes (R6: an open parameter, 1 to 2^64). The parameter itself is
the field `State.memWords`, so that every statement about all states is about all memory sizes.
DESIGN CHOICE, unsafe: log entry 1. -/
def resetMemWords : Nat := 2 ^ 64

/-- `NUNITS` of the machine that `State.reset` describes (R6: an open parameter, at least 1). The parameter itself is the
length of `State.units`. DESIGN CHOICE, unsafe: log entry 1. -/
def resetUnits : Nat := 2

end Sys2Proof.Config
end

