-- ==== Sys2Proof/Syntax.lean ====
section
/-! DEFINITION. The 9-word descriptor (R100) and the 20 commands (R103, R104) as an abstract syntax. -/

namespace Sys2Proof

/-- A descriptor: the nine 64-bit words `W0` to `W8` a host hands to a unit in one submission (R100). -/
structure Desc where
  /-- `W0`: opcode and flags (R101). -/
  hdr : Word
  /-- `W1`: word address of word 0 of buffer `A`. -/
  abase : Word
  /-- `W2`: length of buffer `A` in words, signed. -/
  alen : Word
  /-- `W3`: a bit position in `A`, signed. -/
  apos : Word
  /-- `W4`: word address of word 0 of buffer `B`. -/
  bbase : Word
  /-- `W5`: length of buffer `B` in words, signed. -/
  blen : Word
  /-- `W6`: a bit position in `B`, signed. -/
  bpos : Word
  /-- `W7`: a count, an exclusive end position, or the argument of `PLEN` and `ULEN`, signed. -/
  cnt : Word
  /-- `W8`: the `value` of `SETBITS`. -/
  val : Word
  deriving DecidableEq, Repr

/-- The all-zero descriptor; it is illegal (R106). -/
def Desc.zero : Desc := ⟨0, 0, 0, 0, 0, 0, 0, 0, 0⟩

/-- A buffer as a descriptor names it: base word address (unsigned) and length in words (two's complement)
(R62, R102). -/
structure Buf where
  base : Word
  len : Word
  deriving DecidableEq, Repr

/-- The 20 commands, one constructor per row of the opcode table, each with exactly the operands and flags R104
marks for it. `ns` is header flag `NS`, `v` is `V`; a buffer that header flag `AN` or `BN` makes absent is `none`
(R101). Words a command ignores (R105) are not part of its syntax. -/
inductive Instr where
  /-- `PLEN` (R180): words needed for a bit length. -/
  | plen (cnt : Word)
  /-- `ULEN` (R181): bit length of a word count. -/
  | ulen (cnt : Word)
  /-- `GETBIT` (R182): read one bit. -/
  | getbit (a : Buf) (apos : Word)
  /-- `SETBIT` (R183): write one bit. -/
  | setbit (ns v : Bool) (a : Buf) (apos : Word)
  /-- `GETBITS` (R200): extract up to 64 bits. -/
  | getbits (a : Buf) (apos cnt : Word)
  /-- `SETBITS` (R201): insert up to 64 bits. -/
  | setbits (ns : Bool) (a : Buf) (apos cnt val : Word)
  /-- `COPY` (R220): copy a bit range. -/
  | copy (ns : Bool) (a : Buf) (apos : Word) (b : Buf) (bpos cnt : Word)
  /-- `NOT` (R241): invert a range in place. -/
  | notb (ns : Bool) (a : Buf) (apos cnt : Word)
  /-- `AND` (R242). -/
  | andb (ns : Bool) (a : Buf) (apos : Word) (b : Buf) (bpos cnt : Word)
  /-- `OR` (R243). -/
  | orb (ns : Bool) (a : Buf) (apos : Word) (b : Buf) (bpos cnt : Word)
  /-- `XOR` (R244). -/
  | xorb (ns : Bool) (a : Buf) (apos : Word) (b : Buf) (bpos cnt : Word)
  /-- `ANDNOT` (R245). -/
  | andnot (ns : Bool) (a : Buf) (apos : Word) (b : Buf) (bpos cnt : Word)
  /-- `ORNOT` (R246). -/
  | ornot (ns : Bool) (a : Buf) (apos : Word) (b : Buf) (bpos cnt : Word)
  /-- `FILL` (R247): set a range to all 0 or all 1. -/
  | fill (ns v : Bool) (a : Buf) (apos cnt : Word)
  /-- `ISZERO` (R248): is every bit of a range 0. -/
  | iszero (a : Buf) (apos cnt : Word)
  /-- `REV` (R270): copy a range in reversed bit order. -/
  | rev (ns : Bool) (a : Buf) (apos : Word) (b : Buf) (bpos cnt : Word)
  /-- `INDEXOF` (R280): lowest matching position; `cnt` is the exclusive end. -/
  | indexof (v : Bool) (a : Buf) (apos cnt : Word)
  /-- `LASTINDEXOF` (R281): highest matching position; `cnt` is the exclusive end. -/
  | lastindexof (v : Bool) (a : Buf) (apos cnt : Word)
  /-- `CARD` (R282): population count; `cnt` is the exclusive end. -/
  | card (a : Buf) (apos cnt : Word)
  /-- `EQ` (R300): are two bit ranges equal; a buffer may be absent. -/
  | eqb (a : Option Buf) (apos : Word) (b : Option Buf) (bpos cnt : Word)
  deriving DecidableEq, Repr

end Sys2Proof
end

