-- ==== Sys2Proof/Machine/State.lean ====
section
/-! DEFINITION. The state of a system of `NUNITS` units (R30), plain data, and its value after reset (R42, R350). -/

namespace Sys2Proof.Machine

/-- The seven errors a command can end with (R14, R310). An error is a completion of the command, not a stop of the
machine. -/
inductive Err where
  | illegal | invalidArg | range | aliasing | overflow | nullBuf | bus
  deriving DecidableEq, Repr

/-- The word memory `MEM` (R31) in its byte view (R64): cells (byte address, byte), the byte address of byte `j` of word
`a` being `8 * a + j`. Its one canonical form is `Memory.wf`. DESIGN CHOICE, safe: log entry 5. -/
abbrev Memory := List Host.Cell

/-- The buffer-lock table `LOCK` (R32): the held entries, as pairs (base word address, unit). An entry that is not
listed is `free`. -/
abbrev LockTable := List (Nat × Nat)

/-- One update of a destination word (R151): the word at address `addr` gets the bits `val` under `mask` and keeps its
other bits. The word is full when `mask` is all ones (R150). -/
structure Upd where
  addr : Nat
  mask : Word
  val : Word
  deriving DecidableEq, Repr

/-- What a command that passed its checks does (R141 step 10): its result, the overlap detector's output, the lock
discipline and lock key of its partial-word updates, and its destination-word updates, each word once (R76). -/
structure Work where
  res : Word
  ovl : Bool
  ns : Bool
  base : Nat
  todo : List Upd
  deriving DecidableEq, Repr

/-- The outcome of a command's checks (R141): an error; an early success, which makes no memory access (steps 3 to 6);
or work. -/
inductive Plan where
  | fail (e : Err)
  | early (res : Word)
  | work (w : Work)
  deriving DecidableEq, Repr

/-- An update a running command has not written yet (R70): nothing of it done, or, for a lock-free partial-word update
(R74), its `R` done, which returned `old`, and its `W` still to come. -/
inductive Pending where
  | waiting (d : Upd)
  | fetched (d : Upd) (old : Word)
  deriving DecidableEq, Repr

/-- Where a unit stands inside a locked partial-word update, whose four events follow each other with no other event of
the unit between them (R73). -/
inductive Flight where
  /-- In none; no lock held. -/
  | between
  /-- After `ACQ`, before `R`. -/
  | acquired (d : Upd)
  /-- After `R`, which returned `old`, before `W`. -/
  | fetched (d : Upd) (old : Word)
  /-- After `W`, before `REL`. -/
  | written
  deriving DecidableEq, Repr

/-- The progress of a running command (R40, hidden state): its plan, the updates not written yet, in whatever order their
events will come (R70), and the locked one in flight. `foretold` is the model's own: another agent is going to interfere
with the command before it completes, so that every value it writes is any value, those before the interference too (R79;
log entry 18). -/
structure Job where
  plan : Plan
  todo : List Pending
  flight : Flight
  foretold : Bool
  deriving DecidableEq, Repr

/-- One unit (R30, R329). `stat`, `res` and `cur` are the spec's registers, `job` its hidden progress. `raced` and
`offered` are the model's own: whether another agent has changed a bit the running command depends on (R78, R79), and
the descriptors the host is waiting to submit to this unit, which are the host's data (R41, R140; log entries 10 and
14). -/
structure UnitState where
  stat : Word
  res : Word
  cur : Desc
  job : Option Job
  raced : Bool
  offered : List Desc
  deriving DecidableEq, Repr

/-- One entry of the schedule: which agent moves next (R71, left open by the spec) and, where the spec leaves it open,
with which of its steps (R70). A turn whose step is not enabled passes without effect: the agent waits. DESIGN CHOICE,
safe: log entry 6. -/
inductive Turn where
  /-- The host submits the first waiting descriptor to unit `u` (R140). -/
  | submit (u : Nat)
  /-- Unit `u` carries out the whole of its submitted command with no other agent's event in between (R78). -/
  | exec (u : Nat)
  /-- Unit `u` decodes its descriptor and runs the checks (R140, R141). `foretold` says that this schedule lets another
  agent interfere with the command before it completes (R79; log entry 18). -/
  | start (u : Nat) (foretold : Bool)
  /-- Unit `u` performs a memory event (R69): the next one of a locked update in flight, else the next one of the `k`-th
  update it has not written yet (R70). -/
  | event (u k : Nat)
  /-- Unit `u` completes its command (R148, R149). -/
  | finish (u : Nat)
  /-- The host or another bus master writes a word of memory (R84). -/
  | hostWrite (addr : Nat) (val : Word)
  /-- The host writes `STAT` of unit `u`, which has no effect (R34). -/
  | hostWriteStat (u : Nat) (val : Word)
  /-- The host writes `RES` of unit `u`, which has no effect (R35). -/
  | hostWriteRes (u : Nat) (val : Word)
  /-- The reset input is applied (R350, R351). -/
  | reset
  deriving DecidableEq, Repr

/-- The whole system. `mem`, `lock` and the registers inside `units` are the spec's state (R30); `memWords` is the open
parameter `MEMWORDS` and the length of `units` is `NUNITS` (R6). The model's own fields: `active`, the unit whose command
`exec` carries out (log entry 7); `turns`, the schedule (R71, U19; log entry 6); `freeCtr`, how many free values have
been drawn (R79; log entry 3). -/
structure State where
  memWords : Nat
  mem : Memory
  lock : LockTable
  units : List UnitState
  active : Nat
  turns : List Turn
  freeCtr : Nat
  deriving DecidableEq, Repr

/-- What stops the machine. The spec gives a unit no fault of its own: every error of a command is a completion
(R321, R322). All three faults are raised by the schedule alone, never by a command of an existing unit. DESIGN CHOICE,
safe: log entry 13. -/
inductive Fault where
  /-- The host writes a word address at or above `MEMWORDS`, which does not exist (R31). Raised by the turn
  `hostWrite`. Safe: the model stops where the spec gives nothing. -/
  | outsideMemory (addr : Nat)
  /-- A turn names a unit at or above `NUNITS`, which does not exist (R329). Raised by every turn that names a unit, and
  by a meaning when `active` names none. Safe: the model stops where the spec gives nothing. -/
  | noSuchUnit (u : Nat)
  /-- The schedule foretold an interference with the running command of unit `u` and resets the unit before any has come, so
  that it contradicts itself: no machine has such a run (R79, R351). Raised by the turn `reset`; the same run with the
  command started without the foretelling is reset like any other. Safe: the model stops where there is no run. -/
  | foretoldNotCome (u : Nat)
  deriving DecidableEq, Repr

/-- What the model refuses to give a meaning to. -/
inductive Refusal where
  /-- An instruction of the opcode table that has no meaning yet. Raised by no arm of `exec`: all 20 commands have their
  meaning. Safe: the model stops. -/
  | notModelled (mnemonic : String)
  deriving DecidableEq, Repr

/-- A unit after reset (R42): `STAT = 0`, `RES = 0`, no progress. `CUR` is unspecified and not observable; the model
names the all-zero descriptor (DESIGN CHOICE, log entry 2). -/
def UnitState.reset : UnitState :=
  { stat := 0, res := 0, cur := Desc.zero, job := none, raced := false, offered := [] }

/-- The machine right after power-on and reset (R42, R350): every unit idle, every lock free, memory with nothing
listed, nothing submitted and nothing scheduled. -/
def State.reset : State :=
  { memWords := Config.resetMemWords
    mem := []
    lock := []
    units := List.replicate Config.resetUnits UnitState.reset
    active := 0
    turns := []
    freeCtr := 0 }

end Sys2Proof.Machine
end

