-- ==== Sys2Proof/Machine/Flags.lean ====
section
/-! DEFINITION. The status register `STAT`: its fields (R34), its error codes (R310), and the overlap detector, the one
flag of the unit (R38, R221). -/

namespace Sys2Proof.Machine

/-- The code of an error in `STAT.ERR` (R310); 0 is success and 8 to 15 are never written. -/
def Err.code : Err → Nat
  | .illegal => 1
  | .invalidArg => 2
  | .range => 3
  | .aliasing => 4
  | .overflow => 5
  | .nullBuf => 6
  | .bus => 7

/-- A `STAT` word from its fields: `BUSY` bit 0, `OVL` bit 1, `ERR` bits 7:4, every reserved bit 0 (R34). -/
def statWord (busy ovl : Bool) (code : Nat) : Word :=
  boolWord busy ||| (boolWord ovl <<< 1) ||| (natWord (code % 16) <<< 4)

/-- `STAT.BUSY` (R34). -/
def UnitState.busy (x : UnitState) : Bool := x.stat.getLsbD 0

/-- `STAT.OVL` (R34). -/
def UnitState.ovl (x : UnitState) : Bool := x.stat.getLsbD 1

/-- `STAT.ERR` (R34). -/
def UnitState.err (x : UnitState) : Nat := (x.stat.extractLsb' 4 4).toNat

/-- The reserved bits 3:2 and 63:8 of `STAT` read as 0 and `ERR` is never 8 to 15 (R34, R310). -/
def statLegal (w : Word) : Bool := w &&& 0xFFFFFFFFFFFFFF8C == 0

/-- `STAT.BUSY <- 1`, the other fields kept (R34, R140). -/
def setBusy (w : Word) : Word := w ||| 1

/-- The overlap detector (R221): `ABASE = BBASE` and `BPOS ≤ APOS < BPOS + CNT`. -/
def overlap (a : Buf) (apos : Nat) (b : Buf) (bpos cnt : Nat) : Bool :=
  decide (a.base = b.base ∧ bpos ≤ apos ∧ apos < bpos + cnt)

end Sys2Proof.Machine
end

