-- ==== Sys2Proof/Machine/Memory.lean ====
section
/-! DEFINITION. The operations over memory (R11, R12, R60 to R66) and over the lock table (R32, R69). -/

namespace Sys2Proof.Machine

/-- What a byte of memory that nothing has written reads as. `MEM` after power-on is unspecified (R42, U16); the model
names 0 (DESIGN CHOICE, unsafe: log entry 2). -/
def Memory.unlisted : Byte := 0

/-- The byte at a byte address (R64). -/
def Memory.readByte : Memory → Nat → Byte
  | [], _ => Memory.unlisted
  | (x, v) :: m, a => if x = a then v else Memory.readByte m a

/-- Remove what is listed for a byte address. -/
def Memory.erase (m : Memory) (a : Nat) : Memory := m.filter (fun c => c.1 != a)

/-- Put a cell in its place in rising order of addresses. -/
def Memory.insert : Memory → Nat → Byte → Memory
  | [], a, v => [(a, v)]
  | (x, w) :: m, a, v => if a < x then (a, v) :: (x, w) :: m else (x, w) :: Memory.insert m a v

/-- Write a byte: the canonical form lists no byte equal to what an unlisted one reads as. -/
def Memory.writeByte (m : Memory) (a : Nat) (v : Byte) : Memory :=
  if v = Memory.unlisted then Memory.erase m a else Memory.insert (Memory.erase m a) a v

/-- Addresses strictly rising. -/
def Memory.rising : Memory → Bool
  | [] => true
  | [_] => true
  | (x, _) :: (y, w) :: m => decide (x < y) && Memory.rising ((y, w) :: m)

/-- The canonical form: addresses strictly rising and no entry equal to what an unlisted address reads as. -/
def Memory.wf (m : Memory) : Bool := Memory.rising m && m.all (fun c => c.2 != Memory.unlisted)

/-- `MemRead(a, 1)` (R11): the word at word address `a`, its eight bytes in the order of R64 (byte `j` of the byte view
holds bits `8 * j` to `8 * j + 7`). -/
def Memory.readWord (m : Memory) (a : Nat) : Word :=
  m.readByte (8 * a + 7) ++ m.readByte (8 * a + 6) ++ m.readByte (8 * a + 5) ++ m.readByte (8 * a + 4)
    ++ m.readByte (8 * a + 3) ++ m.readByte (8 * a + 2) ++ m.readByte (8 * a + 1) ++ m.readByte (8 * a)

/-- Write the first `n` bytes of the word at word address `a` with those of `v`. -/
def Memory.writeBytes (m : Memory) (a : Nat) (v : Word) : Nat → Memory
  | 0 => m
  | n + 1 => (Memory.writeBytes m a v n).writeByte (8 * a + n) (v.extractLsb' (8 * n) 8)

/-- `MemWrite(a, 1, v)` (R11): store `v` at word address `a`, all eight bytes of it. -/
def Memory.writeWord (m : Memory) (a : Nat) (v : Word) : Memory := Memory.writeBytes m a v 8

/-- Bit `b` of the word at word address `a` (R8). -/
def Memory.bit (m : Memory) (a b : Nat) : Bool := (m.readWord a).getLsbD b

/-- `bit(X, p)` of the buffer at word address `base` (R12, R60): bit `p` lives in word `p >> 6` at sub-position
`p & 63`. -/
def Memory.bufBit (m : Memory) (base p : Nat) : Bool := m.bit (base + p / 64) (p % 64)

/-- Do two memories differ in a bit that `mask` selects, in some word? Only a word listed in one of them can differ. -/
def Memory.differsUnder (m m' : Memory) (mask : Nat → Word) : Bool :=
  (m ++ m').any (fun c => ((m.readWord (c.1 / 8) ^^^ m'.readWord (c.1 / 8)) &&& mask (c.1 / 8)) != 0)

/-- `LOCK[b]` (R32): the unit that holds the entry of base `b`, or none when it is `free`. -/
def LockTable.holder : LockTable → Nat → Option Nat
  | [], _ => none
  | (x, u) :: t, b => if x = b then some u else LockTable.holder t b

/-- The event `REL(b)` (R69): the entry becomes `free`. -/
def LockTable.release (t : LockTable) (b : Nat) : LockTable := t.filter (fun e => e.1 != b)

/-- Put an entry in its place in rising order of bases. -/
def LockTable.insert : LockTable → Nat → Nat → LockTable
  | [], b, u => [(b, u)]
  | (x, w) :: t, b, u => if b < x then (b, u) :: (x, w) :: t else (x, w) :: LockTable.insert t b u

/-- The event `ACQ(b)` of unit `u` (R69), for a base whose entry is `free`: the entry becomes `held(u)`. -/
def LockTable.acquire (t : LockTable) (b u : Nat) : LockTable := LockTable.insert (LockTable.release t b) b u

/-- Bases strictly rising: at most one holder of each base (R32), and one form for each table. -/
def LockTable.wf : LockTable → Bool
  | [] => true
  | [_] => true
  | (x, _) :: (y, w) :: t => decide (x < y) && LockTable.wf ((y, w) :: t)

end Sys2Proof.Machine
end

