-- ==== Sys2Proof/Machine/Operands.lean ====
section
/-! DEFINITION. The operand checks (R142, R145 to R147), the split of a range into words (R150) and the barrel shifter
(R153, R271), on the true values of the operands (R7, R157). -/

namespace Sys2Proof.Machine

/-! ## Checks -/

/-- Step 2 for a used buffer: its length word is negative (R142 (b)). -/
def badBuf (a : Buf) : Bool := isNeg a.len

/-- Step 2 for a buffer that may be absent (R142 (b)). -/
def badOptBuf : Option Buf → Bool
  | none => false
  | some a => badBuf a

/-- Step 2 for the one-buffer range commands (R142 (a), (b)). -/
def badOneBuf (a : Buf) (apos cnt : Word) : Bool := isNeg apos || isNeg cnt || badBuf a

/-- Step 2 for the two-buffer range commands (R142 (a), (b)). -/
def badTwoBuf (a : Buf) (apos : Word) (b : Buf) (bpos cnt : Word) : Bool :=
  isNeg apos || isNeg bpos || isNeg cnt || badBuf a || badBuf b

/-- Step 2 for `INDEXOF`, `LASTINDEXOF` and `CARD`, which hold an exclusive end (R142 (a), (b), (d)). -/
def badEnd (a : Buf) (apos cnt : Word) : Bool := badOneBuf a apos cnt || decide (cnt.toNat < apos.toNat)

/-- Step 7: the buffer's extent does not lie in memory, `XBASE + XLEN > MEMWORDS` as a true sum (R145, R157 (d)). -/
def offMemory (memWords : Nat) (a : Buf) : Bool := decide (memWords < a.base.toNat + a.len.toNat)

/-- Step 8: the range ends beyond the buffer, `POS + N > 64 * LEN` as true values (R146, R157 (c)). -/
def offBuffer (a : Buf) (pos n : Nat) : Bool := decide (64 * a.len.toNat < pos + n)

/-- `extents_meet` (R147): the two extents share a memory word. -/
def extentsMeet (a b : Buf) : Bool :=
  decide (0 < a.len.toNat ∧ 0 < b.len.toNat ∧ a.base.toNat < b.base.toNat + b.len.toNat
    ∧ b.base.toNat < a.base.toNat + a.len.toNat)

/-- `ranges_meet` (R147). -/
def rangesMeet (apos bpos n : Nat) : Bool := decide (apos < bpos + n ∧ bpos < apos + n)

/-- Step 9 for `COPY` (R147 (a)): differently based buffers that share words. -/
def aliasCopy (a b : Buf) : Bool := a.base != b.base && extentsMeet a b

/-- Step 9 for the five binary logical commands (R147 (a), (c)). -/
def aliasLogic (a : Buf) (apos : Nat) (b : Buf) (bpos n : Nat) : Bool :=
  aliasCopy a b || (a.base == b.base && apos != bpos && rangesMeet apos bpos n)

/-- Step 9 for `REV` (R147 (a), (b)). -/
def aliasRev (a b : Buf) : Bool := a.base == b.base || aliasCopy a b

/-! ## Splitting a range into words (R150) -/

/-- The mask `m(w)` of word index `w` for bits `pos` to `pos + n − 1` (R150): `ones(lo(w), hi(w))`. It is 0 for a word
that holds no bit of the range. -/
def wordMask (pos n w : Nat) : Word := ones (pos - 64 * w) (min (pos + n - 64 * w) 64)

/-- The word indices `first` to `last` of a range of at least one bit, ascending (R150). -/
def rangeWords (pos n : Nat) : List Nat :=
  List.range' (pos / 64) ((pos + n - 1) / 64 + 1 - pos / 64)

/-- The destination-word updates of a range (R151): for every word index `w` of it, in ascending order, the mask `m(w)`
and the value `v(w)`, computed from the old word `r`. -/
def rangeUpdates (m : Memory) (base pos n : Nat) (v : Nat → Word → Word) : List Upd :=
  (rangeWords pos n).map (fun w => ⟨base + w, wordMask pos n w, v w (m.readWord (base + w))⟩)

/-- The new word of a partial-word update: `(r & ~m) | (v & m)` (R73). For a full word it is `v`. -/
def merge (old mask val : Word) : Word := (old &&& ~~~mask) ||| (val &&& mask)

/-- Every bit of the word is written (R150). -/
def Upd.full (u : Upd) : Bool := u.mask == allOnes

/-! ## The barrel shifter (R153, R271) -/

/-- `SW(j)` (R153): word `j` of buffer `B`, and 0 (not read) outside it. -/
def sourceWord (m : Memory) (b : Buf) (j : Int) : Word :=
  if 0 ≤ j ∧ j < b.len.toNat then m.readWord (b.base.toNat + j.toNat) else 0

/-- `win(w)` (R153): the 64 source bits aligned to destination word index `w`. -/
def window (m : Memory) (b : Buf) (apos bpos w : Nat) : Word :=
  let delta : Int := (bpos : Int) - (apos : Int)
  let sh := (delta % 64).toNat
  let j : Int := (w : Int) + delta / 64
  if sh = 0 then sourceWord m b j
  else (sourceWord m b j >>> sh) ||| (sourceWord m b (j + 1) <<< (64 - sh))

/-- `rwin(w)` (R271): the 64 source bits, in reversed order, aligned to destination word index `w`. -/
def revWindow (m : Memory) (b : Buf) (apos bpos n w : Nat) : Word :=
  let u := bpos + n - 1 + apos - 64 * w
  let mi : Int := (u / 64 : Nat)
  let r := u % 64
  (rev64 (sourceWord m b mi) >>> (63 - r))
    ||| (if r = 63 then 0 else rev64 (sourceWord m b (mi - 1)) <<< (r + 1))

end Sys2Proof.Machine
end

