-- ==== Sys2Proof/Machine/Ops.lean ====
section
/-! DEFINITION. The operations every command shares: the check sequence (R141), ending a command with an error or with
success (R148, R149), carrying out its work (R151, R155), and what the host may read (R34, R35). -/

namespace Sys2Proof.Machine

/-- The result of a step when it goes on to a state. -/
abbrev Result := Host.Outcome State Fault Refusal

/-! ## Units -/

/-- Replace unit `u` of the system; nothing else changes. -/
def State.setUnit (s : State) (u : Nat) (x : UnitState) : State := { s with units := s.units.set u x }

/-- Submission, as the unit sees it (R140): `CUR <-` the nine words, `STAT.BUSY <- 1`. Its progress and the model's own
mark of interference start afresh. -/
def UnitState.accept (x : UnitState) (d : Desc) : UnitState :=
  { x with stat := setBusy x.stat, cur := d, job := none, raced := false }

/-- Completion, as the unit sees it (R148, R149): in one step `RES`, `STAT.ERR` and `STAT.OVL` are written and
`STAT.BUSY` falls; no progress survives (R40). `CUR` keeps its words, which nothing can observe (R33;
DESIGN CHOICE, log entry 16). -/
def UnitState.complete (x : UnitState) (code : Nat) (ovl : Bool) (res : Word) : UnitState :=
  { x with stat := statWord false ovl code, res := res, job := none, raced := false }

/-- TAKING AN ERROR, the unit's only exception (R14, R148, R321): `RES <- 0`, `STAT.OVL <- 0`, `STAT.ERR <- code`,
`STAT.BUSY <- 0`. Control goes nowhere, nothing is saved, and there is nothing to return from (R321, R323). -/
def UnitState.raise (x : UnitState) (e : Err) : UnitState := x.complete e.code false 0

/-- Completion with success (R149): `STAT.ERR <- 0`, `RES <-` the result, `STAT.OVL <-` the detector's output. -/
def UnitState.done (x : UnitState) (ovl : Bool) (res : Word) : UnitState := x.complete 0 ovl res

/-- What the host reads from `STAT` of a unit (R34, R362), at any time. -/
def State.readStat (s : State) (u : Nat) : Option Word := (s.units[u]?).map UnitState.stat

/-- What the host reads from `RES` of a unit (R35, R362), at any time. -/
def State.readRes (s : State) (u : Nat) : Option Word := (s.units[u]?).map UnitState.res

/-! ## The check sequence -/

/-- Steps 2 and 6 to 9 of R141, in that order: the first that fails ends the command with its error, and an empty range
completes with its neutral result before steps 7 to 9 (R144). `empty` is that result when the range is empty. When every
check has passed the command executes its work (step 10), which is not computed before. -/
def checkSequence (badArg : Bool) (empty : Option Word) (bus range aliasing : Bool) (w : Unit → Work) :
    Plan :=
  if badArg then .fail .invalidArg
  else match empty with
    | some r => .early r
    | none =>
      if bus then .fail .bus
      else if range then .fail .range
      else if aliasing then .fail .aliasing
      else .work (w ())

/-- The empty-range result of step 6 (R144). -/
def emptyResult (n : Nat) (r : Word) : Option Word := if n = 0 then some r else none

/-- The work of a read-only command: a result and no write (R76, R80). -/
def readOnly (res : Word) : Work := { res := res, ovl := false, ns := true, base := 0, todo := [] }

/-- The work of a command that writes buffer `A` and has no result (R76, R151). -/
def writing (ns ovl : Bool) (a : Buf) (todo : List Upd) : Work :=
  { res := 0, ovl := ovl, ns := ns, base := a.base.toNat, todo := todo }

/-! ## Carrying out a command as one atomic step (R78, R155) -/

/-- One destination-word update (R73 to R75), its read and its write together. -/
def applyUpd (m : Memory) (u : Upd) : Memory := m.writeWord u.addr (merge (m.readWord u.addr) u.mask u.val)

/-- All the updates, one after the other. -/
def applyUpds (m : Memory) (us : List Upd) : Memory := us.foldl applyUpd m

/-- The updates of a raced command: the values it writes are any value (R79), each a draw of its own. -/
def freeUpds : Nat → List Upd → List Upd
  | _, [] => []
  | n, u :: us => { u with val := Config.freeWord n } :: freeUpds (n + 1) us

/-- The work of a raced command (R79): its result and the values it writes are free, its write footprint, the bits it
preserves and its overlap output are as they were. -/
def Work.free (w : Work) (ctr : Nat) : Work :=
  { w with res := Config.freeWord ctr, todo := freeUpds (ctr + 1) w.todo }

/-- Unit `s.active` carries out the work of a command that was raced before this turn (R79): its `RES` and every value it
writes are free; every other bit of memory is as before. -/
def State.performRaced (s : State) (x : UnitState) (w : Work) : State :=
  { s.setUnit s.active (x.done w.ovl (w.free s.freeCtr).res) with
    mem := applyUpds s.mem (w.free s.freeCtr).todo
    freeCtr := s.freeCtr + 1 + w.todo.length }

/-- Does the work take the buffer lock: a partial-word update with `NS = 0` (R73, R151)? -/
def Work.locks (w : Work) : Bool := !w.ns && w.todo.any (fun u => !u.full)

/-- The work is to lock a base whose entry is held, so the unit waits (R72). -/
def Work.mustWait (w : Work) (t : LockTable) : Bool := w.locks && (t.holder w.base).isSome

/-- Carry out a plan on unit `x`, which is unit `s.active`: end with the error, or with the early result, or perform the
work and complete. A unit that would have to acquire a held lock waits: nothing changes (R72). The lock table is the same
afterwards as before, every entry acquired being released (R73). DESIGN CHOICE, safe: log entry 8. -/
def State.perform (s : State) (x : UnitState) : Plan → State
  | .fail e => s.setUnit s.active (x.raise e)
  | .early r => s.setUnit s.active (x.done false r)
  | .work w =>
    if w.mustWait s.lock then s
    else if x.raced then s.performRaced x w
    else { s.setUnit s.active (x.done w.ovl w.res) with mem := applyUpds s.mem w.todo }

/-- What every meaning ends in: unit `s.active` carries out its plan. -/
def carryOut (s : State) (p : Plan) : Result :=
  match s.units[s.active]? with
  | none => .fault (.noSuchUnit s.active)
  | some x => .next (s.perform x p)

end Sys2Proof.Machine
end

