-- ==== Sys2Proof/Machine/Addressing.lean ====
section
/-! DEFINITION. The addressing primitives `PLEN`, `ULEN`, `GETBIT`, `SETBIT` (`41_addressing.md`). -/

namespace Sys2Proof.Machine

/-- `PLEN` (R180): `(CNT + 63) >> 6` on the true sum; `InvalidArg` for a negative input. -/
def planPlen (cnt : Word) : Plan :=
  if isNeg cnt then .fail .invalidArg
  else .early (natWord ((cnt.toNat + 63) / 64))

/-- The meaning of `PLEN` (R180). -/
def execPlen (cnt : Word) (s : State) : Result := carryOut s (planPlen cnt)

/-- `ULEN` (R181): `64 * CNT` on the true product; `Overflow` when it is above 2^63 − 1. -/
def planUlen (cnt : Word) : Plan :=
  if isNeg cnt then .fail .invalidArg
  else if 2 ^ 63 - 1 < 64 * cnt.toNat then .fail .overflow
  else .early (natWord (64 * cnt.toNat))

/-- The meaning of `ULEN` (R181). -/
def execUlen (cnt : Word) (s : State) : Result := carryOut s (planUlen cnt)

/-- `GETBIT` (R182): one read, the bit as 0 or 1. -/
def planGetbit (a : Buf) (apos : Word) (memWords : Nat) (m : Memory) : Plan :=
  checkSequence (isNeg apos || badBuf a) none (offMemory memWords a) (offBuffer a apos.toNat 1) false
    (fun _ => readOnly (boolWord (m.bufBit a.base.toNat apos.toNat)))

/-- The meaning of `GETBIT` (R182). -/
def execGetbit (a : Buf) (apos : Word) (s : State) : Result := carryOut s (planGetbit a apos s.memWords s.mem)

/-- `SETBIT` (R183): one partial-word update of the one containing word. -/
def planSetbit (ns v : Bool) (a : Buf) (apos : Word) (memWords : Nat) : Plan :=
  checkSequence (isNeg apos || badBuf a) none (offMemory memWords a) (offBuffer a apos.toNat 1) false
    (fun _ => writing ns false a
      [⟨a.base.toNat + apos.toNat / 64, 1 <<< (apos.toNat % 64), if v then allOnes else 0⟩])

/-- The meaning of `SETBIT` (R183). -/
def execSetbit (ns v : Bool) (a : Buf) (apos : Word) (s : State) : Result :=
  carryOut s (planSetbit ns v a apos s.memWords)

end Sys2Proof.Machine
end

