-- ==== Sys2Proof/Machine/RangeCopy.lean ====
section
/-! DEFINITION. Range copy with overlap detection: `COPY` (`43_range_copy.md`). -/

namespace Sys2Proof.Machine

/-- Step 7 for the two-buffer commands (R145). -/
def offMemory2 (memWords : Nat) (a b : Buf) : Bool := offMemory memWords a || offMemory memWords b

/-- Step 8 for the two-buffer commands (R146). -/
def offBuffer2 (a : Buf) (apos : Nat) (b : Buf) (bpos n : Nat) : Bool :=
  offBuffer a apos n || offBuffer b bpos n

/-- `COPY` (R220): every destination word gets the window of the memory at submission (R223, R155), and `STAT.OVL` the
overlap detector's output (R221). -/
def planCopy (ns : Bool) (a : Buf) (apos : Word) (b : Buf) (bpos cnt : Word) (memWords : Nat) (m : Memory) : Plan :=
  checkSequence (badTwoBuf a apos b bpos cnt) (emptyResult cnt.toNat 0) (offMemory2 memWords a b)
      (offBuffer2 a apos.toNat b bpos.toNat cnt.toNat) (aliasCopy a b)
    (fun _ => writing ns (overlap a apos.toNat b bpos.toNat cnt.toNat) a
      (rangeUpdates m a.base.toNat apos.toNat cnt.toNat (fun w _ => window m b apos.toNat bpos.toNat w)))

/-- The meaning of `COPY` (R220). -/
def execCopy (ns : Bool) (a : Buf) (apos : Word) (b : Buf) (bpos cnt : Word) (s : State) : Result :=
  carryOut s (planCopy ns a apos b bpos cnt s.memWords s.mem)

end Sys2Proof.Machine
end

