-- ==== Sys2Proof/Machine/Equality.lean ====
section
/-! DEFINITION. The bitwise-equality comparator: `EQ` (`47_equality.md`). -/

namespace Sys2Proof.Machine

/-- The comparison (R300) through the barrel shifter (R301): `(r ^ win(w)) & m(w)` is 0 in every word of the range. -/
def rangesEqual (m : Memory) (a : Buf) (apos : Nat) (b : Buf) (bpos n : Nat) : Bool :=
  (rangeWords apos n).all (fun w =>
    (m.readWord (a.base.toNat + w) ^^^ window m b apos bpos w) &&& wordMask apos n w == 0)

/-- Steps 5 to 10 of `EQ` for two present buffers (R141, R300): the same buffer and position gives 1 before any other
check. -/
def planEqPresent (a : Buf) (apos : Word) (b : Buf) (bpos cnt : Word) (memWords : Nat) (m : Memory) : Plan :=
  if a.base = b.base ∧ apos = bpos then .early 1
  else checkSequence false (emptyResult cnt.toNat 1) (offMemory2 memWords a b)
      (offBuffer2 a apos.toNat b bpos.toNat cnt.toNat) false
    (fun _ => readOnly (boolWord (rangesEqual m a apos.toNat b bpos.toNat cnt.toNat)))

/-- `EQ` (R300): the sign checks, then both absent gives 1, exactly one absent is `NullBuf`. -/
def planEq (a : Option Buf) (apos : Word) (b : Option Buf) (bpos cnt : Word) (memWords : Nat) (m : Memory) : Plan :=
  if isNeg apos || isNeg bpos || isNeg cnt || badOptBuf a || badOptBuf b then .fail .invalidArg
  else match a, b with
    | none, none => .early 1
    | none, some _ => .fail .nullBuf
    | some _, none => .fail .nullBuf
    | some a, some b => planEqPresent a apos b bpos cnt memWords m

/-- The meaning of `EQ` (R300). -/
def execEq (a : Option Buf) (apos : Word) (b : Option Buf) (bpos cnt : Word) (s : State) : Result :=
  carryOut s (planEq a apos b bpos cnt s.memWords s.mem)

end Sys2Proof.Machine
end

