-- ==== Sys2Proof/Machine/Logical.lean ====
section
/-! DEFINITION. The multi-word logical combinator: `NOT`, `AND`, `OR`, `XOR`, `ANDNOT`, `ORNOT`, `FILL`, `ISZERO`
(`44_logical.md`). -/

namespace Sys2Proof.Machine

/-- The common pattern of the five binary commands (R240): per word `v(w) = OPW(r, win(w))`, in place. -/
def planBinary (op : Word → Word → Word) (ns : Bool) (a : Buf) (apos : Word) (b : Buf) (bpos cnt : Word)
    (memWords : Nat) (m : Memory) : Plan :=
  checkSequence (badTwoBuf a apos b bpos cnt) (emptyResult cnt.toNat 0) (offMemory2 memWords a b)
      (offBuffer2 a apos.toNat b bpos.toNat cnt.toNat) (aliasLogic a apos.toNat b bpos.toNat cnt.toNat)
    (fun _ => writing ns false a
      (rangeUpdates m a.base.toNat apos.toNat cnt.toNat (fun w r => op r (window m b apos.toNat bpos.toNat w))))

/-- The common pattern of the two unary commands that write (R241, R247): per word `v(w)` from the old word. -/
def planUnary (v : Word → Word) (ns : Bool) (a : Buf) (apos cnt : Word) (memWords : Nat) (m : Memory) : Plan :=
  checkSequence (badOneBuf a apos cnt) (emptyResult cnt.toNat 0) (offMemory memWords a)
      (offBuffer a apos.toNat cnt.toNat) false
    (fun _ => writing ns false a (rangeUpdates m a.base.toNat apos.toNat cnt.toNat (fun _ r => v r)))

/-- `NOT` (R241): `v(w) = ~r`. -/
def planNot (ns : Bool) (a : Buf) (apos cnt : Word) (memWords : Nat) (m : Memory) : Plan :=
  planUnary (fun r => ~~~r) ns a apos cnt memWords m

/-- The meaning of `NOT` (R241). -/
def execNot (ns : Bool) (a : Buf) (apos cnt : Word) (s : State) : Result :=
  carryOut s (planNot ns a apos cnt s.memWords s.mem)

/-- `AND` (R242): `v(w) = r & win(w)`. -/
def planAnd (ns : Bool) (a : Buf) (apos : Word) (b : Buf) (bpos cnt : Word) (memWords : Nat) (m : Memory) : Plan :=
  planBinary (fun r x => r &&& x) ns a apos b bpos cnt memWords m

/-- The meaning of `AND` (R242). -/
def execAnd (ns : Bool) (a : Buf) (apos : Word) (b : Buf) (bpos cnt : Word) (s : State) : Result :=
  carryOut s (planAnd ns a apos b bpos cnt s.memWords s.mem)

/-- `OR` (R243): `v(w) = r | win(w)`. -/
def planOr (ns : Bool) (a : Buf) (apos : Word) (b : Buf) (bpos cnt : Word) (memWords : Nat) (m : Memory) : Plan :=
  planBinary (fun r x => r ||| x) ns a apos b bpos cnt memWords m

/-- The meaning of `OR` (R243). -/
def execOr (ns : Bool) (a : Buf) (apos : Word) (b : Buf) (bpos cnt : Word) (s : State) : Result :=
  carryOut s (planOr ns a apos b bpos cnt s.memWords s.mem)

/-- `XOR` (R244): `v(w) = r ^ win(w)`. -/
def planXor (ns : Bool) (a : Buf) (apos : Word) (b : Buf) (bpos cnt : Word) (memWords : Nat) (m : Memory) : Plan :=
  planBinary (fun r x => r ^^^ x) ns a apos b bpos cnt memWords m

/-- The meaning of `XOR` (R244). -/
def execXor (ns : Bool) (a : Buf) (apos : Word) (b : Buf) (bpos cnt : Word) (s : State) : Result :=
  carryOut s (planXor ns a apos b bpos cnt s.memWords s.mem)

/-- `ANDNOT` (R245): `v(w) = r & ~win(w)`; the complement is on the source operand. -/
def planAndnot (ns : Bool) (a : Buf) (apos : Word) (b : Buf) (bpos cnt : Word) (memWords : Nat) (m : Memory) : Plan :=
  planBinary (fun r x => r &&& ~~~x) ns a apos b bpos cnt memWords m

/-- The meaning of `ANDNOT` (R245). -/
def execAndnot (ns : Bool) (a : Buf) (apos : Word) (b : Buf) (bpos cnt : Word) (s : State) : Result :=
  carryOut s (planAndnot ns a apos b bpos cnt s.memWords s.mem)

/-- `ORNOT` (R246): `v(w) = r | ~win(w)`; the complement is on the source operand. -/
def planOrnot (ns : Bool) (a : Buf) (apos : Word) (b : Buf) (bpos cnt : Word) (memWords : Nat) (m : Memory) : Plan :=
  planBinary (fun r x => r ||| ~~~x) ns a apos b bpos cnt memWords m

/-- The meaning of `ORNOT` (R246). -/
def execOrnot (ns : Bool) (a : Buf) (apos : Word) (b : Buf) (bpos cnt : Word) (s : State) : Result :=
  carryOut s (planOrnot ns a apos b bpos cnt s.memWords s.mem)

/-- `FILL` (R247): `v(w)` is all ones when `V = 1`, else 0. -/
def planFill (ns v : Bool) (a : Buf) (apos cnt : Word) (memWords : Nat) (m : Memory) : Plan :=
  planUnary (fun _ => if v then allOnes else 0) ns a apos cnt memWords m

/-- The meaning of `FILL` (R247). -/
def execFill (ns v : Bool) (a : Buf) (apos cnt : Word) (s : State) : Result :=
  carryOut s (planFill ns v a apos cnt s.memWords s.mem)

/-- The scan of `ISZERO` (R248): no word of the range has a set bit under its mask. -/
def rangeZero (m : Memory) (base pos n : Nat) : Bool :=
  (rangeWords pos n).all (fun w => m.readWord (base + w) &&& wordMask pos n w == 0)

/-- `ISZERO` (R248). -/
def planIszero (a : Buf) (apos cnt : Word) (memWords : Nat) (m : Memory) : Plan :=
  checkSequence (badOneBuf a apos cnt) (emptyResult cnt.toNat 1) (offMemory memWords a)
      (offBuffer a apos.toNat cnt.toNat) false
    (fun _ => readOnly (boolWord (rangeZero m a.base.toNat apos.toNat cnt.toNat)))

/-- The meaning of `ISZERO` (R248). -/
def execIszero (a : Buf) (apos cnt : Word) (s : State) : Result :=
  carryOut s (planIszero a apos cnt s.memWords s.mem)

end Sys2Proof.Machine
end

