-- ==== Sys2Proof/Machine/Reversal.lean ====
section
/-! DEFINITION. The bit-reversal pipeline: `REV` (`45_reversal.md`). -/

namespace Sys2Proof.Machine

/-- `REV` (R270): every destination word gets the reversed window (R271). -/
def planRev (ns : Bool) (a : Buf) (apos : Word) (b : Buf) (bpos cnt : Word) (memWords : Nat) (m : Memory) : Plan :=
  checkSequence (badTwoBuf a apos b bpos cnt) (emptyResult cnt.toNat 0) (offMemory2 memWords a b)
      (offBuffer2 a apos.toNat b bpos.toNat cnt.toNat) (aliasRev a b)
    (fun _ => writing ns false a
      (rangeUpdates m a.base.toNat apos.toNat cnt.toNat
        (fun w _ => revWindow m b apos.toNat bpos.toNat cnt.toNat w)))

/-- The meaning of `REV` (R270). -/
def execRev (ns : Bool) (a : Buf) (apos : Word) (b : Buf) (bpos cnt : Word) (s : State) : Result :=
  carryOut s (planRev ns a apos b bpos cnt s.memWords s.mem)

end Sys2Proof.Machine
end

