-- ==== Sys2Proof/Machine/Search.lean ====
section
/-! DEFINITION. Search and population count: `INDEXOF`, `LASTINDEXOF`, `CARD` (`46_search_aggregate.md`). In all three the
`CNT` word holds the exclusive end of the range, which has `N = CNT − APOS` bits (R143). -/

namespace Sys2Proof.Machine

/-- The in-range bits of word `w` that equal `v`, as a mask (R280): `word` or `~word`, masked. -/
def matchBits (m : Memory) (base pos n : Nat) (v : Bool) (w : Nat) : Word :=
  (if v then m.readWord (base + w) else ~~~(m.readWord (base + w))) &&& wordMask pos n w

/-- The ascending scan (R280): the first word with a match, and in it the lowest. -/
def firstMatch (m : Memory) (base pos n : Nat) (v : Bool) : Option Nat :=
  (rangeWords pos n).findSome? (fun w =>
    if matchBits m base pos n v w = 0 then none else some (64 * w + ctz64 (matchBits m base pos n v w)))

/-- The descending scan (R281): the last word with a match, and in it the highest. -/
def lastMatch (m : Memory) (base pos n : Nat) (v : Bool) : Option Nat :=
  (rangeWords pos n).reverse.findSome? (fun w =>
    if matchBits m base pos n v w = 0 then none else some (64 * w + 63 - clz64 (matchBits m base pos n v w)))

/-- The count (R282): masked population counts summed over the words of the range. -/
def rangeCount (m : Memory) (base pos n : Nat) : Nat :=
  ((rangeWords pos n).map (fun w => popcount64 (m.readWord (base + w) &&& wordMask pos n w))).sum

/-- The common checks of the three (R142 (d), R144, R146); `empty` is the result for an empty range. -/
def checkSearch (a : Buf) (apos cnt empty : Word) (memWords : Nat) (w : Unit → Work) : Plan :=
  checkSequence (badEnd a apos cnt) (emptyResult (cnt.toNat - apos.toNat) empty) (offMemory memWords a)
    (offBuffer a apos.toNat (cnt.toNat - apos.toNat)) false w

/-- `INDEXOF` (R280). -/
def planIndexof (v : Bool) (a : Buf) (apos cnt : Word) (memWords : Nat) (m : Memory) : Plan :=
  checkSearch a apos cnt allOnes memWords
    (fun _ => readOnly (indexWord (firstMatch m a.base.toNat apos.toNat (cnt.toNat - apos.toNat) v)))

/-- The meaning of `INDEXOF` (R280). -/
def execIndexof (v : Bool) (a : Buf) (apos cnt : Word) (s : State) : Result :=
  carryOut s (planIndexof v a apos cnt s.memWords s.mem)

/-- `LASTINDEXOF` (R281). -/
def planLastindexof (v : Bool) (a : Buf) (apos cnt : Word) (memWords : Nat) (m : Memory) : Plan :=
  checkSearch a apos cnt allOnes memWords
    (fun _ => readOnly (indexWord (lastMatch m a.base.toNat apos.toNat (cnt.toNat - apos.toNat) v)))

/-- The meaning of `LASTINDEXOF` (R281). -/
def execLastindexof (v : Bool) (a : Buf) (apos cnt : Word) (s : State) : Result :=
  carryOut s (planLastindexof v a apos cnt s.memWords s.mem)

/-- `CARD` (R282). -/
def planCard (a : Buf) (apos cnt : Word) (memWords : Nat) (m : Memory) : Plan :=
  checkSearch a apos cnt 0 memWords
    (fun _ => readOnly (natWord (rangeCount m a.base.toNat apos.toNat (cnt.toNat - apos.toNat))))

/-- The meaning of `CARD` (R282). -/
def execCard (a : Buf) (apos cnt : Word) (s : State) : Result :=
  carryOut s (planCard a apos cnt s.memWords s.mem)

end Sys2Proof.Machine
end

