-- ==== Sys2Proof/Machine/WordTransfer.lean ====
section
/-! DEFINITION. Multi-bit word transfer: `GETBITS`, `SETBITS` (`42_word_transfer.md`), the two commands that tolerate a
range past the end of the buffer. -/

namespace Sys2Proof.Machine

/-- Step 2 for the two (R142 (a), (b), (c)). -/
def badScalar (a : Buf) (apos cnt : Word) : Bool := badOneBuf a apos cnt || decide (64 < cnt.toNat)

/-- The word form of `GETBITS` (R200): two words at most, neither read outside the buffer, joined and masked. -/
def extractBits (m : Memory) (a : Buf) (pos n : Nat) : Word :=
  let w0 := pos / 64
  let s := pos % 64
  let lo : Word := if w0 < a.len.toNat then m.readWord (a.base.toNat + w0) else 0
  let hi : Word := if 64 < s + n ∧ w0 + 1 < a.len.toNat then m.readWord (a.base.toNat + w0 + 1) else 0
  ((lo >>> s) ||| (if s = 0 then 0 else hi <<< (64 - s))) &&& ones 0 n

/-- `GETBITS` (R200). -/
def planGetbits (a : Buf) (apos cnt : Word) (memWords : Nat) (m : Memory) : Plan :=
  checkSequence (badScalar a apos cnt) (emptyResult cnt.toNat 0) (offMemory memWords a) false false
    (fun _ => readOnly (extractBits m a apos.toNat cnt.toNat))

/-- The meaning of `GETBITS` (R200). -/
def execGetbits (a : Buf) (apos cnt : Word) (s : State) : Result :=
  carryOut s (planGetbits a apos cnt s.memWords s.mem)

/-- The word form of `SETBITS` (R201): word `w0` and, when the bits span into it, word `w0 + 1`, each only when it is
inside the buffer. -/
def insertUpdates (a : Buf) (pos n : Nat) (val : Word) : List Upd :=
  let w0 := pos / 64
  let s := pos % 64
  let e := s + n
  (if w0 < a.len.toNat then [⟨a.base.toNat + w0, ones s (min e 64), val <<< s⟩] else [])
    ++ (if 64 < e ∧ w0 + 1 < a.len.toNat then
          [⟨a.base.toNat + w0 + 1, ones 0 (e - 64), val >>> (64 - s)⟩] else [])

/-- `SETBITS` (R201). -/
def planSetbits (ns : Bool) (a : Buf) (apos cnt val : Word) (memWords : Nat) : Plan :=
  checkSequence (badScalar a apos cnt) (emptyResult cnt.toNat 0) (offMemory memWords a) false false
    (fun _ => writing ns false a (insertUpdates a apos.toNat cnt.toNat val))

/-- The meaning of `SETBITS` (R201). -/
def execSetbits (ns : Bool) (a : Buf) (apos cnt val : Word) (s : State) : Result :=
  carryOut s (planSetbits ns a apos cnt val s.memWords)

end Sys2Proof.Machine
end

