-- ==== Sys2Proof/Machine/Dispatch.lean ====
section
/-! DEFINITION. `exec`: unit `s.active` carries out the whole of one command (R140, R155), one arm per command. -/

namespace Sys2Proof.Machine

def exec (i : Instr) (s : State) : Host.Outcome State Fault Refusal :=
  match i with
  | .plen cnt => Sys2Proof.Machine.execPlen cnt s
  | .ulen cnt => Sys2Proof.Machine.execUlen cnt s
  | .getbit a apos => Sys2Proof.Machine.execGetbit a apos s
  | .setbit ns v a apos => Sys2Proof.Machine.execSetbit ns v a apos s
  | .getbits a apos cnt => Sys2Proof.Machine.execGetbits a apos cnt s
  | .setbits ns a apos cnt val => Sys2Proof.Machine.execSetbits ns a apos cnt val s
  | .copy ns a apos b bpos cnt => Sys2Proof.Machine.execCopy ns a apos b bpos cnt s
  | .notb ns a apos cnt => Sys2Proof.Machine.execNot ns a apos cnt s
  | .andb ns a apos b bpos cnt => Sys2Proof.Machine.execAnd ns a apos b bpos cnt s
  | .orb ns a apos b bpos cnt => Sys2Proof.Machine.execOr ns a apos b bpos cnt s
  | .xorb ns a apos b bpos cnt => Sys2Proof.Machine.execXor ns a apos b bpos cnt s
  | .andnot ns a apos b bpos cnt => Sys2Proof.Machine.execAndnot ns a apos b bpos cnt s
  | .ornot ns a apos b bpos cnt => Sys2Proof.Machine.execOrnot ns a apos b bpos cnt s
  | .fill ns v a apos cnt => Sys2Proof.Machine.execFill ns v a apos cnt s
  | .iszero a apos cnt => Sys2Proof.Machine.execIszero a apos cnt s
  | .rev ns a apos b bpos cnt => Sys2Proof.Machine.execRev ns a apos b bpos cnt s
  | .indexof v a apos cnt => Sys2Proof.Machine.execIndexof v a apos cnt s
  | .lastindexof v a apos cnt => Sys2Proof.Machine.execLastindexof v a apos cnt s
  | .card a apos cnt => Sys2Proof.Machine.execCard a apos cnt s
  | .eqb a apos b bpos cnt => Sys2Proof.Machine.execEq a apos b bpos cnt s

end Sys2Proof.Machine
end

