-- ==== Sys2Proof/Decode.lean ====
section
/-! DEFINITION. The decoder, total on every 9-word value and rejecting by name (R103, R106, R107, R109), and after it the
encoder, written from the same tables (R101, R104, R110). -/

namespace Sys2Proof

/-- The mnemonics of the opcode map (R103). -/
inductive Op where
  | plen | ulen | getbit | setbit | getbits | setbits | copy | notb | andb | orb | xorb | andnot | ornot
  | fill | iszero | rev | indexof | lastindexof | card | eqb
  deriving DecidableEq, Repr

/-- One row of the opcode map: a descriptor selects it exactly when `W0 & mask = pattern` (R103). -/
structure Row where
  op : Op
  pattern : Word
  mask : Word
  deriving DecidableEq, Repr

/-- The opcode map, row by row as R103 prints it. -/
def opcodeMap : List Row :=
  [⟨.plen,        0x01, 0xFFFFFFFFFFFFFFFF⟩,
   ⟨.ulen,        0x02, 0xFFFFFFFFFFFFFFFF⟩,
   ⟨.getbit,      0x03, 0xFFFFFFFFFFFFFFFF⟩,
   ⟨.setbit,      0x04, 0xFFFFFFFFFFFFFCFF⟩,
   ⟨.getbits,     0x05, 0xFFFFFFFFFFFFFFFF⟩,
   ⟨.setbits,     0x06, 0xFFFFFFFFFFFFFEFF⟩,
   ⟨.copy,        0x07, 0xFFFFFFFFFFFFFEFF⟩,
   ⟨.notb,        0x08, 0xFFFFFFFFFFFFFEFF⟩,
   ⟨.andb,        0x09, 0xFFFFFFFFFFFFFEFF⟩,
   ⟨.orb,         0x0A, 0xFFFFFFFFFFFFFEFF⟩,
   ⟨.xorb,        0x0B, 0xFFFFFFFFFFFFFEFF⟩,
   ⟨.andnot,      0x0C, 0xFFFFFFFFFFFFFEFF⟩,
   ⟨.ornot,       0x0D, 0xFFFFFFFFFFFFFEFF⟩,
   ⟨.fill,        0x0E, 0xFFFFFFFFFFFFFCFF⟩,
   ⟨.iszero,      0x0F, 0xFFFFFFFFFFFFFFFF⟩,
   ⟨.rev,         0x10, 0xFFFFFFFFFFFFFEFF⟩,
   ⟨.indexof,     0x11, 0xFFFFFFFFFFFFFDFF⟩,
   ⟨.lastindexof, 0x12, 0xFFFFFFFFFFFFFDFF⟩,
   ⟨.card,        0x13, 0xFFFFFFFFFFFFFFFF⟩,
   ⟨.eqb,         0x14, 0xFFFFFFFFFFFFF3FF⟩]

/-- Why a descriptor selects no row (R106, R107). All three end the command with the error `Illegal` (R311). -/
inductive Illegal where
  /-- The opcode byte is `0x00` or `0x15` to `0xFF` (R106). -/
  | reservedOpcode
  /-- A header bit of 63:12 is set (R101, R107). -/
  | reservedHeaderBit
  /-- A flag that R103 does not allow for the opcode is set (R107). -/
  | flagNotAllowed
  deriving DecidableEq, Repr

/-- Header field `OPC`, bits 7:0 (R101). -/
def Desc.opc (d : Desc) : Nat := (d.hdr.extractLsb' 0 8).toNat

/-- Header flag `NS`, bit 8 (R101). -/
def Desc.ns (d : Desc) : Bool := d.hdr.getLsbD 8

/-- Header flag `V`, bit 9 (R101). -/
def Desc.v (d : Desc) : Bool := d.hdr.getLsbD 9

/-- Header flag `AN`, bit 10 (R101). -/
def Desc.an (d : Desc) : Bool := d.hdr.getLsbD 10

/-- Header flag `BN`, bit 11 (R101). -/
def Desc.bn (d : Desc) : Bool := d.hdr.getLsbD 11

/-- Buffer `A` of a descriptor (`W1`, `W2`). -/
def Desc.bufA (d : Desc) : Buf := ⟨d.abase, d.alen⟩

/-- Buffer `B` of a descriptor (`W4`, `W5`). -/
def Desc.bufB (d : Desc) : Buf := ⟨d.bbase, d.blen⟩

/-- The command a selected row stands for: the operand words R104 marks, each used as it stands (R102). -/
def Op.build (d : Desc) : Op → Instr
  | .plen => .plen d.cnt
  | .ulen => .ulen d.cnt
  | .getbit => .getbit d.bufA d.apos
  | .setbit => .setbit d.ns d.v d.bufA d.apos
  | .getbits => .getbits d.bufA d.apos d.cnt
  | .setbits => .setbits d.ns d.bufA d.apos d.cnt d.val
  | .copy => .copy d.ns d.bufA d.apos d.bufB d.bpos d.cnt
  | .notb => .notb d.ns d.bufA d.apos d.cnt
  | .andb => .andb d.ns d.bufA d.apos d.bufB d.bpos d.cnt
  | .orb => .orb d.ns d.bufA d.apos d.bufB d.bpos d.cnt
  | .xorb => .xorb d.ns d.bufA d.apos d.bufB d.bpos d.cnt
  | .andnot => .andnot d.ns d.bufA d.apos d.bufB d.bpos d.cnt
  | .ornot => .ornot d.ns d.bufA d.apos d.bufB d.bpos d.cnt
  | .fill => .fill d.ns d.v d.bufA d.apos d.cnt
  | .iszero => .iszero d.bufA d.apos d.cnt
  | .rev => .rev d.ns d.bufA d.apos d.bufB d.bpos d.cnt
  | .indexof => .indexof d.v d.bufA d.apos d.cnt
  | .lastindexof => .lastindexof d.v d.bufA d.apos d.cnt
  | .card => .card d.bufA d.apos d.cnt
  | .eqb => .eqb (if d.an then none else some d.bufA) d.apos (if d.bn then none else some d.bufB) d.bpos d.cnt

/-- `W0 & mask = pattern` (R103). -/
def Row.selects (hdr : Word) (r : Row) : Bool := hdr &&& r.mask == r.pattern

/-- The name of the rejection of a header that selects no row. -/
def whyIllegal (hdr : Word) : Illegal :=
  let opc := (hdr.extractLsb' 0 8).toNat
  if opc = 0 ∨ 0x14 < opc then .reservedOpcode
  else if hdr >>> 12 ≠ 0 then .reservedHeaderBit
  else .flagNotAllowed

/-- The decoder (R109): every descriptor either selects one row of the opcode map or is illegal. -/
def decode (d : Desc) : Except Illegal Instr :=
  match opcodeMap.find? (Row.selects d.hdr) with
  | some r => .ok (r.op.build d)
  | none => .error (whyIllegal d.hdr)

/-- A header word from an opcode and the four flags (R101); every reserved bit is 0. -/
def header (opc : Word) (ns v an bn : Bool) : Word :=
  opc ||| (if ns then 0x100 else 0) ||| (if v then 0x200 else 0) ||| (if an then 0x400 else 0)
    ||| (if bn then 0x800 else 0)

/-- The descriptor of a command with one buffer or none; the words of `B` are written as 0 (R110). -/
def desc1 (hdr : Word) (a : Buf) (apos cnt val : Word) : Desc :=
  ⟨hdr, a.base, a.len, apos, 0, 0, 0, cnt, val⟩

/-- The descriptor of a two-buffer command. -/
def desc2 (hdr : Word) (a : Buf) (apos : Word) (b : Buf) (bpos cnt : Word) : Desc :=
  ⟨hdr, a.base, a.len, apos, b.base, b.len, bpos, cnt, 0⟩

/-- The words of an absent buffer are written as 0 (R110). -/
def bufOrZero : Option Buf → Buf
  | none => ⟨0, 0⟩
  | some a => a

/-- The encoder: the nine words of a command in the assembler's form (R101, R104, R110), every word the command
ignores written as 0 (log entry 12). -/
def encode : Instr → Desc
  | .plen cnt => desc1 (header 0x01 false false false false) ⟨0, 0⟩ 0 cnt 0
  | .ulen cnt => desc1 (header 0x02 false false false false) ⟨0, 0⟩ 0 cnt 0
  | .getbit a apos => desc1 (header 0x03 false false false false) a apos 0 0
  | .setbit ns v a apos => desc1 (header 0x04 ns v false false) a apos 0 0
  | .getbits a apos cnt => desc1 (header 0x05 false false false false) a apos cnt 0
  | .setbits ns a apos cnt val => desc1 (header 0x06 ns false false false) a apos cnt val
  | .copy ns a apos b bpos cnt => desc2 (header 0x07 ns false false false) a apos b bpos cnt
  | .notb ns a apos cnt => desc1 (header 0x08 ns false false false) a apos cnt 0
  | .andb ns a apos b bpos cnt => desc2 (header 0x09 ns false false false) a apos b bpos cnt
  | .orb ns a apos b bpos cnt => desc2 (header 0x0A ns false false false) a apos b bpos cnt
  | .xorb ns a apos b bpos cnt => desc2 (header 0x0B ns false false false) a apos b bpos cnt
  | .andnot ns a apos b bpos cnt => desc2 (header 0x0C ns false false false) a apos b bpos cnt
  | .ornot ns a apos b bpos cnt => desc2 (header 0x0D ns false false false) a apos b bpos cnt
  | .fill ns v a apos cnt => desc1 (header 0x0E ns v false false) a apos cnt 0
  | .iszero a apos cnt => desc1 (header 0x0F false false false false) a apos cnt 0
  | .rev ns a apos b bpos cnt => desc2 (header 0x10 ns false false false) a apos b bpos cnt
  | .indexof v a apos cnt => desc1 (header 0x11 false v false false) a apos cnt 0
  | .lastindexof v a apos cnt => desc1 (header 0x12 false v false false) a apos cnt 0
  | .card a apos cnt => desc1 (header 0x13 false false false false) a apos cnt 0
  | .eqb a apos b bpos cnt =>
    desc2 (header 0x14 false false a.isNone b.isNone) (bufOrZero a) apos (bufOrZero b) bpos cnt

/-- A descriptor from one number, bit 0 the least-significant bit of `W0` and each later word's bits counting on from
it (the numbering of the opcode table). -/
def Desc.ofNat (n : Nat) : Desc :=
  let w (k : Nat) : Word := BitVec.ofNat 64 (n >>> (64 * k))
  ⟨w 0, w 1, w 2, w 3, w 4, w 5, w 6, w 7, w 8⟩

/-- The instruction the decoder reads from a table word of `nbits` bits; every bit above them is 0. The nine words are
handed to the command port whole (R100), so there is no order of bytes to lay them out in. -/
def decodeTableWord (nbits w : Nat) : Option Instr :=
  match decode (Desc.ofNat (w % 2 ^ nbits)) with
  | .ok i => some i
  | .error _ => none

end Sys2Proof
end

