-- ==== Sys2Proof/Machine/Events.lean ====
section
/-! DEFINITION. The life of a command step by step (R140): submission, start, its memory events one at a time (R69 to
R76), completion; interference between agents (R78, R79); the host's accesses (R84) and reset (R350, R351). -/

namespace Sys2Proof.Machine

/-! ## Plans of decoded commands -/

/-- The plan of a command: the check sequence and the work, as its meaning has it. -/
def planOf (i : Instr) (memWords : Nat) (m : Memory) : Plan :=
  match i with
  | .plen cnt => planPlen cnt
  | .ulen cnt => planUlen cnt
  | .getbit a apos => planGetbit a apos memWords m
  | .setbit ns v a apos => planSetbit ns v a apos memWords
  | .getbits a apos cnt => planGetbits a apos cnt memWords m
  | .setbits ns a apos cnt val => planSetbits ns a apos cnt val memWords
  | .copy ns a apos b bpos cnt => planCopy ns a apos b bpos cnt memWords m
  | .notb ns a apos cnt => planNot ns a apos cnt memWords m
  | .andb ns a apos b bpos cnt => planAnd ns a apos b bpos cnt memWords m
  | .orb ns a apos b bpos cnt => planOr ns a apos b bpos cnt memWords m
  | .xorb ns a apos b bpos cnt => planXor ns a apos b bpos cnt memWords m
  | .andnot ns a apos b bpos cnt => planAndnot ns a apos b bpos cnt memWords m
  | .ornot ns a apos b bpos cnt => planOrnot ns a apos b bpos cnt memWords m
  | .fill ns v a apos cnt => planFill ns v a apos cnt memWords m
  | .iszero a apos cnt => planIszero a apos cnt memWords m
  | .rev ns a apos b bpos cnt => planRev ns a apos b bpos cnt memWords m
  | .indexof v a apos cnt => planIndexof v a apos cnt memWords m
  | .lastindexof v a apos cnt => planLastindexof v a apos cnt memWords m
  | .card a apos cnt => planCard a apos cnt memWords m
  | .eqb a apos b bpos cnt => planEq a apos b bpos cnt memWords m

/-- The plan of the descriptor in `CUR`: one that selects no row is the error `Illegal` (R106, R107). -/
def planDesc (d : Desc) (memWords : Nat) (m : Memory) : Plan :=
  match decode d with
  | .ok i => planOf i memWords m
  | .error _ => .fail .illegal

/-! ## Interference (R78, R79) -/

/-- The bits of the word at address `addr` that lie in a range of a buffer at `base`. -/
def rangeBits (base pos n addr : Nat) : Word := if base ≤ addr then wordMask pos n (addr - base) else 0

/-- The bits of the word at `addr` that lie in a range, when the word is partial: those a partial-word update depends
on (R73, R78). -/
def partialBits (base pos n addr : Nat) : Word :=
  if rangeBits base pos n addr = allOnes then 0 else rangeBits base pos n addr

/-- The bits of a scalar transfer that lie inside the buffer (R200, R201): those before position `64 * ALEN`. -/
def clip (a : Buf) (pos n : Nat) : Nat := min n (64 * a.len.toNat - pos)

/-- The bits of the word at `addr` whose change by another agent interferes with a command (R78): its source range, its
whole destination range when it works in place, and the destination bits of its partial words. -/
def sensitiveBits (i : Instr) (addr : Nat) : Word :=
  match i with
  | .plen _ => 0
  | .ulen _ => 0
  | .getbit a apos => rangeBits a.base.toNat apos.toNat 1 addr
  | .setbit _ _ a apos => partialBits a.base.toNat apos.toNat 1 addr
  | .getbits a apos cnt => rangeBits a.base.toNat apos.toNat (clip a apos.toNat cnt.toNat) addr
  | .setbits _ a apos cnt _ => partialBits a.base.toNat apos.toNat (clip a apos.toNat cnt.toNat) addr
  | .copy _ a apos b bpos cnt =>
    partialBits a.base.toNat apos.toNat cnt.toNat addr ||| rangeBits b.base.toNat bpos.toNat cnt.toNat addr
  | .notb _ a apos cnt => rangeBits a.base.toNat apos.toNat cnt.toNat addr
  | .andb _ a apos b bpos cnt =>
    rangeBits a.base.toNat apos.toNat cnt.toNat addr ||| rangeBits b.base.toNat bpos.toNat cnt.toNat addr
  | .orb _ a apos b bpos cnt =>
    rangeBits a.base.toNat apos.toNat cnt.toNat addr ||| rangeBits b.base.toNat bpos.toNat cnt.toNat addr
  | .xorb _ a apos b bpos cnt =>
    rangeBits a.base.toNat apos.toNat cnt.toNat addr ||| rangeBits b.base.toNat bpos.toNat cnt.toNat addr
  | .andnot _ a apos b bpos cnt =>
    rangeBits a.base.toNat apos.toNat cnt.toNat addr ||| rangeBits b.base.toNat bpos.toNat cnt.toNat addr
  | .ornot _ a apos b bpos cnt =>
    rangeBits a.base.toNat apos.toNat cnt.toNat addr ||| rangeBits b.base.toNat bpos.toNat cnt.toNat addr
  | .fill _ _ a apos cnt => partialBits a.base.toNat apos.toNat cnt.toNat addr
  | .iszero a apos cnt => rangeBits a.base.toNat apos.toNat cnt.toNat addr
  | .rev _ a apos b bpos cnt =>
    partialBits a.base.toNat apos.toNat cnt.toNat addr ||| rangeBits b.base.toNat bpos.toNat cnt.toNat addr
  | .indexof _ a apos cnt => rangeBits a.base.toNat apos.toNat (cnt.toNat - apos.toNat) addr
  | .lastindexof _ a apos cnt => rangeBits a.base.toNat apos.toNat (cnt.toNat - apos.toNat) addr
  | .card a apos cnt => rangeBits a.base.toNat apos.toNat (cnt.toNat - apos.toNat) addr
  | .eqb (some a) apos (some b) bpos cnt =>
    rangeBits a.base.toNat apos.toNat cnt.toNat addr ||| rangeBits b.base.toNat bpos.toNat cnt.toNat addr
  | .eqb (some _) _ none _ _ => 0
  | .eqb none _ (some _) _ _ => 0
  | .eqb none _ none _ _ => 0

/-- The bits of the word at `addr` that the command in `CUR` is sensitive to. A command that ends in an error or in an
early success makes no memory access (R141, R144, R322), so nothing interferes with it (DEDUCED, log entry 4). -/
def watchedBits (d : Desc) (memWords : Nat) (m : Memory) (addr : Nat) : Word :=
  match decode d with
  | .error _ => 0
  | .ok i =>
    match planOf i memWords m with
    | .work _ => sensitiveBits i addr
    | .early _ => 0
    | .fail _ => 0

/-- Can another agent interfere with the command in `CUR` at all: is there a bit it is sensitive to? If there is, there is
one in the first word of its `A` range, in the last one, or in the first of its `B` range. -/
def canInterfere (d : Desc) (memWords : Nat) (m : Memory) : Bool :=
  [d.bufA.base.toNat + d.apos.toNat / 64, d.bufA.base.toNat + (d.apos.toNat + d.cnt.toNat - 1) / 64,
    d.bufB.base.toNat + d.bpos.toNat / 64].any (fun a => watchedBits d memWords m a != 0)

/-- Mark a busy unit as raced when memory has gone from `m` to `m'` in a bit its command is sensitive to (R78, R79;
DEDUCED, log entry 10). -/
def UnitState.notice (memWords : Nat) (m m' : Memory) (x : UnitState) : UnitState :=
  if x.busy && m.differsUnder m' (watchedBits x.cur memWords m) then { x with raced := true } else x

/-- Every unit but `who` notices what `who` did to memory, which held `m` before (R79). `who` is none for the host and
the other bus masters. -/
def State.noticeAll (s : State) (who : Option Nat) (m : Memory) : State :=
  { s with units := s.units.mapIdx (fun j x => if who = some j then x else x.notice s.memWords m s.mem) }

/-! ## The turns -/

/-- Submission (R140): enabled only when the unit is idle and the host has a descriptor for it; otherwise the host
waits and nothing is lost, overwritten or queued in the unit. -/
def submitTurn (s : State) (u : Nat) (x : UnitState) : State :=
  match x.busy, x.offered with
  | true, _ => s
  | false, [] => s
  | false, d :: ds => s.setUnit u { x.accept d with offered := ds }

/-- Decoding and the checks (R140, R141): enabled when a submitted command has not begun. The plan fixed here holds the
values of the command's own reads: those of a command nobody interferes with (R77, R78; DEDUCED, log entry 9). An
interference is foretold only of a command that can have one (log entry 18). -/
def startTurn (s : State) (u : Nat) (foretold : Bool) (x : UnitState) : State :=
  match x.busy, x.job with
  | false, _ => s
  | true, some _ => s
  | true, none =>
    let f := foretold && canInterfere x.cur s.memWords s.mem
    match planDesc x.cur s.memWords s.mem with
    | .fail e => s.setUnit u { x with job := some ⟨.fail e, [], .between, f⟩ }
    | .early r => s.setUnit u { x with job := some ⟨.early r, [], .between, f⟩ }
    | .work w => s.setUnit u { x with job := some ⟨.work w, w.todo.map .waiting, .between, f⟩ }

/-- The running command's values are any value (R79): another agent has interfered with it, or is going to. -/
def UnitState.anyValue (x : UnitState) : Bool :=
  match x.job with
  | none => x.raced
  | some j => x.raced || j.foretold

/-- The value a command delivers: its own, or any value when another agent interferes with it (R79). -/
def updValue (s : State) (x : UnitState) (v : Word) : Word := if x.anyValue then Config.freeWord s.freeCtr else v

/-- The counter of free values after a value has been delivered. -/
def nextCtr (s : State) (x : UnitState) : Nat := if x.anyValue then s.freeCtr + 1 else s.freeCtr

/-- The event `W(a, v)` of unit `u` (R69): its progress goes on as `job`. -/
def writeEvent (s : State) (u : Nat) (x : UnitState) (job : Job) (addr : Nat) (v : Word) : State :=
  { s.setUnit u { x with job := some job } with
    mem := s.mem.writeWord addr v
    freeCtr := nextCtr s x }

/-- One memory event of a unit's work (R69 to R76). Outside a locked update it is the next event of the `k`-th update not
yet written, so that the unit's events come in any order (R70): a full word is one plain `W` (R75); a partial word with
`NS = 1` is an `R` and, at any later event, its `W` (R74); with `NS = 0` it begins with `ACQ`, which waits while the entry
is not free (R72), and then `R`, `W` and `REL` follow with nothing between (R73). -/
def workEvent (s : State) (u k : Nat) (x : UnitState) (w : Work) (j : Job) : State :=
  match j.flight with
  | .between =>
    match j.todo[k]? with
    | none => s
    | some (.fetched d old) =>
      writeEvent s u x { j with todo := j.todo.eraseIdx k } d.addr (merge old d.mask (updValue s x d.val))
    | some (.waiting d) =>
      if d.full then writeEvent s u x { j with todo := j.todo.eraseIdx k } d.addr (updValue s x d.val)
      else if w.ns then
        s.setUnit u { x with job := some { j with todo := j.todo.set k (.fetched d (s.mem.readWord d.addr)) } }
      else
        match s.lock.holder w.base with
        | some _ => s
        | none =>
          { s.setUnit u { x with job := some { j with todo := j.todo.eraseIdx k, flight := .acquired d } } with
            lock := s.lock.acquire w.base u }
  | .acquired d => s.setUnit u { x with job := some { j with flight := .fetched d (s.mem.readWord d.addr) } }
  | .fetched d old =>
    writeEvent s u x { j with flight := .written } d.addr (merge old d.mask (updValue s x d.val))
  | .written =>
    { s.setUnit u { x with job := some { j with flight := .between } } with lock := s.lock.release w.base }

/-- A memory event of unit `u`: enabled when its command has begun work. -/
def eventTurn (s : State) (u k : Nat) (x : UnitState) : State :=
  match x.job with
  | none => s
  | some j =>
    match j.plan with
    | .fail _ => s
    | .early _ => s
    | .work w => workEvent s u k x w j

/-- The update of which something or nothing is done. -/
def Pending.upd : Pending → Upd
  | .waiting d => d
  | .fetched d _ => d

/-- The updates a running command still has to write. -/
def Job.pending (j : Job) : List Upd :=
  match j.flight with
  | .between => j.todo.map Pending.upd
  | .acquired d => d :: j.todo.map Pending.upd
  | .fetched d _ => d :: j.todo.map Pending.upd
  | .written => j.todo.map Pending.upd

/-- The schedule owes this unit's running command the interference it foretold (R79; log entry 18). -/
def UnitState.owed (x : UnitState) : Bool :=
  match x.job with
  | none => false
  | some j => j.foretold && !x.raced

/-- Completion (R148, R149): enabled when every update is done, no lock is held and no interference that was foretold is
still to come. It touches the unit's own registers alone (R69). The `RES` of a raced command is any value (R79). -/
def finishTurn (s : State) (u : Nat) (x : UnitState) : State :=
  match x.job with
  | none => s
  | some j =>
    if j.todo = [] ∧ j.flight = .between ∧ x.owed = false then
      match j.plan with
      | .fail e => s.setUnit u (x.raise e)
      | .early r => s.setUnit u (x.done false r)
      | .work w =>
        { s.setUnit u (x.done w.ovl (updValue s x w.res)) with freeCtr := nextCtr s x }
    else s

/-- Reset, as a unit sees it (R42, R350, R351): `STAT = 0`, `RES = 0`, the running command abandoned with whatever it has
written so far. The host's own waiting descriptors are no state of the unit (log entries 14 and 15). -/
def UnitState.clear (x : UnitState) : UnitState := { UnitState.reset with offered := x.offered }

/-- The reset input, common to all units (R350): every unit is cleared, every lock entry becomes free, memory is not
written. A schedule that still owes a unit the interference it foretold contradicts itself here (log entry 18). -/
def resetTurn (s : State) : Result :=
  match s.units.findIdx? UnitState.owed with
  | some u => .fault (.foretoldNotCome u)
  | none => .next { s with lock := [], units := s.units.map UnitState.clear }

/-- A turn of unit `u`, which must exist. -/
def withUnit (s : State) (u : Nat) (f : UnitState → State) : Result :=
  match s.units[u]? with
  | none => .fault (.noSuchUnit u)
  | some x => .next (f x)

/-- A write of the host or another bus master (R84): one word, one event; it takes no part in `LOCK`. -/
def hostWriteTurn (s : State) (addr : Nat) (v : Word) : Result :=
  if addr < s.memWords then .next ({ s with mem := s.mem.writeWord addr v }.noticeAll none s.mem)
  else .fault (.outsideMemory addr)

/-- After a step of unit `u`, the other units notice what it did to memory. -/
def noticed (u : Nat) (m : Memory) : Result → Result
  | .next t => .next (t.noticeAll (some u) m)
  | .fault f => .fault f
  | .refused r => .refused r

end Sys2Proof.Machine
end

