-- ==== Sys2Proof/Machine/Step.lean ====
section
/-! DEFINITION. One step of the system: the agent that the schedule names moves (R71). -/

namespace Sys2Proof.Machine

/-- Unit `u` carries out the whole of its submitted command (R78, R155): it decodes `CUR`, and `exec` is the command's
meaning; a descriptor that selects no row completes with `Illegal` (R106, R107). Enabled when a submitted command has not
begun. -/
def execTurn (s : State) (u : Nat) : Result :=
  match s.units[u]? with
  | none => .fault (.noSuchUnit u)
  | some x =>
    match x.busy, x.job with
    | false, _ => .next s
    | true, some _ => .next s
    | true, none =>
      match decode x.cur with
      | .error _ => .next (s.setUnit u (x.raise .illegal))
      | .ok i => noticed u s.mem (exec i { s with active := u })

/-- The step of the agent a turn names. -/
def takeTurn (s : State) : Turn → Result
  | .submit u => withUnit s u (submitTurn s u)
  | .exec u => execTurn s u
  | .start u foretold => withUnit s u (startTurn s u foretold)
  | .event u k => noticed u s.mem (withUnit s u (eventTurn s u k))
  | .finish u => withUnit s u (finishTurn s u)
  | .hostWrite addr v => hostWriteTurn s addr v
  | .hostWriteStat u _ => withUnit s u (fun _ => s)
  | .hostWriteRes u _ => withUnit s u (fun _ => s)
  | .reset => resetTurn s

/-- One step: the first turn of the schedule is taken; when the schedule is at its end no agent moves (R331). -/
def step (s : State) : Host.Outcome State Fault Refusal :=
  match s.turns with
  | [] => .next s
  | t :: ts => takeTurn { s with turns := ts } t

/-- The state in which the very next step runs the descriptor with the given table word: it has been submitted to unit
`active`, and that unit's turn to carry it out comes first (log entry 11). -/
def State.withFetchWord (s : State) (nbits w : Nat) : State :=
  match s.units[s.active]? with
  | none => s
  | some x =>
    { s.setUnit s.active (x.accept (Desc.ofNat (w % 2 ^ nbits))) with turns := .exec s.active :: s.turns }

end Sys2Proof.Machine
end

