-- ==== Sys2Proof/WellFormed.lean ====
section
/-! DEFINITION. Well-formed commands: every operand has a legal value of its type (R6, R102). It is said here over the
syntax alone, independently of the check each command makes when it runs (R142). Every descriptor that decodes gives a
command, well-formed or not: an ill-formed one runs and completes with `InvalidArg`. -/

namespace Sys2Proof

/-- A legal value of the index type: 0 to 2^63 − 1; a value with bit 63 set is negative (R6). -/
def Word.isIndex (w : Word) : Bool := w.toNat < 2 ^ 63

/-- A buffer's length word is an index; its base is any word address (R62). -/
def Buf.wellFormed (a : Buf) : Bool := Word.isIndex a.len

/-- A buffer that may be absent: when it is, its words are not there to be checked (R142 (b)). -/
def optBufWellFormed : Option Buf → Bool
  | none => true
  | some a => a.wellFormed

/-- The two-buffer range commands have five index operands. -/
def twoBufWellFormed (a : Buf) (apos : Word) (b : Buf) (bpos cnt : Word) : Bool :=
  a.wellFormed && apos.isIndex && b.wellFormed && bpos.isIndex && cnt.isIndex

/-- The one-buffer range commands that hold a count have three index operands. -/
def oneBufWellFormed (a : Buf) (apos cnt : Word) : Bool :=
  a.wellFormed && apos.isIndex && cnt.isIndex

/-- The search and count commands hold an exclusive end that is not below the start (R142 (d)). -/
def endWellFormed (a : Buf) (apos cnt : Word) : Bool :=
  oneBufWellFormed a apos cnt && decide (apos.toNat ≤ cnt.toNat)

/-- Every used operand of the command is legal (R6, R102, R104): indices are not negative, a scalar transfer moves at
most `SCALAR_MAX` = 64 bits (R6), an end is not before its start. -/
def Instr.wellFormed : Instr → Bool
  | .plen cnt => cnt.isIndex
  | .ulen cnt => cnt.isIndex
  | .getbit a apos => a.wellFormed && apos.isIndex
  | .setbit _ _ a apos => a.wellFormed && apos.isIndex
  | .getbits a apos cnt => oneBufWellFormed a apos cnt && decide (cnt.toNat ≤ 64)
  | .setbits _ a apos cnt _ => oneBufWellFormed a apos cnt && decide (cnt.toNat ≤ 64)
  | .copy _ a apos b bpos cnt => twoBufWellFormed a apos b bpos cnt
  | .notb _ a apos cnt => oneBufWellFormed a apos cnt
  | .andb _ a apos b bpos cnt => twoBufWellFormed a apos b bpos cnt
  | .orb _ a apos b bpos cnt => twoBufWellFormed a apos b bpos cnt
  | .xorb _ a apos b bpos cnt => twoBufWellFormed a apos b bpos cnt
  | .andnot _ a apos b bpos cnt => twoBufWellFormed a apos b bpos cnt
  | .ornot _ a apos b bpos cnt => twoBufWellFormed a apos b bpos cnt
  | .fill _ _ a apos cnt => oneBufWellFormed a apos cnt
  | .iszero a apos cnt => oneBufWellFormed a apos cnt
  | .rev _ a apos b bpos cnt => twoBufWellFormed a apos b bpos cnt
  | .indexof _ a apos cnt => endWellFormed a apos cnt
  | .lastindexof _ a apos cnt => endWellFormed a apos cnt
  | .card a apos cnt => endWellFormed a apos cnt
  | .eqb a apos b bpos cnt =>
    optBufWellFormed a && apos.isIndex && optBufWellFormed b && bpos.isIndex && cnt.isIndex

end Sys2Proof
end

