-- ==== Sys2Proof/Safety.lean ====
section
/-! DEFINITION. The terms in which claims are made: when a command executes undisturbed, what it may change, and the
invariants of a safe run. -/

namespace Sys2Proof

/-! ## The opcode map's columns (R103), apart from its masks -/

/-- The `OPC` column of R103. -/
def Op.code : Op → Nat
  | .plen => 0x01
  | .ulen => 0x02
  | .getbit => 0x03
  | .setbit => 0x04
  | .getbits => 0x05
  | .setbits => 0x06
  | .copy => 0x07
  | .notb => 0x08
  | .andb => 0x09
  | .orb => 0x0A
  | .xorb => 0x0B
  | .andnot => 0x0C
  | .ornot => 0x0D
  | .fill => 0x0E
  | .iszero => 0x0F
  | .rev => 0x10
  | .indexof => 0x11
  | .lastindexof => 0x12
  | .card => 0x13
  | .eqb => 0x14

/-- The commands whose "flags allowed" column of R103 has `NS`: those that write (R101). -/
def Op.allowsNs : Op → Bool
  | .setbit | .setbits | .copy | .notb | .andb | .orb | .xorb | .andnot | .ornot | .fill | .rev => true
  | .plen | .ulen | .getbit | .getbits | .iszero | .indexof | .lastindexof | .card | .eqb => false

/-- The commands whose "flags allowed" column of R103 has `V`. -/
def Op.allowsV : Op → Bool
  | .setbit | .fill | .indexof | .lastindexof => true
  | .plen | .ulen | .getbit | .getbits | .setbits | .copy | .notb | .andb | .orb | .xorb | .andnot | .ornot | .iszero
  | .rev | .card | .eqb => false

/-- The command whose "flags allowed" column of R103 has `AN` and `BN`. -/
def Op.allowsAbsent : Op → Bool
  | .eqb => true
  | .plen | .ulen | .getbit | .setbit | .getbits | .setbits | .copy | .notb | .andb | .orb | .xorb | .andnot | .ornot
  | .fill | .iszero | .rev | .indexof | .lastindexof | .card => false

/-- A header is legal (R101, R103, R107): its opcode is one of the 20, its reserved bits are 0, and it sets only flags
its opcode allows. -/
def Desc.LegalHeader (d : Desc) : Prop :=
  d.hdr >>> 12 = 0 ∧ ∃ op : Op, d.opc = op.code ∧ (d.ns = true → op.allowsNs = true) ∧
    (d.v = true → op.allowsV = true) ∧ (d.an = true → op.allowsAbsent = true) ∧ (d.bn = true → op.allowsAbsent = true)

/-! ## Buffers -/

/-- The buffer's extent lies in memory (R62, R145). -/
def Buf.InMemory (a : Buf) (memWords : Nat) : Prop := a.base.toNat + a.len.toNat ≤ memWords

/-- The range lies in the buffer (R146). -/
def Buf.Holds (a : Buf) (pos n : Nat) : Prop := pos + n ≤ 64 * a.len.toNat

end Sys2Proof

namespace Sys2Proof.Machine

/-! ## Operands -/

/-- `extents_meet` (R147). -/
def ExtentsMeet (a b : Buf) : Prop :=
  0 < a.len.toNat ∧ 0 < b.len.toNat ∧ a.base.toNat < b.base.toNat + b.len.toNat ∧
    b.base.toNat < a.base.toNat + a.len.toNat

/-- `ranges_meet` (R147). -/
def RangesMeet (apos bpos n : Nat) : Prop := apos < bpos + n ∧ bpos < apos + n

/-- Bit `b` of the word at address `a` lies in bits `pos` to `pos + n − 1` of the buffer at `base` (R60). -/
def InRange (base pos n a b : Nat) : Prop := 64 * base + pos ≤ 64 * a + b ∧ 64 * a + b < 64 * base + pos + n

/-- `N`, the number of bits a command addresses (R143); none for `PLEN`, `ULEN`, and for `EQ` with an absent buffer,
which addresses none. -/
def bitCount : Instr → Option Nat
  | .plen _ => none
  | .ulen _ => none
  | .getbit _ _ => some 1
  | .setbit _ _ _ _ => some 1
  | .getbits _ _ cnt => some cnt.toNat
  | .setbits _ _ _ cnt _ => some cnt.toNat
  | .copy _ _ _ _ _ cnt => some cnt.toNat
  | .notb _ _ _ cnt => some cnt.toNat
  | .andb _ _ _ _ _ cnt => some cnt.toNat
  | .orb _ _ _ _ _ cnt => some cnt.toNat
  | .xorb _ _ _ _ _ cnt => some cnt.toNat
  | .andnot _ _ _ _ _ cnt => some cnt.toNat
  | .ornot _ _ _ _ _ cnt => some cnt.toNat
  | .fill _ _ _ _ cnt => some cnt.toNat
  | .iszero _ _ cnt => some cnt.toNat
  | .rev _ _ _ _ _ cnt => some cnt.toNat
  | .indexof _ _ apos cnt => some (cnt.toNat - apos.toNat)
  | .lastindexof _ _ apos cnt => some (cnt.toNat - apos.toNat)
  | .card _ apos cnt => some (cnt.toNat - apos.toNat)
  | .eqb (some _) _ (some _) _ cnt => some cnt.toNat
  | .eqb (some _) _ none _ _ => none
  | .eqb none _ (some _) _ _ => none
  | .eqb none _ none _ _ => none

/-- The used buffers of a command with their positions (R104, R143); none for `EQ` with an absent buffer. -/
def bufPositions : Instr → List (Buf × Nat)
  | .plen _ => []
  | .ulen _ => []
  | .getbit a apos => [(a, apos.toNat)]
  | .setbit _ _ a apos => [(a, apos.toNat)]
  | .getbits a apos _ => [(a, apos.toNat)]
  | .setbits _ a apos _ _ => [(a, apos.toNat)]
  | .copy _ a apos b bpos _ => [(a, apos.toNat), (b, bpos.toNat)]
  | .notb _ a apos _ => [(a, apos.toNat)]
  | .andb _ a apos b bpos _ => [(a, apos.toNat), (b, bpos.toNat)]
  | .orb _ a apos b bpos _ => [(a, apos.toNat), (b, bpos.toNat)]
  | .xorb _ a apos b bpos _ => [(a, apos.toNat), (b, bpos.toNat)]
  | .andnot _ a apos b bpos _ => [(a, apos.toNat), (b, bpos.toNat)]
  | .ornot _ a apos b bpos _ => [(a, apos.toNat), (b, bpos.toNat)]
  | .fill _ _ a apos _ => [(a, apos.toNat)]
  | .iszero a apos _ => [(a, apos.toNat)]
  | .rev _ a apos b bpos _ => [(a, apos.toNat), (b, bpos.toNat)]
  | .indexof _ a apos _ => [(a, apos.toNat)]
  | .lastindexof _ a apos _ => [(a, apos.toNat)]
  | .card a apos _ => [(a, apos.toNat)]
  | .eqb (some a) apos (some b) bpos _ => [(a, apos.toNat), (b, bpos.toNat)]
  | .eqb (some _) _ none _ _ => []
  | .eqb none _ (some _) _ _ => []
  | .eqb none _ none _ _ => []

/-- The two commands that tolerate a range past the end of the buffer (R146). -/
def toleratesOverrun : Instr → Bool
  | .getbits _ _ _ => true
  | .setbits _ _ _ _ _ => true
  | _ => false

/-- `EQ` of a buffer with itself at one position, which completes before the later checks (R141 step 5). -/
def sameBufferAndPosition : Instr → Prop
  | .eqb (some a) apos (some b) bpos _ => a.base = b.base ∧ apos = bpos
  | _ => False

/-- Two differently based buffers that share a memory word (R147 (a)). -/
def BuffersClash (a b : Buf) : Prop := a.base ≠ b.base ∧ ExtentsMeet a b

/-- The same buffer, with ranges that overlap without coinciding (R147 (c)). -/
def RangesClash (a : Buf) (apos : Word) (b : Buf) (bpos cnt : Word) : Prop :=
  a.base = b.base ∧ apos ≠ bpos ∧ RangesMeet apos.toNat bpos.toNat cnt.toNat

/-- The operands alias in a way that R147 forbids: (a) for every mutating two-buffer command, (b) for `REV`, (c) for the
five binary logical commands, (d) nothing else. -/
def ForbiddenAlias : Instr → Prop
  | .copy _ a _ b _ _ => BuffersClash a b
  | .andb _ a apos b bpos cnt => BuffersClash a b ∨ RangesClash a apos b bpos cnt
  | .orb _ a apos b bpos cnt => BuffersClash a b ∨ RangesClash a apos b bpos cnt
  | .xorb _ a apos b bpos cnt => BuffersClash a b ∨ RangesClash a apos b bpos cnt
  | .andnot _ a apos b bpos cnt => BuffersClash a b ∨ RangesClash a apos b bpos cnt
  | .ornot _ a apos b bpos cnt => BuffersClash a b ∨ RangesClash a apos b bpos cnt
  | .rev _ a _ b _ _ => BuffersClash a b ∨ a.base = b.base
  | _ => False

/-- Two buffers that are different and share no memory word: a scratch buffer (R224, R272). -/
def Apart (a b : Buf) : Prop := a.base ≠ b.base ∧ ¬ ExtentsMeet a b

/-- The result of an empty range (R144). -/
def emptyRangeResult : Instr → Word
  | .iszero _ _ _ => 1
  | .indexof _ _ _ _ => 0xFFFFFFFFFFFFFFFF
  | .lastindexof _ _ _ _ => 0xFFFFFFFFFFFFFFFF
  | .eqb _ _ _ _ _ => 1
  | _ => 0

/-- The destination range of a command that writes: base word address, first bit position, number of bits (R143, R151;
for `SETBITS` the bits inside the buffer, R201). None for a read-only command. -/
def destRange : Instr → Option (Nat × Nat × Nat)
  | .setbit _ _ a apos => some (a.base.toNat, apos.toNat, 1)
  | .setbits _ a apos cnt _ => some (a.base.toNat, apos.toNat, min cnt.toNat (64 * a.len.toNat - apos.toNat))
  | .copy _ a apos _ _ cnt => some (a.base.toNat, apos.toNat, cnt.toNat)
  | .notb _ a apos cnt => some (a.base.toNat, apos.toNat, cnt.toNat)
  | .andb _ a apos _ _ cnt => some (a.base.toNat, apos.toNat, cnt.toNat)
  | .orb _ a apos _ _ cnt => some (a.base.toNat, apos.toNat, cnt.toNat)
  | .xorb _ a apos _ _ cnt => some (a.base.toNat, apos.toNat, cnt.toNat)
  | .andnot _ a apos _ _ cnt => some (a.base.toNat, apos.toNat, cnt.toNat)
  | .ornot _ a apos _ _ cnt => some (a.base.toNat, apos.toNat, cnt.toNat)
  | .fill _ _ a apos cnt => some (a.base.toNat, apos.toNat, cnt.toNat)
  | .rev _ a apos _ _ cnt => some (a.base.toNat, apos.toNat, cnt.toNat)
  | .plen _ => none
  | .ulen _ => none
  | .getbit _ _ => none
  | .getbits _ _ _ => none
  | .iszero _ _ _ => none
  | .indexof _ _ _ _ => none
  | .lastindexof _ _ _ _ => none
  | .card _ _ _ => none
  | .eqb _ _ _ _ _ => none

/-- The source ranges of a command that reaches memory (R77, R143): base word address, first bit position, number of bits
(for `GETBITS` the bits inside the buffer, R200). The destination range of a command that works in place is not among
them. -/
def sourceRanges : Instr → List (Nat × Nat × Nat)
  | .plen _ => []
  | .ulen _ => []
  | .getbit a apos => [(a.base.toNat, apos.toNat, 1)]
  | .setbit _ _ _ _ => []
  | .getbits a apos cnt => [(a.base.toNat, apos.toNat, min cnt.toNat (64 * a.len.toNat - apos.toNat))]
  | .setbits _ _ _ _ _ => []
  | .copy _ _ _ b bpos cnt => [(b.base.toNat, bpos.toNat, cnt.toNat)]
  | .notb _ _ _ _ => []
  | .andb _ _ _ b bpos cnt => [(b.base.toNat, bpos.toNat, cnt.toNat)]
  | .orb _ _ _ b bpos cnt => [(b.base.toNat, bpos.toNat, cnt.toNat)]
  | .xorb _ _ _ b bpos cnt => [(b.base.toNat, bpos.toNat, cnt.toNat)]
  | .andnot _ _ _ b bpos cnt => [(b.base.toNat, bpos.toNat, cnt.toNat)]
  | .ornot _ _ _ b bpos cnt => [(b.base.toNat, bpos.toNat, cnt.toNat)]
  | .fill _ _ _ _ _ => []
  | .iszero a apos cnt => [(a.base.toNat, apos.toNat, cnt.toNat)]
  | .rev _ _ _ b bpos cnt => [(b.base.toNat, bpos.toNat, cnt.toNat)]
  | .indexof _ a apos cnt => [(a.base.toNat, apos.toNat, cnt.toNat - apos.toNat)]
  | .lastindexof _ a apos cnt => [(a.base.toNat, apos.toNat, cnt.toNat - apos.toNat)]
  | .card a apos cnt => [(a.base.toNat, apos.toNat, cnt.toNat - apos.toNat)]
  | .eqb (some a) apos (some b) bpos cnt =>
    [(a.base.toNat, apos.toNat, cnt.toNat), (b.base.toNat, bpos.toNat, cnt.toNat)]
  | .eqb (some _) _ none _ _ => []
  | .eqb none _ (some _) _ _ => []
  | .eqb none _ none _ _ => []

/-- The commands whose new destination bits depend on the old ones (R75, R240, R241). -/
def worksInPlace : Instr → Bool
  | .notb _ _ _ _ => true
  | .andb _ _ _ _ _ _ => true
  | .orb _ _ _ _ _ _ => true
  | .xorb _ _ _ _ _ _ => true
  | .andnot _ _ _ _ _ _ => true
  | .ornot _ _ _ _ _ _ => true
  | _ => false

/-- Bit `b` of word `a` lies in a source range of the command. -/
def InSource (i : Instr) (a b : Nat) : Prop := ∃ r ∈ sourceRanges i, InRange r.1 r.2.1 r.2.2 a b

/-- Bit `b` of word `a` lies in the destination range of the command. -/
def InDest (i : Instr) (a b : Nat) : Prop := ∃ base pos n, destRange i = some (base, pos, n) ∧ InRange base pos n a b

/-- A change of bit `b` of word `a` by another agent interferes with the command (R78): it is a source bit, or a
destination bit of a command that works in place or of a word that the destination range covers only in part. -/
def Depends (i : Instr) (a b : Nat) : Prop :=
  InSource i a b ∨ (InDest i a b ∧ (worksInPlace i = true ∨ ∃ c, c < 64 ∧ ¬ InDest i a c))

/-- Two descriptors agree on the operand words R104 marks for the command. -/
def SameOperands (d d' : Desc) : Instr → Prop
  | .plen _ => d.cnt = d'.cnt
  | .ulen _ => d.cnt = d'.cnt
  | .getbit _ _ => d.bufA = d'.bufA ∧ d.apos = d'.apos
  | .setbit _ _ _ _ => d.bufA = d'.bufA ∧ d.apos = d'.apos
  | .getbits _ _ _ => d.bufA = d'.bufA ∧ d.apos = d'.apos ∧ d.cnt = d'.cnt
  | .setbits _ _ _ _ _ => d.bufA = d'.bufA ∧ d.apos = d'.apos ∧ d.cnt = d'.cnt ∧ d.val = d'.val
  | .notb _ _ _ _ => d.bufA = d'.bufA ∧ d.apos = d'.apos ∧ d.cnt = d'.cnt
  | .fill _ _ _ _ _ => d.bufA = d'.bufA ∧ d.apos = d'.apos ∧ d.cnt = d'.cnt
  | .iszero _ _ _ => d.bufA = d'.bufA ∧ d.apos = d'.apos ∧ d.cnt = d'.cnt
  | .indexof _ _ _ _ => d.bufA = d'.bufA ∧ d.apos = d'.apos ∧ d.cnt = d'.cnt
  | .lastindexof _ _ _ _ => d.bufA = d'.bufA ∧ d.apos = d'.apos ∧ d.cnt = d'.cnt
  | .card _ _ _ => d.bufA = d'.bufA ∧ d.apos = d'.apos ∧ d.cnt = d'.cnt
  | .copy _ _ _ _ _ _ => d.bufA = d'.bufA ∧ d.apos = d'.apos ∧ d.bufB = d'.bufB ∧ d.bpos = d'.bpos ∧ d.cnt = d'.cnt
  | .andb _ _ _ _ _ _ => d.bufA = d'.bufA ∧ d.apos = d'.apos ∧ d.bufB = d'.bufB ∧ d.bpos = d'.bpos ∧ d.cnt = d'.cnt
  | .orb _ _ _ _ _ _ => d.bufA = d'.bufA ∧ d.apos = d'.apos ∧ d.bufB = d'.bufB ∧ d.bpos = d'.bpos ∧ d.cnt = d'.cnt
  | .xorb _ _ _ _ _ _ => d.bufA = d'.bufA ∧ d.apos = d'.apos ∧ d.bufB = d'.bufB ∧ d.bpos = d'.bpos ∧ d.cnt = d'.cnt
  | .andnot _ _ _ _ _ _ => d.bufA = d'.bufA ∧ d.apos = d'.apos ∧ d.bufB = d'.bufB ∧ d.bpos = d'.bpos ∧ d.cnt = d'.cnt
  | .ornot _ _ _ _ _ _ => d.bufA = d'.bufA ∧ d.apos = d'.apos ∧ d.bufB = d'.bufB ∧ d.bpos = d'.bpos ∧ d.cnt = d'.cnt
  | .rev _ _ _ _ _ _ => d.bufA = d'.bufA ∧ d.apos = d'.apos ∧ d.bufB = d'.bufB ∧ d.bpos = d'.bpos ∧ d.cnt = d'.cnt
  | .eqb a _ b _ _ =>
    (a ≠ none → d.bufA = d'.bufA) ∧ d.apos = d'.apos ∧ (b ≠ none → d.bufB = d'.bufB) ∧ d.bpos = d'.bpos ∧ d.cnt = d'.cnt

/-! ## Undisturbed execution -/

/-- The acting unit is `x`, and no other agent has interfered with its command (R78). -/
def State.Quiet (s : State) (x : UnitState) : Prop := s.units[s.active]? = some x ∧ x.raced = false

/-- A command whose destination is bits `pos` to `pos + n − 1` of the buffer at `base` need not wait for the buffer's
lock: it is of the lock-free form (R74), or the entry is free (R72), or it updates no partial word (R75). -/
def State.LockOpen (s : State) (ns : Bool) (base : Word) (pos n : Nat) : Prop :=
  ns = true ∨ s.lock.holder base.toNat = none ∨ n = 0 ∨ (pos % 64 = 0 ∧ n % 64 = 0)

/-- What a command that writes a range leaves (R149, R155): unit `x` has completed with `RES = 0` and the given overlap
output; bit `k` of the destination range is `bit k`; every other bit of memory, and everything else in the system, is as
before. -/
def State.Writes (s t : State) (x : UnitState) (ovl : Bool) (base pos n : Nat) (bit : Nat → Bool) : Prop :=
  t = { s.setUnit s.active (x.done ovl 0) with mem := t.mem } ∧
  (∀ k, k < n → t.mem.bufBit base (pos + k) = bit k) ∧
  ∀ a b, b < 64 → ¬ InRange base pos n a b → t.mem.bit a b = s.mem.bit a b

/-- `n` steps one after the other. -/
def run : Nat → State → Result
  | 0, s => .next s
  | n + 1, s =>
    match step s with
    | .next t => run n t
    | .fault f => .fault f
    | .refused r => .refused r

/-- The turn is a memory event of unit `u`. -/
def Turn.IsEventOf (u : Nat) : Turn → Prop
  | .event v _ => v = u
  | _ => False

/-! ## Invariants of a safe run -/

/-- Memory is in its canonical form. -/
def State.MemCanonical (s : State) : Prop := s.mem.wf = true

/-- Every `STAT` has its reserved bits 0 and a code of 0 to 7 (R34, R310). -/
def State.StatsLegal (s : State) : Prop := ∀ x ∈ s.units, statLegal x.stat = true

/-- A running command's progress is its own (R40, R76, R141): its plan is what the checks of `CUR` gave on the memory at
its start, and what it still has to write are updates of that plan, each word once. An interference is foretold only of a
command that depends on a bit of memory, which the host may change at any time (R84): the model's form, log entry 18. -/
def UnitState.OnPlan (x : UnitState) (memWords : Nat) (j : Job) : Prop :=
  (∃ m, j.plan = planDesc x.cur memWords m) ∧
  (∀ w, j.plan = .work w → (∀ d ∈ j.pending, d ∈ w.todo) ∧ (j.pending.map Upd.addr).Nodup) ∧
  (j.foretold = true → ∃ i a b, decode x.cur = .ok i ∧ a < memWords ∧ b < 64 ∧ Depends i a b)

/-- Nothing is listed in memory outside the words that exist, and every running command keeps to its plan, whose updates
all lie in those words (R31, R76, R145). -/
def State.InBounds (s : State) : Prop :=
  (∀ c ∈ s.mem, c.1 < 8 * s.memWords) ∧
  ∀ x ∈ s.units, ∀ j, x.job = some j → x.OnPlan s.memWords j ∧
    ∀ w, j.plan = .work w → ∀ d ∈ w.todo, d.addr < s.memWords

/-- The base whose lock entry a unit holds, by where it stands in its command (R73). -/
def UnitState.holds (x : UnitState) : Option Nat :=
  match x.job with
  | none => none
  | some ⟨.work w, _, .acquired _, _⟩ => some w.base
  | some ⟨.work w, _, .fetched _ _, _⟩ => some w.base
  | some ⟨.work w, _, .written, _⟩ => some w.base
  | some ⟨.work _, _, .between, _⟩ => none
  | some ⟨.fail _, _, _, _⟩ => none
  | some ⟨.early _, _, _, _⟩ => none

/-- A running command is where its own discipline allows: only work makes memory events, only the locked form takes the
lock, and only the lock-free form reads a partial word without it (R73, R74, R322). -/
def Job.Sound (j : Job) : Prop :=
  match j.plan with
  | .work w => (j.flight ≠ .between → w.ns = false) ∧ ∀ d old, .fetched d old ∈ j.todo → w.ns = true
  | .fail _ => j.todo = [] ∧ j.flight = .between
  | .early _ => j.todo = [] ∧ j.flight = .between

/-- The schedule has kept what it foretold: of no running command is an interference still to come (R79; log entry 18). -/
def State.NothingOwed (s : State) : Prop :=
  ∀ x ∈ s.units, ∀ j, x.job = some j → j.foretold = true → x.raced = true

/-- The lock table is sound (R32, R72, R73): it has at most one holder of each base, it says that unit `u` holds `b`
exactly when `u` stands inside a locked update of a buffer based at `b` (so a unit holds at most one entry), and only
busy units have a command in progress. -/
def State.LocksSound (s : State) : Prop :=
  s.lock.wf = true ∧
  (∀ b u, s.lock.holder b = some u ↔ ∃ x, s.units[u]? = some x ∧ x.holds = some b) ∧
  ∀ x ∈ s.units, ∀ j, x.job = some j → x.busy = true ∧ j.Sound

/-- A turn names only what exists: a unit below `NUNITS` (R329), a word below `MEMWORDS` (R31). -/
def Turn.NamesExisting (memWords nUnits : Nat) : Turn → Prop
  | .submit u => u < nUnits
  | .exec u => u < nUnits
  | .start u _ => u < nUnits
  | .event u _ => u < nUnits
  | .finish u => u < nUnits
  | .hostWrite a _ => a < memWords
  | .hostWriteStat u _ => u < nUnits
  | .hostWriteRes u _ => u < nUnits
  | .reset => True

/-- The unit has read the word of update `d`, which was `old`, and has not written it yet (R73, R74). -/
def Job.HasRead (j : Job) (d : Upd) (old : Word) : Prop := .fetched d old ∈ j.todo ∨ j.flight = .fetched d old

/-- The turn is a step of unit `u`'s own command, not of the host and not a reset. -/
def Turn.IsOf (u : Nat) : Turn → Prop
  | .exec v => v = u
  | .start v _ => v = u
  | .event v _ => v = u
  | .finish v => v = u
  | _ => False

end Sys2Proof.Machine
end

