-- ==== Sys2Proof/Certificates/Slice0/Obligations.lean ====
section
/-! DEFINITION. The statements for the provers. -/

open Sys2Proof Sys2Proof.Machine

/-! ## Encoding (`30_encoding.md`) -/

/-- Decoding the nine words the encoder writes for a command gives the command back (R100, R101, R103, R104). It holds
for every command, well-formed or not. -/
def Obligations.DecodeInvertsEncode : Prop :=
  ∀ i : Instr, decode (encode i) = .ok i

/-- Encoding what a descriptor decodes to gives back its header word and every operand word the command uses (R102,
R104). -/
def Obligations.EncodeRecoversUsedWords : Prop :=
  ∀ (d : Desc) (i : Instr), decode d = .ok i → (encode i).hdr = d.hdr ∧ SameOperands d (encode i) i

/-- A descriptor decodes exactly when its header is legal, exactly when it selects a row of the opcode map; and it
selects at most one row (R103, R107, R109). -/
def Obligations.DecodeAcceptsExactlyLegalHeaders : Prop :=
  ∀ d : Desc,
    ((∃ i, decode d = .ok i) ↔ d.LegalHeader) ∧
    ((∃ i, decode d = .ok i) ↔ ∃ r ∈ opcodeMap, d.hdr &&& r.mask = r.pattern) ∧
    ∀ r ∈ opcodeMap, ∀ r' ∈ opcodeMap, d.hdr &&& r.mask = r.pattern → d.hdr &&& r'.mask = r'.pattern → r = r'

/-- A descriptor with a reserved opcode, or with an illegal header of any other kind, completes at once with the error
`Illegal`, touching no memory (R106, R107, R311): only its own unit's `STAT` (`ERR = 1`) and `RES` change. -/
def Obligations.IllegalDescriptorCompletesWithIllegal : Prop :=
  ∀ (s : State) (u : Nat) (ts : List Turn) (x : UnitState),
    s.turns = .exec u :: ts → s.units[u]? = some x → x.busy = true → x.job = none →
    (x.cur.opc = 0 ∨ 0x15 ≤ x.cur.opc ∨ ¬ x.cur.LegalHeader) →
    step s = .next
      { s with
        turns := ts
        units := s.units.set u { x with stat := 0x10, res := 0, job := none, raced := false } }

/-- Seven descriptors written out word by word from R100 to R104 decode to the commands they stand for; the example of
R110 and the all-zero descriptor of R106 are among them. -/
def Obligations.WrittenOutDescriptorsDecode : Prop :=
  decode ⟨0x01, 0, 0, 0, 0, 0, 0, 192, 0⟩ = .ok (.plen 192) ∧
  decode ⟨0x304, 0, 3, 67, 0, 0, 0, 0, 0⟩ = .ok (.setbit true true ⟨0, 3⟩ 67) ∧
  decode ⟨0x06, 0, 3, 0x3C, 0, 0, 0, 8, 0xFF⟩ = .ok (.setbits false ⟨0, 3⟩ 60 8 0xFF) ∧
  decode ⟨0x107, 1, 2, 3, 4, 5, 6, 7, 8⟩ = .ok (.copy true ⟨1, 2⟩ 3 ⟨4, 5⟩ 6 7) ∧
  decode ⟨0x211, 0, 3, 0, 0, 0, 0, 192, 0⟩ = .ok (.indexof true ⟨0, 3⟩ 0 192) ∧
  decode ⟨0x414, 9, 9, 1, 4, 5, 6, 7, 0⟩ = .ok (.eqb none 1 (some ⟨4, 5⟩) 6 7) ∧
  decode ⟨0, 0, 0, 0, 0, 0, 0, 0, 0⟩ = .error .reservedOpcode

/-- Operand words a command does not use have no effect: two descriptors with one header that agree on the used words
decode to the same command (R104, R105). -/
def Obligations.IgnoredWordsHaveNoEffect : Prop :=
  ∀ (d d' : Desc) (i : Instr), decode d = .ok i → d'.hdr = d.hdr → SameOperands d d' i → decode d' = .ok i

/-! ## The life of a command (R140) -/

/-- A step runs the decoded command: when unit `u` is scheduled to carry out its submitted command and `CUR` decodes to
`i`, the step is `exec i` with `u` as the acting unit, after which the other units notice what it did to memory. -/
def Obligations.StepRunsDecodedCommand : Prop :=
  ∀ (s : State) (u : Nat) (ts : List Turn) (x : UnitState) (i : Instr),
    s.turns = .exec u :: ts → s.units[u]? = some x → x.busy = true → x.job = none → decode x.cur = .ok i →
    step s = noticed u s.mem (exec i { s with turns := ts, active := u })

/-- Submission to an idle unit latches all nine words and sets `BUSY`, and keeps `OVL`, `ERR` and `RES`; a submission to
a busy unit waits, and nothing is lost, overwritten or queued (R140, R362). -/
def Obligations.SubmissionLatchesOrWaits : Prop :=
  ∀ (s : State) (u : Nat) (ts : List Turn) (x : UnitState) (d : Desc) (ds : List Desc),
    s.turns = .submit u :: ts → s.units[u]? = some x → x.offered = d :: ds →
    (x.busy = false → ∃ y, step s = .next ({ s with turns := ts }.setUnit u y) ∧
      y.cur = d ∧ y.busy = true ∧ y.ovl = x.ovl ∧ y.err = x.err ∧ y.res = x.res ∧ y.job = none ∧ y.offered = ds) ∧
    (x.busy = true → step s = .next { s with turns := ts })

/-- What completion writes (R148, R149, R310): after success `ERR` is 0, after an error it is the error's code, `OVL` and
`RES` are 0 after an error, and `BUSY` has fallen. That `CUR` is kept is the model's choice, log entry 16: the spec says
nothing of `CUR` in an idle unit (U17). -/
def Obligations.CompletionWritesStatusAndResult : Prop :=
  ∀ (x : UnitState) (ovl : Bool) (r : Word),
    ((x.done ovl r).busy = false ∧ (x.done ovl r).ovl = ovl ∧ (x.done ovl r).err = 0 ∧ (x.done ovl r).res = r ∧
      (x.done ovl r).cur = x.cur) ∧
    (∀ e : Err, (x.raise e).busy = false ∧ (x.raise e).ovl = false ∧ (x.raise e).res = 0 ∧ (x.raise e).cur = x.cur) ∧
    (x.raise .illegal).err = 1 ∧ (x.raise .invalidArg).err = 2 ∧ (x.raise .range).err = 3 ∧
    (x.raise .aliasing).err = 4 ∧ (x.raise .overflow).err = 5 ∧ (x.raise .nullBuf).err = 6 ∧ (x.raise .bus).err = 7

/-! ## Addressing primitives (`41_addressing.md`) -/

/-- `PLEN` gives `ceil(CNT / 64)`, on the true sum; a negative input is `InvalidArg` (R180). Nothing else changes. -/
def Obligations.PlenGivesWordCount : Prop :=
  ∀ (s : State) (x : UnitState) (cnt : Word), s.units[s.active]? = some x →
    (cnt.toNat < 2 ^ 63 →
      exec (.plen cnt) s = .next (s.setUnit s.active (x.done false (BitVec.ofNat 64 ((cnt.toNat + 63) / 64))))) ∧
    (2 ^ 63 ≤ cnt.toNat → exec (.plen cnt) s = .next (s.setUnit s.active (x.raise .invalidArg)))

/-- `ULEN` gives `64 * CNT` when it fits the index type, else the error `Overflow`; a negative input is `InvalidArg`
(R181). Nothing else changes. -/
def Obligations.UlenGivesBitLengthOrOverflows : Prop :=
  ∀ (s : State) (x : UnitState) (cnt : Word), s.units[s.active]? = some x →
    (cnt.toNat < 2 ^ 57 →
      exec (.ulen cnt) s = .next (s.setUnit s.active (x.done false (BitVec.ofNat 64 (64 * cnt.toNat))))) ∧
    (2 ^ 57 ≤ cnt.toNat → cnt.toNat < 2 ^ 63 →
      exec (.ulen cnt) s = .next (s.setUnit s.active (x.raise .overflow))) ∧
    (2 ^ 63 ≤ cnt.toNat → exec (.ulen cnt) s = .next (s.setUnit s.active (x.raise .invalidArg)))

/-- `GETBIT` gives the bit in `RES`, as 0 or 1, and changes nothing else (R182, R60). -/
def Obligations.GetbitReadsTheBit : Prop :=
  ∀ (s : State) (x : UnitState) (a : Buf) (apos : Word),
    s.Quiet x → (Instr.getbit a apos).wellFormed = true → a.InMemory s.memWords → a.Holds apos.toNat 1 →
    exec (.getbit a apos) s = .next (s.setUnit s.active
      (x.done false (if s.mem.bit (a.base.toNat + apos.toNat / 64) (apos.toNat % 64) then 1 else 0)))

/-- `SETBIT` writes the value of `V` into its one bit and changes no other bit of memory and nothing else but its own
unit's completion (R183); locked or lock-free, when it need not wait for the lock. -/
def Obligations.SetbitWritesTheBit : Prop :=
  ∀ (s : State) (x : UnitState) (ns v : Bool) (a : Buf) (apos : Word),
    s.Quiet x → (Instr.setbit ns v a apos).wellFormed = true → a.InMemory s.memWords → a.Holds apos.toNat 1 →
    s.LockOpen ns a.base apos.toNat 1 →
    ∃ t, exec (.setbit ns v a apos) s = .next t ∧ s.Writes t x false a.base.toNat apos.toNat 1 (fun _ => v)

/-! ## Multi-bit word transfer (`42_word_transfer.md`) -/

/-- `GETBITS` gives `CNT` bits right-aligned in `RES`, bits beyond the end of the buffer and above `CNT` reading as 0,
and changes nothing else (R200). The range may run past the end of the buffer. -/
def Obligations.GetbitsExtractsTheBits : Prop :=
  ∀ (s : State) (x : UnitState) (a : Buf) (apos cnt : Word),
    s.Quiet x → (Instr.getbits a apos cnt).wellFormed = true → a.InMemory s.memWords →
    ∃ r, exec (.getbits a apos cnt) s = .next (s.setUnit s.active (x.done false r)) ∧
      ∀ j, j < 64 → r.getLsbD j =
        (decide (j < cnt.toNat ∧ apos.toNat + j < 64 * a.len.toNat) && s.mem.bufBit a.base.toNat (apos.toNat + j))

/-- `SETBITS` writes the low bits of `VAL` into the bits of its range that lie inside the buffer, and no other bit (R201).
The range may run past the end of the buffer. -/
def Obligations.SetbitsInsertsTheBits : Prop :=
  ∀ (s : State) (x : UnitState) (ns : Bool) (a : Buf) (apos cnt val : Word),
    s.Quiet x → (Instr.setbits ns a apos cnt val).wellFormed = true → a.InMemory s.memWords → s.LockOpen ns a.base apos.toNat (min cnt.toNat (64 * a.len.toNat - apos.toNat)) →
    ∃ t, exec (.setbits ns a apos cnt val) s = .next t ∧
      s.Writes t x false a.base.toNat apos.toNat (min cnt.toNat (64 * a.len.toNat - apos.toNat)) (fun k => val.getLsbD k)

/-- The pair are inverses inside the buffer (R202): `GETBITS` after `SETBITS` returns the low `CNT` bits of the value;
`SETBITS` of the value `GETBITS` has just returned leaves memory unchanged. -/
def Obligations.SetbitsAndGetbitsAreInverse : Prop :=
  ∀ (s : State) (x : UnitState) (ns : Bool) (a : Buf) (apos cnt : Word),
    s.Quiet x → (Instr.getbits a apos cnt).wellFormed = true → a.InMemory s.memWords → a.Holds apos.toNat cnt.toNat →
    s.LockOpen ns a.base apos.toNat cnt.toNat →
    (∀ val : Word, ∃ t y, exec (.setbits ns a apos cnt val) s = .next t ∧ t.units[t.active]? = some y ∧
      exec (.getbits a apos cnt) t = .next (t.setUnit t.active (y.done false (val &&& (BitVec.allOnes 64 >>> (64 - cnt.toNat)))))) ∧
    (∃ r t, exec (.getbits a apos cnt) s = .next (s.setUnit s.active (x.done false r)) ∧
      exec (.setbits ns a apos cnt r) (s.setUnit s.active (x.done false r)) = .next t ∧
      ∀ w, t.mem.readWord w = s.mem.readWord w)

/-! ## Range copy (`43_range_copy.md`) -/

/-- `COPY` moves the source range as it was before the command, whatever the overlap, and `STAT.OVL` gets the overlap
detector's output; no other bit of memory changes (R220, R221). -/
def Obligations.CopyMovesTheRange : Prop :=
  ∀ (s : State) (x : UnitState) (ns : Bool) (a : Buf) (apos : Word) (b : Buf) (bpos cnt : Word),
    s.Quiet x → (Instr.copy ns a apos b bpos cnt).wellFormed = true → a.InMemory s.memWords → b.InMemory s.memWords →
    a.Holds apos.toNat cnt.toNat → b.Holds bpos.toNat cnt.toNat → ¬ BuffersClash a b → s.LockOpen ns a.base apos.toNat cnt.toNat →
    ∃ t, exec (.copy ns a apos b bpos cnt) s = .next t ∧
      s.Writes t x
        (decide (a.base = b.base ∧ bpos.toNat ≤ apos.toNat ∧ apos.toNat < bpos.toNat + cnt.toNat))
        a.base.toNat apos.toNat cnt.toNat (fun k => s.mem.bufBit b.base.toNat (bpos.toNat + k))

/-- The property a test checks (R224): copying inside one buffer leaves the buffer as copying to a scratch buffer and
back into the destination does, for every pair of ranges. -/
def Obligations.CopyEqualsCopyThroughScratch : Prop :=
  ∀ (s : State) (x : UnitState) (ns : Bool) (a c : Buf) (ds ss n : Word),
    s.Quiet x → (Instr.copy ns a ds a ss n).wellFormed = true → c.wellFormed = true →
    a.InMemory s.memWords → c.InMemory s.memWords → a.Holds ds.toNat n.toNat → a.Holds ss.toNat n.toNat →
    c.Holds 0 n.toNat → Apart a c → s.LockOpen ns a.base ds.toNat n.toNat → s.LockOpen ns c.base 0 n.toNat →
    ∃ t u v, exec (.copy ns a ds a ss n) s = .next t ∧ exec (.copy ns c 0 a ss n) s = .next u ∧
      exec (.copy ns a ds c 0 n) u = .next v ∧
      ∀ w, w < a.len.toNat → t.mem.readWord (a.base.toNat + w) = v.mem.readWord (a.base.toNat + w)

/-! ## Logical combinator (`44_logical.md`) -/

/-- `NOT` inverts every bit of its range and no other (R241). -/
def Obligations.NotInvertsTheRange : Prop :=
  ∀ (s : State) (x : UnitState) (ns : Bool) (a : Buf) (apos cnt : Word),
    s.Quiet x → (Instr.notb ns a apos cnt).wellFormed = true → a.InMemory s.memWords →
    a.Holds apos.toNat cnt.toNat → s.LockOpen ns a.base apos.toNat cnt.toNat →
    ∃ t, exec (.notb ns a apos cnt) s = .next t ∧
      s.Writes t x false a.base.toNat apos.toNat cnt.toNat (fun k => !s.mem.bufBit a.base.toNat (apos.toNat + k))

/-- `AND`, `OR`, `XOR`, `ANDNOT` and `ORNOT` combine every bit of the destination range with its source bit, both as they
were before the command, and change no other bit (R240, R242 to R246). -/
def Obligations.BinaryCommandsCombineTheRanges : Prop :=
  ∀ (s : State) (x : UnitState) (ns : Bool) (a : Buf) (apos : Word) (b : Buf) (bpos cnt : Word),
    s.Quiet x → (Instr.andb ns a apos b bpos cnt).wellFormed = true → a.InMemory s.memWords → b.InMemory s.memWords →
    a.Holds apos.toNat cnt.toNat → b.Holds bpos.toNat cnt.toNat → ¬ BuffersClash a b →
    ¬ RangesClash a apos b bpos cnt → s.LockOpen ns a.base apos.toNat cnt.toNat →
    (∃ t, exec (.andb ns a apos b bpos cnt) s = .next t ∧ s.Writes t x false a.base.toNat apos.toNat cnt.toNat
      (fun k => s.mem.bufBit a.base.toNat (apos.toNat + k) && s.mem.bufBit b.base.toNat (bpos.toNat + k))) ∧
    (∃ t, exec (.orb ns a apos b bpos cnt) s = .next t ∧ s.Writes t x false a.base.toNat apos.toNat cnt.toNat
      (fun k => s.mem.bufBit a.base.toNat (apos.toNat + k) || s.mem.bufBit b.base.toNat (bpos.toNat + k))) ∧
    (∃ t, exec (.xorb ns a apos b bpos cnt) s = .next t ∧ s.Writes t x false a.base.toNat apos.toNat cnt.toNat
      (fun k => s.mem.bufBit a.base.toNat (apos.toNat + k) ^^ s.mem.bufBit b.base.toNat (bpos.toNat + k))) ∧
    (∃ t, exec (.andnot ns a apos b bpos cnt) s = .next t ∧ s.Writes t x false a.base.toNat apos.toNat cnt.toNat
      (fun k => s.mem.bufBit a.base.toNat (apos.toNat + k) && !s.mem.bufBit b.base.toNat (bpos.toNat + k))) ∧
    (∃ t, exec (.ornot ns a apos b bpos cnt) s = .next t ∧ s.Writes t x false a.base.toNat apos.toNat cnt.toNat
      (fun k => s.mem.bufBit a.base.toNat (apos.toNat + k) || !s.mem.bufBit b.base.toNat (bpos.toNat + k)))

/-- `FILL` sets every bit of its range to `V` and changes no other bit (R247). -/
def Obligations.FillSetsTheRange : Prop :=
  ∀ (s : State) (x : UnitState) (ns v : Bool) (a : Buf) (apos cnt : Word),
    s.Quiet x → (Instr.fill ns v a apos cnt).wellFormed = true → a.InMemory s.memWords →
    a.Holds apos.toNat cnt.toNat → s.LockOpen ns a.base apos.toNat cnt.toNat →
    ∃ t, exec (.fill ns v a apos cnt) s = .next t ∧
      s.Writes t x false a.base.toNat apos.toNat cnt.toNat (fun _ => v)

/-- `ISZERO` gives 1 when every bit of its range is 0, else 0, and changes nothing else (R248). -/
def Obligations.IszeroTestsTheRange : Prop :=
  ∀ (s : State) (x : UnitState) (a : Buf) (apos cnt : Word),
    s.Quiet x → (Instr.iszero a apos cnt).wellFormed = true → a.InMemory s.memWords → a.Holds apos.toNat cnt.toNat →
    ∃ r, exec (.iszero a apos cnt) s = .next (s.setUnit s.active (x.done false r)) ∧ (r = 0 ∨ r = 1) ∧
      (r = 1 ↔ ∀ k, k < cnt.toNat → s.mem.bufBit a.base.toNat (apos.toNat + k) = false)

/-- The laws the source states (R249): (a) `ANDNOT` of a range is `AND` of an inverted copy of it; (b) `XOR` of a range
with itself gives all zero; (c) `ORNOT` of a range with itself gives all ones; (d) `NOT` twice is the identity. -/
def Obligations.LogicalLawsHold : Prop :=
  ∀ (s : State) (x : UnitState) (ns : Bool) (a : Buf) (apos : Word) (b : Buf) (bpos : Word) (c : Buf) (cpos cnt : Word),
    s.Quiet x → (Instr.andnot ns a apos b bpos cnt).wellFormed = true → (Instr.notb ns c cpos cnt).wellFormed = true →
    a.InMemory s.memWords → b.InMemory s.memWords → c.InMemory s.memWords →
    a.Holds apos.toNat cnt.toNat → b.Holds bpos.toNat cnt.toNat → c.Holds cpos.toNat cnt.toNat →
    ¬ BuffersClash a b → ¬ RangesClash a apos b bpos cnt → Apart c a → Apart c b →
    s.LockOpen ns a.base apos.toNat cnt.toNat → s.LockOpen ns c.base cpos.toNat cnt.toNat →
    (∃ t, exec (.andnot ns a apos b bpos cnt) s = .next t ∧
      ∃ t₁ t₂ t₃, exec (.copy ns c cpos b bpos cnt) s = .next t₁ ∧ exec (.notb ns c cpos cnt) t₁ = .next t₂ ∧
        exec (.andb ns a apos c cpos cnt) t₂ = .next t₃ ∧
        ∀ k, k < cnt.toNat →
          t.mem.bufBit a.base.toNat (apos.toNat + k) = t₃.mem.bufBit a.base.toNat (apos.toNat + k)) ∧
    (∃ t, exec (.xorb ns a apos a apos cnt) s = .next t ∧
      ∀ k, k < cnt.toNat → t.mem.bufBit a.base.toNat (apos.toNat + k) = false) ∧
    (∃ t, exec (.ornot ns a apos a apos cnt) s = .next t ∧
      ∀ k, k < cnt.toNat → t.mem.bufBit a.base.toNat (apos.toNat + k) = true) ∧
    (∃ t t', exec (.notb ns a apos cnt) s = .next t ∧ exec (.notb ns a apos cnt) t = .next t' ∧
      ∀ w, t'.mem.readWord w = s.mem.readWord w)

/-! ## Reversal (`45_reversal.md`) -/

/-- `REV` writes the source range in reversed bit order and changes no other bit (R270). -/
def Obligations.RevReversesTheRange : Prop :=
  ∀ (s : State) (x : UnitState) (ns : Bool) (a : Buf) (apos : Word) (b : Buf) (bpos cnt : Word),
    s.Quiet x → (Instr.rev ns a apos b bpos cnt).wellFormed = true → a.InMemory s.memWords → b.InMemory s.memWords →
    a.Holds apos.toNat cnt.toNat → b.Holds bpos.toNat cnt.toNat → Apart a b → s.LockOpen ns a.base apos.toNat cnt.toNat →
    ∃ t, exec (.rev ns a apos b bpos cnt) s = .next t ∧
      s.Writes t x false a.base.toNat apos.toNat cnt.toNat
        (fun k => s.mem.bufBit b.base.toNat (bpos.toNat + cnt.toNat - 1 - k))

/-- Involution (R272): for pairwise disjoint buffers, reversing into one scratch buffer and from there into another
leaves a copy of the range, and `EQ` of the two ranges returns 1. -/
def Obligations.RevTwiceGivesTheRangeBack : Prop :=
  ∀ (s : State) (x : UnitState) (ns : Bool) (a : Buf) (apos : Word) (b : Buf) (bpos : Word) (c : Buf) (cpos n : Word),
    s.Quiet x → (Instr.rev ns b bpos a apos n).wellFormed = true → (Instr.rev ns c cpos b bpos n).wellFormed = true →
    a.InMemory s.memWords → b.InMemory s.memWords → c.InMemory s.memWords →
    a.Holds apos.toNat n.toNat → b.Holds bpos.toNat n.toNat → c.Holds cpos.toNat n.toNat →
    Apart b a → Apart c a → Apart c b → s.LockOpen ns b.base bpos.toNat n.toNat → s.LockOpen ns c.base cpos.toNat n.toNat →
    ∃ t u y, exec (.rev ns b bpos a apos n) s = .next t ∧ exec (.rev ns c cpos b bpos n) t = .next u ∧
      u.units[u.active]? = some y ∧
      exec (.eqb (some a) apos (some c) cpos n) u = .next (u.setUnit u.active (y.done false 1))

/-! ## Search and count (`46_search_aggregate.md`) -/

/-- `INDEXOF` gives the least position of the range whose bit equals `V`, or −1, and changes nothing else (R280). -/
def Obligations.IndexofFindsTheLowest : Prop :=
  ∀ (s : State) (x : UnitState) (v : Bool) (a : Buf) (apos cnt : Word),
    s.Quiet x → (Instr.indexof v a apos cnt).wellFormed = true → a.InMemory s.memWords →
    a.Holds apos.toNat (cnt.toNat - apos.toNat) →
    ∃ r, exec (.indexof v a apos cnt) s = .next (s.setUnit s.active (x.done false r)) ∧
      ((∀ p, apos.toNat ≤ p → p < cnt.toNat → s.mem.bufBit a.base.toNat p ≠ v) → r = 0xFFFFFFFFFFFFFFFF) ∧
      ∀ p, apos.toNat ≤ p → p < cnt.toNat → s.mem.bufBit a.base.toNat p = v →
        (∀ q, apos.toNat ≤ q → q < p → s.mem.bufBit a.base.toNat q ≠ v) → r.toNat = p

/-- `LASTINDEXOF` gives the greatest position of the range whose bit equals `V`, or −1, and changes nothing else
(R281). -/
def Obligations.LastindexofFindsTheHighest : Prop :=
  ∀ (s : State) (x : UnitState) (v : Bool) (a : Buf) (apos cnt : Word),
    s.Quiet x → (Instr.lastindexof v a apos cnt).wellFormed = true → a.InMemory s.memWords →
    a.Holds apos.toNat (cnt.toNat - apos.toNat) →
    ∃ r, exec (.lastindexof v a apos cnt) s = .next (s.setUnit s.active (x.done false r)) ∧
      ((∀ p, apos.toNat ≤ p → p < cnt.toNat → s.mem.bufBit a.base.toNat p ≠ v) → r = 0xFFFFFFFFFFFFFFFF) ∧
      ∀ p, apos.toNat ≤ p → p < cnt.toNat → s.mem.bufBit a.base.toNat p = v →
        (∀ q, p < q → q < cnt.toNat → s.mem.bufBit a.base.toNat q ≠ v) → r.toNat = p

/-- `CARD` gives the number of 1 bits of its range, and changes nothing else (R282). -/
def Obligations.CardCountsTheOnes : Prop :=
  ∀ (s : State) (x : UnitState) (a : Buf) (apos cnt : Word),
    s.Quiet x → (Instr.card a apos cnt).wellFormed = true → a.InMemory s.memWords →
    a.Holds apos.toNat (cnt.toNat - apos.toNat) →
    exec (.card a apos cnt) s = .next (s.setUnit s.active (x.done false (BitVec.ofNat 64
      ((List.range (cnt.toNat - apos.toNat)).countP (fun k => s.mem.bufBit a.base.toNat (apos.toNat + k))))))

/-- Search consistency (R284): the two searches return −1 exactly when the number of matching bits, got from `CARD`, is
0; otherwise `GETBIT` of the result gives the value, no earlier position matches `INDEXOF`'s, and no later one
`LASTINDEXOF`'s. -/
def Obligations.SearchAgreesWithCount : Prop :=
  ∀ (s : State) (x : UnitState) (v : Bool) (a : Buf) (apos cnt : Word),
    s.Quiet x → (Instr.card a apos cnt).wellFormed = true → a.InMemory s.memWords →
    a.Holds apos.toNat (cnt.toNat - apos.toNat) →
    ∃ lo hi n, exec (.indexof v a apos cnt) s = .next (s.setUnit s.active (x.done false lo)) ∧
      exec (.lastindexof v a apos cnt) s = .next (s.setUnit s.active (x.done false hi)) ∧
      exec (.card a apos cnt) s = .next (s.setUnit s.active (x.done false n)) ∧
      (lo = 0xFFFFFFFFFFFFFFFF ↔ (if v then n.toNat else cnt.toNat - apos.toNat - n.toNat) = 0) ∧
      (hi = 0xFFFFFFFFFFFFFFFF ↔ (if v then n.toNat else cnt.toNat - apos.toNat - n.toNat) = 0) ∧
      (lo ≠ 0xFFFFFFFFFFFFFFFF →
        exec (.getbit a lo) s = .next (s.setUnit s.active (x.done false (if v then 1 else 0))) ∧
        ∀ q, apos.toNat ≤ q → q < lo.toNat → s.mem.bufBit a.base.toNat q ≠ v) ∧
      (hi ≠ 0xFFFFFFFFFFFFFFFF →
        exec (.getbit a hi) s = .next (s.setUnit s.active (x.done false (if v then 1 else 0))) ∧
        ∀ q, hi.toNat < q → q < cnt.toNat → s.mem.bufBit a.base.toNat q ≠ v)

/-! ## Equality (`47_equality.md`) -/

/-- `EQ` of two present buffers gives 1 when the two ranges are bit for bit equal, else 0, whatever they overlap, and
changes nothing else (R300). -/
def Obligations.EqComparesTheRanges : Prop :=
  ∀ (s : State) (x : UnitState) (a : Buf) (apos : Word) (b : Buf) (bpos cnt : Word),
    s.Quiet x → (Instr.eqb (some a) apos (some b) bpos cnt).wellFormed = true → a.InMemory s.memWords →
    b.InMemory s.memWords → a.Holds apos.toNat cnt.toNat → b.Holds bpos.toNat cnt.toNat →
    ∃ r, exec (.eqb (some a) apos (some b) bpos cnt) s = .next (s.setUnit s.active (x.done false r)) ∧
      (r = 0 ∨ r = 1) ∧
      (r = 1 ↔ ∀ k, k < cnt.toNat →
        s.mem.bufBit a.base.toNat (apos.toNat + k) = s.mem.bufBit b.base.toNat (bpos.toNat + k))

/-- The shortcuts of `EQ` come before its extent and range checks (R300): two absent buffers give 1; exactly one absent
is `NullBuf`; one buffer at one position gives 1 even when the range leaves the buffer or memory, unless another agent
has interfered (R79; log entry 4). -/
def Obligations.EqShortcutsPrecedeTheOtherChecks : Prop :=
  ∀ (s : State) (x : UnitState) (apos bpos cnt : Word) (a b : Buf),
    s.units[s.active]? = some x → apos.isIndex = true → bpos.isIndex = true → cnt.isIndex = true →
    a.wellFormed = true → b.wellFormed = true →
    exec (.eqb none apos none bpos cnt) s = .next (s.setUnit s.active (x.done false 1)) ∧
    exec (.eqb (some a) apos none bpos cnt) s = .next (s.setUnit s.active (x.raise .nullBuf)) ∧
    exec (.eqb none apos (some b) bpos cnt) s = .next (s.setUnit s.active (x.raise .nullBuf)) ∧
    (x.raced = false → a.base = b.base → apos = bpos →
      exec (.eqb (some a) apos (some b) bpos cnt) s = .next (s.setUnit s.active (x.done false 1)))

/-! ## The check sequence (R141 to R147) -/

/-- An empty range completes with success and its neutral result, with no memory access and no lock, whatever the
positions, bases and lengths are (R144). -/
def Obligations.EmptyRangeGivesTheNeutralResult : Prop :=
  ∀ (s : State) (x : UnitState) (i : Instr),
    s.units[s.active]? = some x → i.wellFormed = true → bitCount i = some 0 →
    exec i s = .next (s.setUnit s.active (x.done false (emptyRangeResult i)))

/-- A command ends with `InvalidArg` exactly when one of its used operands is illegal: a negative word, a scalar count
over 64, an end before its start (R142). It is the first check, so no other condition hides it. -/
def Obligations.InvalidArgExactlyWhenIllFormed : Prop :=
  ∀ (s : State) (x : UnitState) (i : Instr), s.units[s.active]? = some x → x.busy = true →
    (exec i s = .next (s.setUnit s.active (x.raise .invalidArg)) ↔ i.wellFormed = false)

/-- A used buffer whose extent does not lie in memory is the error `Bus`, after the early successes and before every
later check (R145, R320); a command that goes on to work has all its buffers in memory. -/
def Obligations.BusErrorWhenExtentLeavesMemory : Prop :=
  ∀ (s : State) (x : UnitState) (i : Instr), s.units[s.active]? = some x → i.wellFormed = true →
    bitCount i ≠ some 0 → ¬ sameBufferAndPosition i →
    ((∃ p ∈ bufPositions i, ¬ p.1.InMemory s.memWords) → exec i s = .next (s.setUnit s.active (x.raise .bus))) ∧
    ((∀ p ∈ bufPositions i, p.1.InMemory s.memWords) → x.busy = true →
      exec i s ≠ .next (s.setUnit s.active (x.raise .bus)))

/-- A range that ends beyond its buffer is the error `Range`, after the extent check and before the aliasing check;
`GETBITS` and `SETBITS` tolerate it (R146, R320). -/
def Obligations.RangeErrorWhenRangeLeavesBuffer : Prop :=
  ∀ (s : State) (x : UnitState) (i : Instr) (n : Nat), s.units[s.active]? = some x → x.busy = true →
    i.wellFormed = true → bitCount i = some n → 0 < n → ¬ sameBufferAndPosition i →
    (∀ p ∈ bufPositions i, p.1.InMemory s.memWords) →
    (exec i s = .next (s.setUnit s.active (x.raise .range)) ↔
      toleratesOverrun i = false ∧ ∃ p ∈ bufPositions i, ¬ p.1.Holds p.2 n)

/-- The error `Alias` is reported exactly when the operands alias in a way R147 forbids, once every earlier check has
passed. -/
def Obligations.AliasErrorExactlyWhenForbidden : Prop :=
  ∀ (s : State) (x : UnitState) (i : Instr) (n : Nat), s.units[s.active]? = some x → x.busy = true →
    i.wellFormed = true → bitCount i = some n → 0 < n →
    (∀ p ∈ bufPositions i, p.1.InMemory s.memWords ∧ p.1.Holds p.2 n) →
    (exec i s = .next (s.setUnit s.active (x.raise .aliasing)) ↔ ForbiddenAlias i)

/-- An error is a function of the descriptor and `MEMWORDS` alone (R148): a command that ends with an error in one state
ends with it in every state with the same `MEMWORDS`, whatever memory, the lock table and the units hold and whichever
unit carries it out. -/
def Obligations.ErrorsDependOnDescriptorAlone : Prop :=
  ∀ (s s' : State) (x x' : UnitState) (i : Instr) (e : Err),
    s.units[s.active]? = some x → x.busy = true → exec i s = .next (s.setUnit s.active (x.raise e)) →
    s'.memWords = s.memWords → s'.units[s'.active]? = some x' →
    exec i s' = .next (s'.setUnit s'.active (x'.raise e))

/-- Precision (R322, R321): a command that reports an error has changed only its own unit's `STAT` and `RES`. -/
def Obligations.ErrorsLeaveAllButStatAndRes : Prop :=
  ∀ (s t : State) (x y : UnitState) (i : Instr), s.units[s.active]? = some x → x.busy = true →
    exec i s = .next t → t.units[s.active]? = some y → y.busy = false → y.err ≠ 0 →
    ∃ e : Err, y = x.raise e ∧ t = s.setUnit s.active y

/-- `STAT.OVL` is 1 after a command exactly when it was a successful `COPY` whose two buffers are one and whose
destination starts inside its source range (R221, R34): every other completion writes 0. -/
def Obligations.OverlapFlagOnlyFromCopy : Prop :=
  ∀ (s t : State) (x y : UnitState) (i : Instr), s.units[s.active]? = some x → x.busy = true →
    exec i s = .next t → t.units[s.active]? = some y → y.busy = false →
    (y.ovl = true ↔ y.err = 0 ∧ ∃ ns a apos b bpos cnt, i = .copy ns a apos b bpos cnt ∧ a.base = b.base ∧
      bpos.toNat ≤ apos.toNat ∧ apos.toNat < bpos.toNat + cnt.toNat)

/-! ## What every command does and leaves alone -/

/-- Every command of an existing unit answers a next state and, when no lock it could wait for is held, completes: it
never stops half-way (R140, R317, R322). -/
def Obligations.EveryCommandCompletesWhenLocksAreFree : Prop :=
  ∀ (s : State) (x : UnitState) (i : Instr), s.units[s.active]? = some x →
    (∃ t, exec i s = .next t) ∧
    (s.lock = [] → ∃ t y, exec i s = .next t ∧ t.units[s.active]? = some y ∧ y.busy = false)

/-- The frame of every command, raced or not, as one step and event by event among other agents (R76, R79, R329).

As one step: a bit of memory that changes lies in the command's destination range; the lock table, the parameter, the
schedule and the other units are as before. By a memory event of a running command: a bit that changes lies in the
destination range, or in a partial word of it and then becomes what the unit read there before (R74, R79); an event writes
at most one word, one that was not written yet, and it is written then, once and for all; no lock entry but that of the
command's base changes, and of the other units nothing but the mark of interference. By the completion of a running
command, raced or not: nothing changes but the unit's own registers (R69). That the acting unit's `CUR` and the host's
waiting descriptors are as before, after completion too, is the model's choice (log entries 16 and 14). -/
def Obligations.CommandFrame : Prop :=
  (∀ (s t : State) (x : UnitState) (i : Instr), s.units[s.active]? = some x → exec i s = .next t →
    (∀ a b, b < 64 → t.mem.bit a b ≠ s.mem.bit a b → InDest i a b) ∧
    t.memWords = s.memWords ∧ t.lock = s.lock ∧ t.turns = s.turns ∧ t.active = s.active ∧
    t.units.length = s.units.length ∧ (∀ j, j ≠ s.active → t.units[j]? = s.units[j]?) ∧
    ∃ y, t.units[s.active]? = some y ∧ y.cur = x.cur ∧ y.offered = x.offered) ∧
  ∀ (s t : State) (u : Nat) (e : Turn) (ts : List Turn) (x : UnitState) (i : Instr) (j : Job) (w : Work),
    s.turns = e :: ts → (e = .finish u ∨ ∃ k, e = .event u k) → s.units[u]? = some x →
    decode x.cur = .ok i → x.job = some j → x.OnPlan s.memWords j → j.plan = .work w → step s = .next t →
    (∀ a b, b < 64 → t.mem.bit a b ≠ s.mem.bit a b →
      InDest i a b ∨ ((∃ c, c < 64 ∧ InDest i a c) ∧
        ∃ d old, j.HasRead d old ∧ d.addr = a ∧ t.mem.bit a b = old.getLsbD b)) ∧
    (∀ k, e = .event u k → ∃ y j', t.units[u]? = some y ∧ y.job = some j' ∧ (∀ d ∈ j'.pending, d ∈ j.pending) ∧
      (t.mem = s.mem ∨ ∃ d ∈ j.pending, d.addr ∉ j'.pending.map Upd.addr ∧
        ∀ a, a ≠ d.addr → t.mem.readWord a = s.mem.readWord a)) ∧
    (e = .finish u → t.mem = s.mem ∧ t.lock = s.lock) ∧
    t.memWords = s.memWords ∧ t.turns = ts ∧ t.active = s.active ∧ t.units.length = s.units.length ∧
    (∀ b, b ≠ w.base → t.lock.holder b = s.lock.holder b) ∧
    (∀ (v : Nat) (z : UnitState), v ≠ u → s.units[v]? = some z → ∃ r, t.units[v]? = some { z with raced := r }) ∧
    ∃ y, t.units[u]? = some y ∧ y.cur = x.cur ∧ y.offered = x.offered

/-- The write footprint (R76, R151): the work of a command writes each word of its destination range exactly once, and no
other word, under the mask of the range's bits in it, with the lock of the destination buffer. -/
def Obligations.WriteFootprintIsTheDestinationRange : Prop :=
  ∀ (i : Instr) (memWords : Nat) (m : Memory) (w : Work), planOf i memWords m = .work w →
    (w.todo.map Upd.addr).Nodup ∧
    (destRange i = none → w.todo = []) ∧
    ∀ base pos n, destRange i = some (base, pos, n) → w.base = base ∧
      (∀ a, a ∈ w.todo.map Upd.addr ↔ ∃ b, b < 64 ∧ InRange base pos n a b) ∧
      ∀ d ∈ w.todo, ∀ b, b < 64 → (d.mask.getLsbD b = true ↔ InRange base pos n d.addr b)

/-! ## Datapath primitives (`00_scope.md` R13, `40_common_execution.md` R153, `45_reversal.md` R271) -/

/-- The word primitives meet their definitions, and their values at zero are 64 (R13). -/
def Obligations.WordPrimitivesMeetTheirDefinitions : Prop :=
  (∀ w : Word, popcount64 w = ((Finset.range 64).filter (fun i => w.getLsbD i = true)).card) ∧
  (∀ w : Word, (∀ j, j < ctz64 w → w.getLsbD j = false) ∧ ctz64 w ≤ 64 ∧
    (w ≠ 0 → ctz64 w < 64 ∧ w.getLsbD (ctz64 w) = true)) ∧
  (∀ w : Word, (∀ j, j < clz64 w → w.getLsbD (63 - j) = false) ∧ clz64 w ≤ 64 ∧
    (w ≠ 0 → clz64 w < 64 ∧ w.getLsbD (63 - clz64 w) = true)) ∧
  ctz64 0 = 64 ∧ clz64 0 = 64 ∧
  (∀ (w : Word) (j : Nat), j < 64 → (rev64 w).getLsbD j = w.getLsbD (63 - j)) ∧
  (∀ lo hi i : Nat, lo ≤ hi → hi ≤ 64 → (ones lo hi).getLsbD i = decide (lo ≤ i ∧ i < hi))

/-- The window and the reversed window deliver to each destination bit of the range the source bit that corresponds to
it (R153, R271). -/
def Obligations.WindowsDeliverTheSourceBits : Prop :=
  ∀ (m : Memory) (b : Buf) (apos bpos n w k : Nat), b.Holds bpos n → k < 64 → apos ≤ 64 * w + k →
    64 * w + k < apos + n →
    (window m b apos bpos w).getLsbD k = m.bufBit b.base.toNat (bpos + (64 * w + k - apos)) ∧
    (revWindow m b apos bpos n w).getLsbD k = m.bufBit b.base.toNat (bpos + n - 1 + apos - 64 * w - k)

/-! ## Several agents (`20_memory.md`) -/

/-- No interference gives the sequential semantics (R78): with one unit and the host leaving memory alone, every run of
the command's separate memory events, in whatever order the unit makes them, that reaches completion ends with the
memory, the unit and the lock table that carrying it out as one atomic step gives, whatever the schedule foretold; and such
a run exists. -/
def Obligations.EventRunEqualsAtomicRun : Prop :=
  ∀ (s t : State) (x : UnitState) (i : Instr),
    s.units = [x] → s.active = 0 → s.lock = [] → s.mem.wf = true → x.busy = true → x.job = none → x.raced = false →
    decode x.cur = .ok i → exec i s = .next t →
    (∀ (f : Bool) (evs : List Turn), (∀ e ∈ evs, e.IsEventOf 0) →
      ∃ t' y, run (evs.length + 2) { s with turns := .start 0 f :: evs ++ [.finish 0] } = .next t' ∧
        t'.units = [y] ∧ (y.busy = false → t'.mem = t.mem ∧ t'.units = t.units ∧ t'.lock = t.lock)) ∧
    ∃ evs : List Turn, (∀ e ∈ evs, e.IsEventOf 0) ∧
      ∃ t' y, run (evs.length + 2) { s with turns := .start 0 false :: evs ++ [.finish 0] } = .next t' ∧
        t'.units = [y] ∧ y.busy = false

/-- The sharing guarantee (R81; R183 for two `SETBIT`s): any number of units run one command each, every one a writing
command with `NS = 0` on the buffer at one base, with pairwise disjoint destination ranges, none of which meets another
command's source range. Under any schedule of the units' steps, once all have completed, every command's destination range
and its unit's registers are what the command alone gives, and every bit outside all the ranges is unchanged. -/
def Obligations.LockedCommandsAllTakeEffect : Prop :=
  ∀ (s t : State) (base : Nat) (cmds : List Instr),
    s.units.length = cmds.length → s.lock = [] →
    (∀ (u : Nat) (x : UnitState) (i : Instr), s.units[u]? = some x → cmds[u]? = some i →
      x.busy = true ∧ x.job = none ∧ x.raced = false ∧ decode x.cur = .ok i ∧ x.cur.ns = false ∧
      ∃ pos n, destRange i = some (base, pos, n)) →
    (∀ (u v : Nat) (i k : Instr), u ≠ v → cmds[u]? = some i → cmds[v]? = some k →
      ∀ a b, b < 64 → InDest i a b → ¬ InDest k a b ∧ ¬ InSource k a b) →
    (∀ e ∈ s.turns, ∃ u, e.IsOf u) →
    run s.turns.length s = .next t → (∀ y ∈ t.units, y.busy = false) →
    (∀ (u : Nat) (i : Instr), cmds[u]? = some i →
      ∃ r, exec i { s with active := u } = .next r ∧ t.units[u]? = r.units[u]? ∧
        ∀ a b, b < 64 → InDest i a b → t.mem.bit a b = r.mem.bit a b) ∧
    ∀ a b, b < 64 → (∀ i ∈ cmds, ¬ InDest i a b) → t.mem.bit a b = s.mem.bit a b

/-- With `NS = 1` an update can be lost (R183, R74): two units set different bits of one word, both complete with
success, and one of the bits is still 0. -/
def Obligations.UnlockedSetbitCanBeLost : Prop :=
  ∃ (s t : State) (x₀ x₁ y₀ y₁ : UnitState),
    s.units = [x₀, x₁] ∧ s.lock = [] ∧ s.mem = [] ∧ s.memWords = 1 ∧
    x₀.busy = true ∧ x₀.job = none ∧ x₀.raced = false ∧ decode x₀.cur = .ok (.setbit true true ⟨0, 1⟩ 0) ∧
    x₁.busy = true ∧ x₁.job = none ∧ x₁.raced = false ∧ decode x₁.cur = .ok (.setbit true true ⟨0, 1⟩ 1) ∧
    (∀ e ∈ s.turns, e.IsOf 0 ∨ e.IsOf 1) ∧
    run s.turns.length s = .next t ∧ t.units = [y₀, y₁] ∧ y₀.busy = false ∧ y₁.busy = false ∧
    y₀.err = 0 ∧ y₁.err = 0 ∧ t.mem.bufBit 0 0 = false ∧ t.mem.bufBit 0 1 = true

/-- `ACQ` of a held lock has no step (R72, R69): a unit that is to begin a locked partial-word update waits while the entry
of its buffer is held; when it is free, the entry becomes held by the unit. -/
def Obligations.AcquireWaitsForTheLock : Prop :=
  ∀ (s : State) (u k : Nat) (ts : List Turn) (x : UnitState) (w : Work) (j : Job) (d : Upd),
    s.turns = .event u k :: ts → s.units[u]? = some x → x.job = some j → j.plan = .work w → j.flight = .between →
    j.todo[k]? = some (.waiting d) → d.full = false → w.ns = false →
    (s.lock.holder w.base ≠ none → step s = .next { s with turns := ts }) ∧
    (s.lock.holder w.base = none → ∃ t, step s = .next t ∧ t.mem = s.mem ∧
      ∀ b, t.lock.holder b = if b = w.base then some u else s.lock.holder b)

/-- In its atomic form a command that would have to lock a held buffer waits (R72): nothing changes. A command without a
partial word, or of the lock-free form, does not wait (R74, R75). That the atomic form waits as a whole is the model's
choice: log entry 8. -/
def Obligations.CommandWaitsExactlyForAHeldLock : Prop :=
  ∀ (s : State) (x : UnitState) (i : Instr) (w : Work),
    s.units[s.active]? = some x → x.busy = true → planOf i s.memWords s.mem = .work w →
    (exec i s = .next s ↔ w.ns = false ∧ (∃ d ∈ w.todo, d.full = false) ∧ s.lock.holder w.base ≠ none)

/-- A raced command still completes, reports no error because of it and keeps to its footprint (R79), as one step and by
the completion of a run of separate events, which writes no memory (R69): its `RES` and its destination bits are free
values, about which nothing is said. A command of which the schedule foretold an interference does not complete before one
has come: the model's form, log entry 18. -/
def Obligations.RacedCommandStillCompletes : Prop :=
  (∀ (s : State) (x : UnitState) (i : Instr) (w : Work),
    s.units[s.active]? = some x → x.raced = true → s.lock = [] → planOf i s.memWords s.mem = .work w →
    ∃ t y, exec i s = .next t ∧ t.units[s.active]? = some y ∧ y.busy = false ∧ y.err = 0 ∧ y.ovl = w.ovl ∧
      ∀ a b, b < 64 → ¬ InDest i a b → t.mem.bit a b = s.mem.bit a b) ∧
  ∀ (s : State) (u : Nat) (ts : List Turn) (x : UnitState) (j : Job) (w : Work),
    s.turns = .finish u :: ts → s.units[u]? = some x → x.job = some j → j.plan = .work w → j.todo = [] →
    j.flight = .between →
    (x.raced = true → ∃ t y, step s = .next t ∧ t.units[u]? = some y ∧ y.busy = false ∧ y.err = 0 ∧ y.ovl = w.ovl ∧
      t.mem = s.mem ∧ t.lock = s.lock) ∧
    (x.raced = false → j.foretold = true → step s = .next { s with turns := ts })

/-- When a step of another agent, be it the host or another unit, changes a bit a busy unit's command depends on (a source
bit, a destination bit of a command that works in place or of a partial word), the unit is marked as raced, so that its
result will be any value (R78, R79, R355); when it changes none, the unit is as before. That only a change of such a bit
interferes is the model's reading, log entry 10. -/
def Obligations.ChangeOfWatchedBitRaces : Prop :=
  ∀ (s t : State) (u : Nat) (e : Turn) (ts : List Turn) (x : UnitState) (i : Instr) (w : Work),
    s.turns = e :: ts → ¬ e.IsOf u → e ≠ .reset → s.units[u]? = some x → x.busy = true → decode x.cur = .ok i →
    planOf i s.memWords s.mem = .work w → step s = .next t →
    (∀ a b, b < 64 → Depends i a b → t.mem.bit a b ≠ s.mem.bit a b →
      t.units[u]? = some { x with raced := true }) ∧
    ((∀ a b, b < 64 → Depends i a b → t.mem.bit a b = s.mem.bit a b) → t.units[u]? = some x)

/-- A write of the host to memory stores its word and changes no other word, no lock and no register of any unit (R84);
a host write to `STAT` or `RES` has no effect (R34, R35). -/
def Obligations.HostWritesReachMemoryAlone : Prop :=
  ∀ (s : State) (ts : List Turn) (v : Word),
    (∀ addr, s.turns = .hostWrite addr v :: ts → addr < s.memWords →
      ∃ t, step s = .next t ∧ t.mem.readWord addr = v ∧ (∀ a, a ≠ addr → t.mem.readWord a = s.mem.readWord a) ∧
        t.lock = s.lock ∧ t.units.length = s.units.length ∧
        ∀ (u : Nat) (x : UnitState), s.units[u]? = some x →
          ∃ y : UnitState, t.units[u]? = some y ∧ y.stat = x.stat ∧ y.res = x.res ∧ y.cur = x.cur ∧ y.job = x.job) ∧
    (∀ u, u < s.units.length → s.turns = .hostWriteStat u v :: ts → step s = .next { s with turns := ts }) ∧
    (∀ u, u < s.units.length → s.turns = .hostWriteRes u v :: ts → step s = .next { s with turns := ts })

/-! ## Reset (R42, R350, R351) -/

/-- The reset state is as R42 states it: every unit has `STAT = 0`, `RES = 0` and no progress, every lock is free. The
number of units and the size of memory there are the model's choice (log entry 1), memory's contents and `CUR` too (log
entry 2); nothing is said of them. -/
def Obligations.ResetStateIsAsSpecified : Prop :=
  (∀ x ∈ State.reset.units, x.stat = 0 ∧ x.res = 0 ∧ x.job = none) ∧ State.reset.units ≠ [] ∧
  ∀ b, State.reset.lock.holder b = none

/-- The reset input (R350, R351): every unit is idle with `STAT = 0` and `RES = 0`, the command it ran is abandoned, every
lock is free, memory is not written, and the unit accepts a descriptor. That the host's waiting descriptors and the rest
of the schedule are as before is the model's choice (log entries 14 and 15); the premise says that the schedule has kept
what it foretold, which is the model's form too (log entry 18). -/
def Obligations.ResetTurnClearsUnitsAndLocks : Prop :=
  ∀ (s : State) (ts : List Turn), s.turns = .reset :: ts → s.NothingOwed →
    ∃ t, step s = .next t ∧ t.mem = s.mem ∧ (∀ b, t.lock.holder b = none) ∧ t.units.length = s.units.length ∧
      t.turns = ts ∧
      ∀ (u : Nat) (x : UnitState), s.units[u]? = some x →
        ∃ y : UnitState, t.units[u]? = some y ∧ y.stat = 0 ∧ y.res = 0 ∧ y.job = none ∧ y.busy = false ∧ y.offered = x.offered

/-! ## Invariants -/

/-- The reset state meets the four invariants. They say nothing of the values log entries 1 and 2 choose. -/
def Obligations.ResetMeetsTheInvariants : Prop :=
  State.reset.MemCanonical ∧ State.reset.StatsLegal ∧ State.reset.LocksSound ∧ State.reset.InBounds

/-- Every step keeps memory in its canonical form. The form is the model's representation of `MEM`: log entry 5. -/
def Obligations.StepKeepsMemoryCanonical : Prop :=
  ∀ s t : State, s.MemCanonical → step s = .next t → t.MemCanonical

/-- Every step keeps every `STAT` legal: the reserved bits read as 0 and `ERR` never takes 8 to 15 (R34, R310). -/
def Obligations.StepKeepsStatusLegal : Prop :=
  ∀ s t : State, s.StatsLegal → step s = .next t → t.StatsLegal

/-- Every step keeps the lock table sound: at most one holder of each base, at most one entry held by each unit, and that
exactly across the one read and one write of a locked partial-word update of its own destination buffer; only a lock-free
command reads a partial word without the lock (R32, R72, R73, R74). -/
def Obligations.StepKeepsLocksSound : Prop :=
  ∀ s t : State, s.LocksSound → step s = .next t → t.LocksSound

/-- Every step keeps every access in bounds: nothing is stored outside the words that exist; every running command keeps
to the plan its checks gave, each word of it still to be written at most once, and no update of that plan lies outside the
words that exist (R31, R76, R145). That an interference is foretold only of a command that depends on a bit of memory is the
model's form, log entry 18. -/
def Obligations.StepKeepsAccessesInBounds : Prop :=
  ∀ s t : State, s.InBounds → step s = .next t → t.InBounds

/-- A step faults exactly when the turn it takes names a unit or a word that does not exist, or is a reset before an
interference the schedule foretold has come, and it never refuses. The three faults are the model's choice: log entries 13
and 18. -/
def Obligations.StepFaultsExactlyOnBadTurns : Prop :=
  ∀ s : State,
    ((∃ f, step s = .fault f) ↔ ∃ e ts, s.turns = e :: ts ∧
      (¬ e.NamesExisting s.memWords s.units.length ∨ (e = .reset ∧ ¬ s.NothingOwed))) ∧
    ∀ r, step s ≠ .refused r
end

