-- ==== Sys2Proof/Laws/Bits.lean ====
section
/-! SUPPORT. The word primitives, masks and update values, bit by bit (R13, R34, R150). -/

namespace Sys2Proof.Machine

@[simp] theorem getLsbD_allOnes (i : Nat) : allOnes.getLsbD i = decide (i < 64) := by
  rw [allOnes, BitVec.getLsbD_allOnes]

/-- `ones(lo, hi)` bit by bit (R13). -/
theorem getLsbD_ones (lo hi i : Nat) : (ones lo hi).getLsbD i = decide (i < 64 ∧ lo ≤ i ∧ i < hi) := by
  rw [ones, BitVec.getLsbD_and, BitVec.getLsbD_not, BitVec.getLsbD_shiftLeft, BitVec.getLsbD_shiftLeft,
    getLsbD_allOnes, getLsbD_allOnes]
  by_cases h : i < 64
  · have h1 : i - min lo 64 < 64 := by omega
    have h2 : i - min hi 64 < 64 := by omega
    have h5 : i < min lo 64 ↔ ¬ lo ≤ i := by omega
    have h6 : i < min hi 64 ↔ i < hi := by omega
    simp only [h, h1, h2, h5, h6, decide_true, Bool.true_and, Bool.and_true, true_and, Bool.not_not]
    by_cases h3 : lo ≤ i <;> by_cases h4 : i < hi <;> simp_all
  · simp [h]

/-- `rev64` bit by bit (R13). -/
theorem getLsbD_rev64 (w : Word) (i : Nat) : (rev64 w).getLsbD i = (decide (i < 64) && w.getLsbD (63 - i)) := by
  rw [rev64, BitVec.getLsbD_reverse, BitVec.getMsbD]

/-- An update's new word bit by bit (R73): the new bits under the mask, the old ones elsewhere. -/
theorem getLsbD_merge (old mask val : Word) (i : Nat) :
    (merge old mask val).getLsbD i = if mask.getLsbD i then val.getLsbD i else old.getLsbD i := by
  unfold merge
  by_cases hi : i < 64
  · simp only [BitVec.getLsbD_or, BitVec.getLsbD_and, BitVec.getLsbD_not, hi, decide_true, Bool.true_and]
    cases mask.getLsbD i <;> simp
  · have h : 64 ≤ i := by omega
    simp [BitVec.getLsbD_of_ge _ _ h]

/-- A full word is written whole (R75). -/
theorem merge_full (old val : Word) : merge old allOnes val = val := by
  apply BitVec.eq_of_getLsbD_eq
  intro i hi
  rw [getLsbD_merge, getLsbD_allOnes, decide_eq_true hi, if_pos rfl]

/-- `m(w)` bit by bit (R150): bit `b` of word `w` lies in the range exactly when its position does. -/
theorem getLsbD_wordMask (pos n w b : Nat) :
    (wordMask pos n w).getLsbD b = decide (b < 64 ∧ pos ≤ 64 * w + b ∧ 64 * w + b < pos + n) := by
  rw [wordMask, getLsbD_ones, Bool.eq_iff_iff]
  simp only [decide_eq_true_eq]
  omega

/-- The words of a range are those from `first` to `last` (R150). -/
theorem mem_rangeWords (pos n w : Nat) (hn : 0 < n) :
    w ∈ rangeWords pos n ↔ pos / 64 ≤ w ∧ w ≤ (pos + n - 1) / 64 := by
  have h : pos / 64 ≤ (pos + n - 1) / 64 := Nat.div_le_div_right (by omega)
  simp only [rangeWords, List.mem_range'_1]
  omega

/-- Each word of a range is listed once (R76). -/
theorem rangeWords_nodup (pos n : Nat) : (rangeWords pos n).Nodup := List.nodup_range'

/-- The word of a position of the range is one of its words. -/
theorem div_mem_rangeWords (pos n p : Nat) (h : pos ≤ p) (h' : p < pos + n) : p / 64 ∈ rangeWords pos n := by
  rw [mem_rangeWords pos n _ (by omega)]
  exact ⟨Nat.div_le_div_right h, Nat.div_le_div_right (by omega)⟩

/-! ## `STAT` -/

theorem statWord_busy (b o : Bool) (c : Nat) : (statWord b o c).getLsbD 0 = b := by
  cases b <;> cases o <;> simp [statWord, boolWord]

theorem statWord_ovl (b o : Bool) (c : Nat) : (statWord b o c).getLsbD 1 = o := by
  cases b <;> cases o <;> simp [statWord, boolWord]

/-- Every code of R310 lies in 1 to 7. -/
theorem Err.code_range (e : Err) : 1 ≤ e.code ∧ e.code ≤ 7 := by cases e <;> decide

/-- The fifteen `STAT` words a completion can write are legal (R34). -/
theorem statWord_legal (b o : Bool) (c : Nat) (h : c ≤ 7) : statLegal (statWord b o c) = true := by
  interval_cases c <;> cases b <;> cases o <;> decide

/-- Submission keeps `STAT` legal (R34). -/
theorem setBusy_legal (w : Word) (h : statLegal w = true) : statLegal (setBusy w) = true := by
  unfold statLegal setBusy at *
  rw [beq_iff_eq] at *
  rw [BitVec.and_comm, BitVec.and_or_distrib_left, BitVec.and_comm _ w, h]
  decide

end Sys2Proof.Machine
end

