-- ==== Sys2Proof/Laws/Memory.lean ====
section
/-! SUPPORT. Laws of memory: what a read gives after a write, that every write keeps the canonical form, and that memories
in canonical form that read alike are equal. -/

namespace Sys2Proof.Machine

/-! ## Bytes -/

theorem Memory.readByte_nil (a : Nat) : Memory.readByte [] a = Memory.unlisted := rfl

theorem Memory.readByte_cons (x a : Nat) (v : Byte) (m : Memory) :
    Memory.readByte ((x, v) :: m) a = if x = a then v else m.readByte a := rfl

theorem Memory.readByte_erase (m : Memory) (a x : Nat) :
    (m.erase a).readByte x = if x = a then Memory.unlisted else m.readByte x := by
  induction m with
  | nil => simp [Memory.erase, Memory.readByte]
  | cons c m ih =>
    obtain ⟨y, w⟩ := c
    unfold Memory.erase at ih ⊢
    by_cases h : y = a
    · subst h
      by_cases hx : x = y
      · simp_all
      · have hx' : ¬ y = x := fun e => hx e.symm
        simp_all [Memory.readByte]
    · simp only [List.filter_cons, bne_iff_ne, ne_eq, h, not_false_eq_true, if_true, Memory.readByte_cons, ih]
      by_cases hx : y = x
      · subst hx; simp [h]
      · simp [hx]

theorem Memory.readByte_insert (m : Memory) (a : Nat) (v : Byte) (x : Nat)
    (hn : a ∉ m.map Prod.fst) :
    (m.insert a v).readByte x = if x = a then v else m.readByte x := by
  induction m with
  | nil =>
    by_cases hx : x = a
    · simp [Memory.insert, Memory.readByte, hx]
    · have : ¬ a = x := fun e => hx e.symm
      simp [Memory.insert, Memory.readByte, hx, this]
  | cons c m ih =>
    obtain ⟨y, w⟩ := c
    simp only [List.map_cons, List.mem_cons, not_or] at hn
    simp only [Memory.insert]
    split
    · by_cases hx : x = a
      · simp [Memory.readByte, hx]
      · have : ¬ a = x := fun e => hx e.symm
        simp [Memory.readByte, hx, this]
    · rw [Memory.readByte_cons, ih hn.2, Memory.readByte_cons]
      by_cases hx : x = a
      · subst hx
        have : ¬ y = x := fun e => hn.1 e.symm
        simp [this]
      · simp [hx]

theorem Memory.not_mem_erase (m : Memory) (a : Nat) : a ∉ (m.erase a).map Prod.fst := by
  simp [Memory.erase]

/-- Read after write, for bytes: the byte written reads as written, every other byte as before. -/
theorem Memory.readByte_writeByte (m : Memory) (a : Nat) (v : Byte) (x : Nat) :
    (m.writeByte a v).readByte x = if x = a then v else m.readByte x := by
  unfold Memory.writeByte
  split
  · next h => rw [Memory.readByte_erase, h]
  · rw [Memory.readByte_insert _ _ _ _ (Memory.not_mem_erase m a),
      Memory.readByte_erase]
    by_cases hx : x = a <;> simp [hx]

/-! ## The canonical form -/

theorem Memory.rising_iff (m : Memory) : m.rising = true ↔ (m.map Prod.fst).Pairwise (· < ·) := by
  induction m with
  | nil => simp [Memory.rising]
  | cons c m ih =>
    obtain ⟨x, v⟩ := c
    cases m with
    | nil => simp [Memory.rising]
    | cons d m =>
      obtain ⟨y, w⟩ := d
      simp only [Memory.rising, Bool.and_eq_true, decide_eq_true_eq, ih, List.map_cons, List.pairwise_cons,
        List.mem_cons, List.mem_map]
      constructor
      · rintro ⟨h, h1, h2⟩
        refine ⟨?_, h1, h2⟩
        rintro a (rfl | ⟨b, hb, rfl⟩)
        · exact h
        · exact lt_trans h (h1 _ ⟨b, hb, rfl⟩)
      · rintro ⟨h, h1, h2⟩
        exact ⟨h _ (Or.inl rfl), h1, h2⟩

/-- The canonical form, in terms of the list. -/
theorem Memory.wf_iff (m : Memory) :
    m.wf = true ↔ (m.map Prod.fst).Pairwise (· < ·) ∧ ∀ c ∈ m, c.2 ≠ Memory.unlisted := by
  simp [Memory.wf, Memory.rising_iff]

theorem Memory.mem_insert (m : Memory) (a : Nat) (v : Byte) (c : Host.Cell) :
    c ∈ m.insert a v ↔ c = (a, v) ∨ c ∈ m := by
  induction m with
  | nil => simp [Memory.insert]
  | cons d m ih =>
    obtain ⟨x, w⟩ := d
    simp only [Memory.insert]
    split
    · simp
    · simp only [List.mem_cons, ih]; tauto

theorem Memory.insert_pairwise (m : Memory) (a : Nat) (v : Byte)
    (h : (m.map Prod.fst).Pairwise (· < ·)) (hn : a ∉ m.map Prod.fst) :
    ((m.insert a v).map Prod.fst).Pairwise (· < ·) := by
  induction m with
  | nil => simp [Memory.insert]
  | cons d m ih =>
    obtain ⟨x, w⟩ := d
    simp only [List.map_cons, List.pairwise_cons, List.mem_cons, not_or] at h hn
    simp only [Memory.insert]
    split
    · next hlt =>
      simp only [List.map_cons, List.pairwise_cons, List.mem_cons]
      refine ⟨?_, h⟩
      rintro b (rfl | hb)
      · exact hlt
      · exact lt_trans hlt (h.1 b hb)
    · next hge =>
      simp only [List.map_cons, List.pairwise_cons]
      refine ⟨?_, ih h.2 hn.2⟩
      intro b hb
      simp only [List.mem_map, Memory.mem_insert] at hb
      obtain ⟨c, rfl | hc, rfl⟩ := hb
      · have := hn.1; simp only; omega
      · exact h.1 _ (List.mem_map_of_mem hc)

theorem Memory.wf_nil : Memory.wf [] = true := rfl

theorem Memory.wf_erase (m : Memory) (a : Nat) (h : m.wf = true) : (m.erase a).wf = true := by
  rw [Memory.wf_iff] at h ⊢
  refine ⟨h.1.sublist ?_, fun c hc => h.2 c (List.mem_of_mem_filter hc)⟩
  exact (List.filter_sublist (l := m)).map _

/-- Every byte write keeps the canonical form. -/
theorem Memory.wf_writeByte (m : Memory) (a : Nat) (v : Byte) (h : m.wf = true) : (m.writeByte a v).wf = true := by
  unfold Memory.writeByte
  split
  · exact Memory.wf_erase m a h
  · next hv =>
    have he := Memory.wf_erase m a h
    rw [Memory.wf_iff] at he ⊢
    refine ⟨Memory.insert_pairwise _ _ _ he.1 (Memory.not_mem_erase m a), ?_⟩
    intro c hc
    rcases (Memory.mem_insert _ _ _ _).1 hc with rfl | hc
    · exact hv
    · exact he.2 c hc

theorem Memory.wf_writeBytes (m : Memory) (a : Nat) (v : Word) (n : Nat) (h : m.wf = true) :
    (m.writeBytes a v n).wf = true := by
  induction n with
  | zero => exact h
  | succ n ih => exact Memory.wf_writeByte _ _ _ ih

/-- Every word write keeps the canonical form. -/
theorem Memory.wf_writeWord (m : Memory) (a : Nat) (v : Word) (h : m.wf = true) : (m.writeWord a v).wf = true :=
  Memory.wf_writeBytes m a v 8 h

theorem Memory.readByte_of_lt (m : Memory) (a : Nat) (h : ∀ c ∈ m, a < c.1) : m.readByte a = Memory.unlisted := by
  induction m with
  | nil => rfl
  | cons c m ih =>
    obtain ⟨x, v⟩ := c
    have hx : a < x := h (x, v) (List.mem_cons_self ..)
    rw [Memory.readByte_cons, if_neg (by omega)]
    exact ih (fun c hc => h c (List.mem_cons_of_mem _ hc))

/-- Equal memories are equal data: two canonical memories that read alike at every byte are the same list. -/
theorem Memory.eq_of_readByte_eq (m m' : Memory) (h : m.wf = true) (h' : m'.wf = true)
    (e : ∀ a, m.readByte a = m'.readByte a) : m = m' := by
  rw [Memory.wf_iff] at h h'
  induction m generalizing m' with
  | nil =>
    cases m' with
    | nil => rfl
    | cons d m' =>
      obtain ⟨y, w⟩ := d
      have := e y
      rw [Memory.readByte_cons, if_pos rfl] at this
      exact absurd this.symm (h'.2 (y, w) (List.mem_cons_self ..))
  | cons c m ih =>
    obtain ⟨x, v⟩ := c
    cases m' with
    | nil =>
      have := e x
      rw [Memory.readByte_cons, if_pos rfl] at this
      exact absurd this (h.2 (x, v) (List.mem_cons_self ..))
    | cons d m' =>
      obtain ⟨y, w⟩ := d
      obtain ⟨hp, hu⟩ := h
      obtain ⟨hp', hu'⟩ := h'
      simp only [List.map_cons, List.pairwise_cons] at hp hp'
      have hm : ∀ c ∈ m, x < c.1 := fun c hc => hp.1 _ (List.mem_map_of_mem hc)
      have hm' : ∀ c ∈ m', y < c.1 := fun c hc => hp'.1 _ (List.mem_map_of_mem hc)
      have hxy : x = y := by
        by_contra hne
        rcases Nat.lt_or_gt_of_ne hne with hlt | hlt
        · have := e x
          rw [Memory.readByte_cons, if_pos rfl, Memory.readByte_cons, if_neg (by omega),
            Memory.readByte_of_lt m' x (fun c hc => by have := hm' c hc; omega)] at this
          exact hu (x, v) (List.mem_cons_self ..) this
        · have := e y
          rw [Memory.readByte_cons, if_neg (by omega), Memory.readByte_cons, if_pos rfl,
            Memory.readByte_of_lt m y (fun c hc => by have := hm c hc; omega)] at this
          exact hu' (y, w) (List.mem_cons_self ..) this.symm
      subst hxy
      have hvw : v = w := by
        have := e x
        rwa [Memory.readByte_cons, if_pos rfl, Memory.readByte_cons, if_pos rfl] at this
      subst hvw
      have : m = m' := by
        refine ih m' ⟨hp.2, fun c hc => hu c (List.mem_cons_of_mem _ hc)⟩
          ⟨hp'.2, fun c hc => hu' c (List.mem_cons_of_mem _ hc)⟩ (fun a => ?_)
        have := e a
        rw [Memory.readByte_cons, Memory.readByte_cons] at this
        by_cases hxa : x = a
        · subst hxa
          rw [Memory.readByte_of_lt m x hm, Memory.readByte_of_lt m' x hm']
        · rwa [if_neg hxa, if_neg hxa] at this
      rw [this]

/-! ## Words -/

theorem Memory.readByte_writeBytes (m : Memory) (a : Nat) (v : Word) (n x : Nat) :
    (m.writeBytes a v n).readByte x =
      if 8 * a ≤ x ∧ x < 8 * a + n then v.extractLsb' (8 * (x - 8 * a)) 8 else m.readByte x := by
  induction n with
  | zero => rw [if_neg (by omega)]; rfl
  | succ n ih =>
    simp only [Memory.writeBytes, Memory.readByte_writeByte, ih]
    by_cases h : x = 8 * a + n
    · subst h
      rw [if_pos rfl, if_pos (by omega)]
      congr 2; omega
    · rw [if_neg h]
      by_cases h2 : 8 * a ≤ x ∧ x < 8 * a + n
      · rw [if_pos h2, if_pos (by omega)]
      · rw [if_neg h2, if_neg (by omega)]

/-- What a byte reads as after a word write: a byte of the word written has the word's bits (R64), every other byte is as
before. -/
theorem Memory.readByte_writeWord (m : Memory) (a : Nat) (v : Word) (x : Nat) :
    (m.writeWord a v).readByte x =
      if x / 8 = a then v.extractLsb' (8 * (x % 8)) 8 else m.readByte x := by
  rw [Memory.writeWord, Memory.readByte_writeBytes]
  by_cases h : x / 8 = a
  · rw [if_pos h, if_pos (by omega)]
    congr 2; omega
  · rw [if_neg h, if_neg (by omega)]

/-- The bits of a word are those of its eight bytes in little-endian order (R64). -/
theorem Memory.getLsbD_readWord (m : Memory) (a b : Nat) (hb : b < 64) :
    (m.readWord a).getLsbD b = (m.readByte (8 * a + b / 8)).getLsbD (b % 8) := by
  have h8 : b / 8 = 0 ∨ b / 8 = 1 ∨ b / 8 = 2 ∨ b / 8 = 3 ∨ b / 8 = 4 ∨ b / 8 = 5 ∨ b / 8 = 6 ∨ b / 8 = 7 := by omega
  have hm : b % 8 = b - 8 * (b / 8) := by omega
  simp only [Memory.readWord, BitVec.getLsbD_append]
  rcases h8 with h | h | h | h | h | h | h | h <;> rw [hm, h] <;>
    (repeat' (first | rw [if_pos (by omega)] | rw [if_neg (by omega)])) <;>
    (try simp only [Nat.add_zero]) <;> (congr 1)

/-- Read after write, for words (R11): the word written reads as written, every other word as before. -/
@[simp] theorem Memory.readWord_writeWord (m : Memory) (a : Nat) (v : Word) (x : Nat) :
    (m.writeWord a v).readWord x = if x = a then v else m.readWord x := by
  apply BitVec.eq_of_getLsbD_eq
  intro b hb
  rw [Memory.getLsbD_readWord _ _ _ hb, Memory.readByte_writeWord]
  by_cases h : x = a
  · subst h
    have h1 : (8 * x + b / 8) / 8 = x := by omega
    have h2 : (8 * x + b / 8) % 8 = b / 8 := by omega
    rw [if_pos h1, if_pos rfl, h2, BitVec.getLsbD_extractLsb']
    have : 8 * (b / 8) + b % 8 = b := by omega
    simp [this, Nat.mod_lt]
  · have h1 : ¬ (8 * x + b / 8) / 8 = a := by omega
    rw [if_neg h1, if_neg h, Memory.getLsbD_readWord _ _ _ hb]

/-- A byte is the eight bits of the word it lies in (R64). -/
theorem Memory.readByte_eq_extract (m : Memory) (x : Nat) :
    m.readByte x = (m.readWord (x / 8)).extractLsb' (8 * (x % 8)) 8 := by
  apply BitVec.eq_of_getLsbD_eq
  intro b hb
  rw [BitVec.getLsbD_extractLsb', Memory.getLsbD_readWord _ _ _ (by omega)]
  have h1 : 8 * (x / 8) + (8 * (x % 8) + b) / 8 = x := by omega
  have h2 : (8 * (x % 8) + b) % 8 = b := by omega
  simp [h1, h2, hb]

/-- Two canonical memories that read alike at every word are the same list. -/
theorem Memory.eq_of_readWord_eq (m m' : Memory) (h : m.wf = true) (h' : m'.wf = true)
    (e : ∀ a, m.readWord a = m'.readWord a) : m = m' :=
  Memory.eq_of_readByte_eq m m' h h' (fun a => by rw [Memory.readByte_eq_extract, Memory.readByte_eq_extract, e])

/-- Writing the word that is already there changes nothing, in canonical form. -/
theorem Memory.writeWord_self (m : Memory) (a : Nat) (h : m.wf = true) : m.writeWord a (m.readWord a) = m := by
  refine Memory.eq_of_readWord_eq _ _ (Memory.wf_writeWord _ _ _ h) h (fun x => ?_)
  rw [Memory.readWord_writeWord]
  by_cases hx : x = a
  · rw [if_pos hx, hx]
  · rw [if_neg hx]

@[simp] theorem Memory.bit_writeWord (m : Memory) (a : Nat) (v : Word) (x b : Nat) :
    (m.writeWord a v).bit x b = if x = a then v.getLsbD b else m.bit x b := by
  unfold Memory.bit
  rw [Memory.readWord_writeWord]
  split <;> rfl

/-- A memory cell that is not listed reads as an unlisted one. -/
theorem Memory.readByte_of_not_mem (m : Memory) (a : Nat) (h : a ∉ m.map Prod.fst) :
    m.readByte a = Memory.unlisted := by
  induction m with
  | nil => rfl
  | cons c m ih =>
    obtain ⟨x, v⟩ := c
    simp only [List.map_cons, List.mem_cons, not_or] at h
    rw [Memory.readByte_cons, if_neg (fun e => h.1 e.symm)]
    exact ih h.2

/-- Memories that agree on the eight bytes of a word agree on the word. -/
theorem Memory.readWord_congr (m m' : Memory) (a : Nat)
    (h : ∀ j < 8, m.readByte (8 * a + j) = m'.readByte (8 * a + j)) : m.readWord a = m'.readWord a := by
  apply BitVec.eq_of_getLsbD_eq
  intro b hb
  rw [Memory.getLsbD_readWord _ _ _ hb, Memory.getLsbD_readWord _ _ _ hb, h _ (by omega)]

/-- What `differsUnder` decides: some word differs in a bit the mask selects. -/
theorem Memory.differsUnder_iff (m m' : Memory) (mask : Nat → Word) :
    m.differsUnder m' mask = true ↔ ∃ a, (m.readWord a ^^^ m'.readWord a) &&& mask a ≠ 0 := by
  unfold Memory.differsUnder
  rw [List.any_eq_true]
  constructor
  · rintro ⟨c, _, hc⟩
    exact ⟨c.1 / 8, by simpa using hc⟩
  · rintro ⟨a, ha⟩
    by_contra hno
    apply ha
    have hlisted : ∀ j < 8, 8 * a + j ∉ m.map Prod.fst ∧ 8 * a + j ∉ m'.map Prod.fst := by
      intro j hj
      have hd : (8 * a + j) / 8 = a := by omega
      refine ⟨fun hmem => hno ?_, fun hmem => hno ?_⟩
      · obtain ⟨c, hc, hce⟩ := List.mem_map.1 hmem
        exact ⟨c, List.mem_append_left _ hc, by simpa [hce, hd] using ha⟩
      · obtain ⟨c, hc, hce⟩ := List.mem_map.1 hmem
        exact ⟨c, List.mem_append_right _ hc, by simpa [hce, hd] using ha⟩
    have : m.readWord a = m'.readWord a := Memory.readWord_congr m m' a (fun j hj => by
      rw [Memory.readByte_of_not_mem m _ (hlisted j hj).1, Memory.readByte_of_not_mem m' _ (hlisted j hj).2])
    simp [this]

theorem Memory.differsUnder_self (m : Memory) (mask : Nat → Word) : m.differsUnder m mask = false := by
  rw [Bool.eq_false_iff, ne_eq, Memory.differsUnder_iff]
  rintro ⟨a, ha⟩
  exact ha (by simp)

/-! ## The lock table -/

theorem LockTable.holder_release (t : LockTable) (b x : Nat) :
    (t.release b).holder x = if x = b then none else t.holder x := by
  induction t with
  | nil => simp [LockTable.release, LockTable.holder]
  | cons e t ih =>
    obtain ⟨y, u⟩ := e
    unfold LockTable.release at ih ⊢
    by_cases h : y = b
    · subst h
      by_cases hx : x = y
      · simp_all
      · have hx' : ¬ y = x := fun e => hx e.symm
        simp_all [LockTable.holder]
    · simp only [List.filter_cons, bne_iff_ne, ne_eq, h, not_false_eq_true, if_true, LockTable.holder, ih]
      by_cases hx : y = x
      · subst hx; simp [h]
      · simp [hx]

theorem LockTable.holder_insert (t : LockTable) (b u x : Nat) (hn : b ∉ t.map Prod.fst) :
    (t.insert b u).holder x = if x = b then some u else t.holder x := by
  induction t with
  | nil =>
    by_cases hx : x = b
    · simp [LockTable.insert, LockTable.holder, hx]
    · have : ¬ b = x := fun e => hx e.symm
      simp [LockTable.insert, LockTable.holder, hx, this]
  | cons c t ih =>
    obtain ⟨y, w⟩ := c
    simp only [List.map_cons, List.mem_cons, not_or] at hn
    simp only [LockTable.insert]
    split
    · by_cases hx : x = b
      · simp [LockTable.holder, hx]
      · have : ¬ b = x := fun e => hx e.symm
        simp [LockTable.holder, hx, this]
    · simp only [LockTable.holder]
      rw [ih hn.2]
      by_cases hx : x = b
      · subst hx
        have : ¬ y = x := fun e => hn.1 e.symm
        simp [this]
      · simp [hx]

theorem LockTable.not_mem_release (t : LockTable) (b : Nat) : b ∉ (t.release b).map Prod.fst := by
  simp [LockTable.release]

/-- After `ACQ(b)` by unit `u`, `LOCK[b]` is `held(u)` and every other entry is as before (R69). -/
@[simp] theorem LockTable.holder_acquire (t : LockTable) (b u x : Nat) :
    (t.acquire b u).holder x = if x = b then some u else t.holder x := by
  unfold LockTable.acquire
  rw [LockTable.holder_insert _ _ _ _ (LockTable.not_mem_release t b), LockTable.holder_release]
  by_cases hx : x = b <;> simp [hx]

theorem LockTable.wf_iff (t : LockTable) : t.wf = true ↔ (t.map Prod.fst).Pairwise (· < ·) := by
  induction t with
  | nil => simp [LockTable.wf]
  | cons c t ih =>
    obtain ⟨x, v⟩ := c
    cases t with
    | nil => simp [LockTable.wf]
    | cons d t =>
      obtain ⟨y, w⟩ := d
      simp only [LockTable.wf, Bool.and_eq_true, decide_eq_true_eq, ih, List.map_cons, List.pairwise_cons,
        List.mem_cons, List.mem_map]
      constructor
      · rintro ⟨h, h1, h2⟩
        refine ⟨?_, h1, h2⟩
        rintro a (rfl | ⟨b, hb, rfl⟩)
        · exact h
        · exact lt_trans h (h1 _ ⟨b, hb, rfl⟩)
      · rintro ⟨h, h1, h2⟩
        exact ⟨h _ (Or.inl rfl), h1, h2⟩

theorem LockTable.mem_insert (t : LockTable) (b u : Nat) (e : Nat × Nat) :
    e ∈ t.insert b u ↔ e = (b, u) ∨ e ∈ t := by
  induction t with
  | nil => simp [LockTable.insert]
  | cons d t ih =>
    obtain ⟨x, w⟩ := d
    simp only [LockTable.insert]
    split
    · simp
    · simp only [List.mem_cons, ih]; tauto

/-- `REL` keeps the form of the lock table. -/
theorem LockTable.wf_release (t : LockTable) (b : Nat) (h : t.wf = true) : (t.release b).wf = true := by
  rw [LockTable.wf_iff] at h ⊢
  exact h.sublist ((List.filter_sublist (l := t)).map _)

/-- `ACQ` keeps the form of the lock table. -/
theorem LockTable.wf_acquire (t : LockTable) (b u : Nat) (h : t.wf = true) : (t.acquire b u).wf = true := by
  have hr := LockTable.wf_release t b h
  have hn := LockTable.not_mem_release t b
  unfold LockTable.acquire
  generalize t.release b = r at hr hn
  rw [LockTable.wf_iff] at hr ⊢
  induction r with
  | nil => simp [LockTable.insert]
  | cons d r ih =>
    obtain ⟨x, w⟩ := d
    simp only [List.map_cons, List.pairwise_cons, List.mem_cons, not_or] at hr hn
    simp only [LockTable.insert]
    split
    · next hlt =>
      simp only [List.map_cons, List.pairwise_cons, List.mem_cons]
      refine ⟨?_, hr⟩
      rintro a (rfl | ha)
      · exact hlt
      · exact lt_trans hlt (hr.1 a ha)
    · simp only [List.map_cons, List.pairwise_cons]
      refine ⟨?_, ih hr.2 hn.2⟩
      intro a ha
      simp only [List.mem_map, LockTable.mem_insert] at ha
      obtain ⟨c, rfl | hc, rfl⟩ := ha
      · have := hn.1; simp only; omega
      · exact hr.1 _ (List.mem_map_of_mem hc)

end Sys2Proof.Machine
end

