-- ==== Sys2Proof/Laws/State.lean ====
section
/-! SUPPORT. One lemma per field per update of the state and of a unit, so that no later proof unfolds an update. -/

namespace Sys2Proof.Machine

/-! ## `setUnit` -/

@[simp] theorem State.setUnit_memWords (s : State) (u : Nat) (x : UnitState) : (s.setUnit u x).memWords = s.memWords := rfl
@[simp] theorem State.setUnit_mem (s : State) (u : Nat) (x : UnitState) : (s.setUnit u x).mem = s.mem := rfl
@[simp] theorem State.setUnit_lock (s : State) (u : Nat) (x : UnitState) : (s.setUnit u x).lock = s.lock := rfl
@[simp] theorem State.setUnit_units (s : State) (u : Nat) (x : UnitState) : (s.setUnit u x).units = s.units.set u x := rfl
@[simp] theorem State.setUnit_active (s : State) (u : Nat) (x : UnitState) : (s.setUnit u x).active = s.active := rfl
@[simp] theorem State.setUnit_turns (s : State) (u : Nat) (x : UnitState) : (s.setUnit u x).turns = s.turns := rfl
@[simp] theorem State.setUnit_freeCtr (s : State) (u : Nat) (x : UnitState) : (s.setUnit u x).freeCtr = s.freeCtr := rfl

/-- Writing a unit back unchanged changes nothing. -/
theorem State.setUnit_self (s : State) (u : Nat) (x : UnitState) (h : s.units[u]? = some x) : s.setUnit u x = s := by
  obtain ⟨hu, rfl⟩ := List.getElem?_eq_some_iff.1 h
  simp [State.setUnit]

/-- The unit written reads as written. -/
theorem State.setUnit_get (s : State) (u : Nat) (x y : UnitState) (h : s.units[u]? = some y) :
    (s.setUnit u x).units[u]? = some x := by
  obtain ⟨hu, -⟩ := List.getElem?_eq_some_iff.1 h
  simp [hu]

/-- Every other unit is as before (R329). -/
theorem State.setUnit_get_other (s : State) (u v : Nat) (x : UnitState) (h : u ≠ v) :
    (s.setUnit u x).units[v]? = s.units[v]? := by
  simp [h]

/-! ## A unit's own updates -/

@[simp] theorem UnitState.accept_cur (x : UnitState) (d : Desc) : (x.accept d).cur = d := rfl
@[simp] theorem UnitState.accept_res (x : UnitState) (d : Desc) : (x.accept d).res = x.res := rfl
@[simp] theorem UnitState.accept_job (x : UnitState) (d : Desc) : (x.accept d).job = none := rfl
@[simp] theorem UnitState.accept_raced (x : UnitState) (d : Desc) : (x.accept d).raced = false := rfl
@[simp] theorem UnitState.accept_stat (x : UnitState) (d : Desc) : (x.accept d).stat = setBusy x.stat := rfl
@[simp] theorem UnitState.accept_offered (x : UnitState) (d : Desc) : (x.accept d).offered = x.offered := rfl

@[simp] theorem UnitState.complete_stat (x : UnitState) (c : Nat) (o : Bool) (r : Word) :
    (x.complete c o r).stat = statWord false o c := rfl
@[simp] theorem UnitState.complete_res (x : UnitState) (c : Nat) (o : Bool) (r : Word) : (x.complete c o r).res = r := rfl
@[simp] theorem UnitState.complete_job (x : UnitState) (c : Nat) (o : Bool) (r : Word) :
    (x.complete c o r).job = none := rfl
@[simp] theorem UnitState.complete_raced (x : UnitState) (c : Nat) (o : Bool) (r : Word) :
    (x.complete c o r).raced = false := rfl
@[simp] theorem UnitState.complete_cur (x : UnitState) (c : Nat) (o : Bool) (r : Word) :
    (x.complete c o r).cur = x.cur := rfl
@[simp] theorem UnitState.complete_offered (x : UnitState) (c : Nat) (o : Bool) (r : Word) :
    (x.complete c o r).offered = x.offered := rfl

@[simp] theorem UnitState.raise_stat (x : UnitState) (e : Err) : (x.raise e).stat = statWord false false e.code := rfl
@[simp] theorem UnitState.raise_res (x : UnitState) (e : Err) : (x.raise e).res = 0 := rfl
@[simp] theorem UnitState.raise_job (x : UnitState) (e : Err) : (x.raise e).job = none := rfl
@[simp] theorem UnitState.raise_raced (x : UnitState) (e : Err) : (x.raise e).raced = false := rfl
@[simp] theorem UnitState.raise_cur (x : UnitState) (e : Err) : (x.raise e).cur = x.cur := rfl
@[simp] theorem UnitState.raise_offered (x : UnitState) (e : Err) : (x.raise e).offered = x.offered := rfl

@[simp] theorem UnitState.done_stat (x : UnitState) (o : Bool) (r : Word) : (x.done o r).stat = statWord false o 0 := rfl
@[simp] theorem UnitState.done_res (x : UnitState) (o : Bool) (r : Word) : (x.done o r).res = r := rfl
@[simp] theorem UnitState.done_job (x : UnitState) (o : Bool) (r : Word) : (x.done o r).job = none := rfl
@[simp] theorem UnitState.done_raced (x : UnitState) (o : Bool) (r : Word) : (x.done o r).raced = false := rfl
@[simp] theorem UnitState.done_cur (x : UnitState) (o : Bool) (r : Word) : (x.done o r).cur = x.cur := rfl
@[simp] theorem UnitState.done_offered (x : UnitState) (o : Bool) (r : Word) : (x.done o r).offered = x.offered := rfl

@[simp] theorem UnitState.clear_stat (x : UnitState) : x.clear.stat = 0 := rfl
@[simp] theorem UnitState.clear_res (x : UnitState) : x.clear.res = 0 := rfl
@[simp] theorem UnitState.clear_job (x : UnitState) : x.clear.job = none := rfl
@[simp] theorem UnitState.clear_raced (x : UnitState) : x.clear.raced = false := rfl
@[simp] theorem UnitState.clear_offered (x : UnitState) : x.clear.offered = x.offered := rfl

/-! ## `notice`: only the mark of interference can change -/

@[simp] theorem UnitState.notice_stat (n : Nat) (m m' : Memory) (x : UnitState) : (x.notice n m m').stat = x.stat := by
  unfold UnitState.notice; split <;> rfl
@[simp] theorem UnitState.notice_res (n : Nat) (m m' : Memory) (x : UnitState) : (x.notice n m m').res = x.res := by
  unfold UnitState.notice; split <;> rfl
@[simp] theorem UnitState.notice_cur (n : Nat) (m m' : Memory) (x : UnitState) : (x.notice n m m').cur = x.cur := by
  unfold UnitState.notice; split <;> rfl
@[simp] theorem UnitState.notice_job (n : Nat) (m m' : Memory) (x : UnitState) : (x.notice n m m').job = x.job := by
  unfold UnitState.notice; split <;> rfl
@[simp] theorem UnitState.notice_offered (n : Nat) (m m' : Memory) (x : UnitState) :
    (x.notice n m m').offered = x.offered := by
  unfold UnitState.notice; split <;> rfl
@[simp] theorem UnitState.notice_busy (n : Nat) (m m' : Memory) (x : UnitState) : (x.notice n m m').busy = x.busy := by
  unfold UnitState.busy; rw [UnitState.notice_stat]

@[simp] theorem State.noticeAll_memWords (s : State) (w : Option Nat) (m : Memory) :
    (s.noticeAll w m).memWords = s.memWords := rfl
@[simp] theorem State.noticeAll_mem (s : State) (w : Option Nat) (m : Memory) : (s.noticeAll w m).mem = s.mem := rfl
@[simp] theorem State.noticeAll_lock (s : State) (w : Option Nat) (m : Memory) : (s.noticeAll w m).lock = s.lock := rfl
@[simp] theorem State.noticeAll_active (s : State) (w : Option Nat) (m : Memory) :
    (s.noticeAll w m).active = s.active := rfl
@[simp] theorem State.noticeAll_turns (s : State) (w : Option Nat) (m : Memory) : (s.noticeAll w m).turns = s.turns := rfl
@[simp] theorem State.noticeAll_freeCtr (s : State) (w : Option Nat) (m : Memory) :
    (s.noticeAll w m).freeCtr = s.freeCtr := rfl
@[simp] theorem State.noticeAll_length (s : State) (w : Option Nat) (m : Memory) :
    (s.noticeAll w m).units.length = s.units.length := by
  simp [State.noticeAll]

/-- A unit after the others have noticed: the agent itself is as before, any other unit may be marked. -/
theorem State.noticeAll_get (s : State) (w : Option Nat) (m : Memory) (j : Nat) :
    (s.noticeAll w m).units[j]? =
      (s.units[j]?).map (fun x => if w = some j then x else x.notice s.memWords m s.mem) := by
  simp [State.noticeAll, List.getElem?_mapIdx]

/-- The acting unit itself does not notice its own writes. -/
theorem State.noticeAll_get_self (s : State) (u : Nat) (m : Memory) :
    (s.noticeAll (some u) m).units[u]? = s.units[u]? := by
  rw [State.noticeAll_get]; simp

/-! ## The free values -/

@[simp] theorem freeUpds_length (n : Nat) (us : List Upd) : (freeUpds n us).length = us.length := by
  induction us generalizing n with
  | nil => rfl
  | cons u us ih => simp [freeUpds, ih]

/-- The raced command writes the same words under the same masks (R79). -/
theorem freeUpds_addr_mask (n : Nat) (us : List Upd) :
    (freeUpds n us).map (fun u => (u.addr, u.mask)) = us.map (fun u => (u.addr, u.mask)) := by
  induction us generalizing n with
  | nil => rfl
  | cons u us ih => simp [freeUpds, ih]

/-! ## Carrying out a raced command as one step -/

section

variable (s : State) (x : UnitState) (w : Work)

@[simp] theorem State.performRaced_memWords : (s.performRaced x w).memWords = s.memWords := rfl
@[simp] theorem State.performRaced_lock : (s.performRaced x w).lock = s.lock := rfl
@[simp] theorem State.performRaced_turns : (s.performRaced x w).turns = s.turns := rfl
@[simp] theorem State.performRaced_active : (s.performRaced x w).active = s.active := rfl
@[simp] theorem State.performRaced_units :
    (s.performRaced x w).units = s.units.set s.active (x.done w.ovl (Config.freeWord s.freeCtr)) := rfl
@[simp] theorem State.performRaced_mem :
    (s.performRaced x w).mem = applyUpds s.mem (freeUpds (s.freeCtr + 1) w.todo) := rfl
@[simp] theorem State.performRaced_freeCtr : (s.performRaced x w).freeCtr = s.freeCtr + 1 + w.todo.length := rfl

end

/-! ## Foretelling -/

section

variable (x : UnitState) (j : Job) (s : State) (v : Word)

/-- Nothing is owed to a unit whose command has been raced. -/
theorem UnitState.owed_raced (h : x.raced = true) : x.owed = false := by
  unfold UnitState.owed
  split <;> simp [h]

/-- Nothing is owed to a unit with no command in progress. -/
theorem UnitState.owed_idle (h : x.job = none) : x.owed = false := by simp [UnitState.owed, h]

/-- An undisturbed command, of which no interference is foretold, delivers its own values (R78). -/
theorem updValue_own (hj : x.job = some j) (hf : j.foretold = false) (hr : x.raced = false) :
    updValue s x v = v ∧ nextCtr s x = s.freeCtr := by
  simp [updValue, nextCtr, UnitState.anyValue, hj, hf, hr]

/-- A command another agent interferes with delivers a value of its own draw (R79). -/
theorem updValue_free (hj : x.job = some j) (h : x.raced = true ∨ j.foretold = true) :
    updValue s x v = Config.freeWord s.freeCtr ∧ nextCtr s x = s.freeCtr + 1 := by
  rcases h with h | h <;> simp [updValue, nextCtr, UnitState.anyValue, hj, h]

/-- Nothing is owed to any unit exactly when the schedule has kept what it foretold. -/
theorem State.findIdx_owed_none :
    s.units.findIdx? UnitState.owed = none ↔ ∀ x ∈ s.units, x.owed = false := by
  simp [List.findIdx?_eq_none_iff]

end

/-! ## What a running command still has to write -/

@[simp] theorem Pending.upd_waiting (d : Upd) : (Pending.waiting d).upd = d := rfl
@[simp] theorem Pending.upd_fetched (d : Upd) (old : Word) : (Pending.fetched d old).upd = d := rfl

section

variable (p : Plan) (ps : List Pending) (d : Upd) (old : Word) (f : Bool)

@[simp] theorem Job.pending_between : (Job.mk p ps .between f).pending = ps.map Pending.upd := rfl
@[simp] theorem Job.pending_acquired : (Job.mk p ps (.acquired d) f).pending = d :: ps.map Pending.upd := rfl
@[simp] theorem Job.pending_fetched : (Job.mk p ps (.fetched d old) f).pending = d :: ps.map Pending.upd := rfl
@[simp] theorem Job.pending_written : (Job.mk p ps .written f).pending = ps.map Pending.upd := rfl

end

end Sys2Proof.Machine
end

