-- ==== Sys2Proof/Laws/Ops.lean ====
section
/-! SUPPORT. One lemma per shared operation of `Machine/Ops.lean` that says once everything it can do. -/

namespace Sys2Proof.Machine

/-- A completed unit is idle (R148, R149). -/
theorem complete_busy (x : UnitState) (c : Nat) (o : Bool) (r : Word) : (x.complete c o r).busy = false :=
  statWord_busy false o c

/-- After an error the unit is idle (R323). -/
@[simp] theorem raise_busy (x : UnitState) (e : Err) : (x.raise e).busy = false := complete_busy x e.code false 0

/-- After a success the unit is idle (R149). -/
@[simp] theorem done_busy (x : UnitState) (o : Bool) (r : Word) : (x.done o r).busy = false := complete_busy x 0 o r

/-! ## The check sequence -/

/-- A command executes exactly when every check passes, and then it executes its own work (R141). -/
theorem checkSequence_eq_work (bad : Bool) (empty : Option Word) (bus range al : Bool) (w : Unit → Work) (w' : Work) :
    checkSequence bad empty bus range al w = .work w' ↔
      bad = false ∧ empty = none ∧ bus = false ∧ range = false ∧ al = false ∧ w () = w' := by
  cases bad <;> cases empty <;> cases bus <;> cases range <;> cases al <;> simp [checkSequence]

/-- A command ends in an error exactly when some check fails, and then in the error of the first that does (R141,
R320). -/
theorem checkSequence_eq_fail (bad : Bool) (empty : Option Word) (bus range al : Bool) (w : Unit → Work) (e : Err) :
    checkSequence bad empty bus range al w = .fail e ↔
      (bad = true ∧ e = .invalidArg) ∨ (bad = false ∧ empty = none ∧ bus = true ∧ e = .bus) ∨
        (bad = false ∧ empty = none ∧ bus = false ∧ range = true ∧ e = .range) ∨
        (bad = false ∧ empty = none ∧ bus = false ∧ range = false ∧ al = true ∧ e = .aliasing) := by
  cases bad <;> cases empty <;> cases bus <;> cases range <;> cases al <;> simp [checkSequence, eq_comm]

/-- A command completes early exactly when its operands are legal and its range is empty (R144). -/
theorem checkSequence_eq_early (bad : Bool) (empty : Option Word) (bus range al : Bool) (w : Unit → Work) (r : Word) :
    checkSequence bad empty bus range al w = .early r ↔ bad = false ∧ empty = some r := by
  cases bad <;> cases empty <;> cases bus <;> cases range <;> cases al <;> simp [checkSequence]

/-- Step 6 is passed exactly when the range is not empty (R144). -/
theorem emptyResult_eq_none (n : Nat) (r : Word) : emptyResult n r = none ↔ 0 < n := by
  unfold emptyResult
  split <;> simp <;> omega

/-! ## Updates of memory -/

/-- The updates keep the canonical form. -/
theorem wf_applyUpds (us : List Upd) (m : Memory) (h : m.wf = true) : (applyUpds m us).wf = true := by
  induction us generalizing m with
  | nil => exact h
  | cons u us ih => exact ih _ (Memory.wf_writeWord _ _ _ h)

/-- A word no update names is as before (R76). -/
theorem readWord_applyUpds_other (us : List Upd) (m : Memory) (a : Nat) (h : a ∉ us.map Upd.addr) :
    (applyUpds m us).readWord a = m.readWord a := by
  induction us generalizing m with
  | nil => rfl
  | cons u us ih =>
    simp only [List.map_cons, List.mem_cons, not_or] at h
    have := ih (applyUpd m u) h.2
    simp only [applyUpds, List.foldl_cons] at this ⊢
    rw [this, applyUpd, Memory.readWord_writeWord, if_neg h.1]

/-- A word that exactly one update names gets that update (R76, R151). -/
theorem readWord_applyUpds_mem (us : List Upd) (m : Memory) (u : Upd) (hu : u ∈ us)
    (hd : (us.map Upd.addr).Nodup) :
    (applyUpds m us).readWord u.addr = merge (m.readWord u.addr) u.mask u.val := by
  induction us generalizing m with
  | nil => simp at hu
  | cons d us ih =>
    simp only [List.map_cons, List.nodup_cons] at hd
    rcases List.mem_cons.1 hu with rfl | hu
    · have := readWord_applyUpds_other us (applyUpd m u) u.addr hd.1
      simp only [applyUpds, List.foldl_cons] at this ⊢
      rw [this, applyUpd, Memory.readWord_writeWord, if_pos rfl]
    · have hne : u.addr ≠ d.addr := fun e => hd.1 (e ▸ List.mem_map_of_mem hu)
      have := ih (applyUpd m d) hu hd.2
      simp only [applyUpds, List.foldl_cons] at this ⊢
      rw [this, applyUpd, Memory.readWord_writeWord, if_neg hne]

@[simp] theorem rangeUpdates_addr (m : Memory) (base pos n : Nat) (v : Nat → Word → Word) :
    (rangeUpdates m base pos n v).map Upd.addr = (rangeWords pos n).map (base + ·) := by
  simp [rangeUpdates, Function.comp_def]

/-- The updates of a range name each word once (R76). -/
theorem rangeUpdates_nodup (m : Memory) (base pos n : Nat) (v : Nat → Word → Word) :
    ((rangeUpdates m base pos n v).map Upd.addr).Nodup := by
  rw [rangeUpdates_addr]
  exact (rangeWords_nodup pos n).map (fun a b h => Nat.add_left_cancel h)

/-- What the updates of a range do, bit by bit (R151, R155): a bit of the destination range gets its bit of `v(w)`, every
other bit of memory is as before. -/
theorem bit_applyUpds_rangeUpdates (m : Memory) (base pos n : Nat) (v : Nat → Word → Word) (a b : Nat) (hn : 0 < n)
    (hb : b < 64) :
    (applyUpds m (rangeUpdates m base pos n v)).bit a b =
      if 64 * base + pos ≤ 64 * a + b ∧ 64 * a + b < 64 * base + pos + n
      then (v (a - base) (m.readWord a)).getLsbD b else m.bit a b := by
  unfold Memory.bit
  by_cases ha : a ∈ (rangeUpdates m base pos n v).map Upd.addr
  · rw [rangeUpdates_addr, List.mem_map] at ha
    obtain ⟨w, hw, rfl⟩ := ha
    have hmem : (⟨base + w, wordMask pos n w, v w (m.readWord (base + w))⟩ : Upd) ∈ rangeUpdates m base pos n v := by
      rw [rangeUpdates, List.mem_map]
      exact ⟨w, hw, rfl⟩
    rw [readWord_applyUpds_mem _ m _ hmem (rangeUpdates_nodup m base pos n v), getLsbD_merge, getLsbD_wordMask]
    have hsub : base + w - base = w := by omega
    rw [hsub]
    by_cases hr : pos ≤ 64 * w + b ∧ 64 * w + b < pos + n
    · rw [if_pos (by simp only [decide_eq_true_eq]; omega), if_pos (by omega)]
    · rw [if_neg (by simp only [decide_eq_true_eq]; omega), if_neg (by omega)]
  · rw [readWord_applyUpds_other _ m a ha, if_neg]
    intro hr
    apply ha
    rw [rangeUpdates_addr, List.mem_map]
    refine ⟨a - base, ?_, by omega⟩
    rw [mem_rangeWords pos n _ hn]
    omega

/-! ## Carrying out a plan -/

/-- Everything `carryOut` can answer: a fault when there is no such unit, else the next state `perform` gives. -/
theorem carryOut_eq (s : State) (p : Plan) (x : UnitState) (h : s.units[s.active]? = some x) :
    carryOut s p = .next (s.perform x p) := by
  rw [carryOut, h]

/-- If a plan goes on to a state, that state is `perform`'s on the unit there is. -/
theorem carryOut_next (s t : State) (p : Plan) (h : carryOut s p = .next t) :
    ∃ x, s.units[s.active]? = some x ∧ t = s.perform x p := by
  unfold carryOut at h
  split at h
  · cases h
  · next x hx => exact ⟨x, hx, by cases h; rfl⟩

@[simp] theorem perform_fail (s : State) (x : UnitState) (e : Err) :
    s.perform x (.fail e) = s.setUnit s.active (x.raise e) := rfl

@[simp] theorem perform_early (s : State) (x : UnitState) (r : Word) :
    s.perform x (.early r) = s.setUnit s.active (x.done false r) := rfl

/-- A unit that must wait for a lock does nothing (R72). -/
theorem perform_wait (s : State) (x : UnitState) (w : Work) (h : w.mustWait s.lock = true) :
    s.perform x (.work w) = s := by
  rw [State.perform, if_pos h]

/-- Work with no interference (R78): the unit completes and the updates are made. -/
theorem perform_work (s : State) (x : UnitState) (w : Work) (h : w.mustWait s.lock = false) (hr : x.raced = false) :
    s.perform x (.work w) = { s.setUnit s.active (x.done w.ovl w.res) with mem := applyUpds s.mem w.todo } := by
  rw [State.perform, if_neg (by simp [h]), if_neg (by simp [hr])]

/-- Work of a raced command (R79): the unit completes, with free values in place of its own. -/
theorem perform_raced (s : State) (x : UnitState) (w : Work) (h : w.mustWait s.lock = false) (hr : x.raced = true) :
    s.perform x (.work w) = s.performRaced x w := by
  rw [State.perform, if_neg (by simp [h]), if_pos hr]

/-- The three things carrying out work can be: waiting, a raced command's completion, an undisturbed completion. -/
theorem perform_work_cases (s : State) (x : UnitState) (w : Work) :
    (w.mustWait s.lock = true ∧ s.perform x (.work w) = s) ∨
    (w.mustWait s.lock = false ∧ x.raced = true ∧ s.perform x (.work w) = s.performRaced x w) ∨
    (w.mustWait s.lock = false ∧ x.raced = false ∧ s.perform x (.work w) =
      { s.setUnit s.active (x.done w.ovl w.res) with mem := applyUpds s.mem w.todo }) := by
  cases hw : w.mustWait s.lock
  · cases hr : x.raced
    · exact .inr (.inr ⟨rfl, rfl, perform_work s x w hw hr⟩)
    · exact .inr (.inl ⟨rfl, rfl, perform_raced s x w hw hr⟩)
  · exact .inl ⟨rfl, perform_wait s x w hw⟩

/-- Work that writes nothing takes no lock and never waits (R80). -/
@[simp] theorem readOnly_mustWait (r : Word) (t : LockTable) : (readOnly r).mustWait t = false := rfl

/-- Work does not wait when it is of the lock-free form or the entry of its base is free (R72, R74). -/
theorem mustWait_eq_false (w : Work) (t : LockTable) (h : w.ns = true ∨ t.holder w.base = none) :
    w.mustWait t = false := by
  unfold Work.mustWait Work.locks
  rcases h with h | h <;> simp [h]

/-- What carrying out a plan never touches: the parameter, the lock table, the schedule, the pointer to the acting unit
(R73, R329). -/
theorem perform_frame (s : State) (x : UnitState) (p : Plan) :
    (s.perform x p).memWords = s.memWords ∧ (s.perform x p).lock = s.lock ∧ (s.perform x p).turns = s.turns ∧
      (s.perform x p).active = s.active ∧ (s.perform x p).units.length = s.units.length := by
  cases p with
  | fail e => simp
  | early r => simp
  | work w => rcases perform_work_cases s x w with ⟨-, h⟩ | ⟨-, -, h⟩ | ⟨-, -, h⟩ <;> rw [h] <;> simp

/-- Carrying out a plan touches no unit but the acting one (R329). -/
theorem perform_units_other (s : State) (x : UnitState) (p : Plan) (j : Nat) (h : j ≠ s.active) :
    (s.perform x p).units[j]? = s.units[j]? := by
  have h' : s.active ≠ j := fun e => h e.symm
  cases p with
  | fail e => exact State.setUnit_get_other s _ j _ h'
  | early r => exact State.setUnit_get_other s _ j _ h'
  | work w =>
    rcases perform_work_cases s x w with ⟨-, e⟩ | ⟨-, -, e⟩ | ⟨-, -, e⟩ <;> rw [e]
    · exact State.setUnit_get_other s _ j _ h'
    · exact State.setUnit_get_other s _ j _ h'

/-- Carrying out a plan keeps memory in canonical form. -/
theorem perform_wf (s : State) (x : UnitState) (p : Plan) (h : s.mem.wf = true) : (s.perform x p).mem.wf = true := by
  cases p with
  | fail e => exact h
  | early r => exact h
  | work w =>
    rcases perform_work_cases s x w with ⟨-, e⟩ | ⟨-, -, e⟩ | ⟨-, -, e⟩ <;> rw [e]
    · exact h
    · exact wf_applyUpds _ _ h
    · exact wf_applyUpds _ _ h

end Sys2Proof.Machine
end

