-- ==== Sys2Proof/Laws/Exec.lean ====
section
/-! SUPPORT. What `exec` is for every command, the argument checks against `Instr.wellFormed`, and what carrying out the
work of a writing command leaves. -/

namespace Sys2Proof.Machine

/-- Every command is carried out from its plan: `exec` has no other effect. -/
theorem exec_eq_carryOut (i : Instr) (s : State) : exec i s = carryOut s (planOf i s.memWords s.mem) := by
  cases i <;> rfl

/-- With an acting unit, `exec` answers the next state `perform` gives. -/
theorem exec_eq_perform (i : Instr) (s : State) (x : UnitState) (h : s.units[s.active]? = some x) :
    exec i s = .next (s.perform x (planOf i s.memWords s.mem)) := by
  rw [exec_eq_carryOut, carryOut_eq s _ x h]

/-! ## The argument checks (R142) -/

/-- A word is negative exactly when it is no index (R6). -/
theorem isNeg_eq (w : Word) : isNeg w = !w.isIndex := by
  unfold isNeg Word.isIndex
  rw [BitVec.msb_eq_decide, Bool.eq_iff_iff]
  simp

theorem badBuf_eq (a : Buf) : badBuf a = !a.wellFormed := isNeg_eq a.len

theorem badOptBuf_eq (a : Option Buf) : badOptBuf a = !optBufWellFormed a := by
  cases a with
  | none => rfl
  | some a => exact badBuf_eq a

theorem badOneBuf_eq (a : Buf) (apos cnt : Word) : badOneBuf a apos cnt = !oneBufWellFormed a apos cnt := by
  unfold badOneBuf oneBufWellFormed
  rw [isNeg_eq, isNeg_eq, badBuf_eq]
  cases a.wellFormed <;> cases apos.isIndex <;> cases cnt.isIndex <;> rfl

theorem badTwoBuf_eq (a : Buf) (apos : Word) (b : Buf) (bpos cnt : Word) :
    badTwoBuf a apos b bpos cnt = !twoBufWellFormed a apos b bpos cnt := by
  unfold badTwoBuf twoBufWellFormed
  rw [isNeg_eq, isNeg_eq, isNeg_eq, badBuf_eq, badBuf_eq]
  cases a.wellFormed <;> cases apos.isIndex <;> cases b.wellFormed <;> cases bpos.isIndex <;> cases cnt.isIndex <;> rfl

theorem badEnd_eq (a : Buf) (apos cnt : Word) : badEnd a apos cnt = !endWellFormed a apos cnt := by
  unfold badEnd endWellFormed
  rw [badOneBuf_eq, Bool.not_and, ← decide_not]
  simp only [Nat.not_le]

theorem badScalar_eq (a : Buf) (apos cnt : Word) :
    badScalar a apos cnt = !(oneBufWellFormed a apos cnt && decide (cnt.toNat ≤ 64)) := by
  unfold badScalar
  rw [badOneBuf_eq, Bool.not_and, ← decide_not]
  simp only [Nat.not_le]

/-! ## The other checks -/

theorem offMemory_eq_false (n : Nat) (a : Buf) : offMemory n a = false ↔ a.InMemory n := by
  simp [offMemory, Buf.InMemory]

theorem offBuffer_eq_false (a : Buf) (pos n : Nat) : offBuffer a pos n = false ↔ a.Holds pos n := by
  simp [offBuffer, Buf.Holds]

theorem offMemory2_eq_false (n : Nat) (a b : Buf) : offMemory2 n a b = false ↔ a.InMemory n ∧ b.InMemory n := by
  simp [offMemory2, offMemory_eq_false]

theorem offBuffer2_eq_false (a : Buf) (apos : Nat) (b : Buf) (bpos n : Nat) :
    offBuffer2 a apos b bpos n = false ↔ a.Holds apos n ∧ b.Holds bpos n := by
  simp [offBuffer2, offBuffer_eq_false]

theorem extentsMeet_iff (a b : Buf) : extentsMeet a b = true ↔ ExtentsMeet a b := by
  simp [extentsMeet, ExtentsMeet]

theorem rangesMeet_iff (p q n : Nat) : rangesMeet p q n = true ↔ RangesMeet p q n := by
  simp [rangesMeet, RangesMeet]

theorem aliasCopy_iff (a b : Buf) : aliasCopy a b = true ↔ BuffersClash a b := by
  simp [aliasCopy, BuffersClash, extentsMeet_iff]

theorem aliasLogic_iff (a : Buf) (apos : Word) (b : Buf) (bpos cnt : Word) :
    aliasLogic a apos.toNat b bpos.toNat cnt.toNat = true ↔ BuffersClash a b ∨ RangesClash a apos b bpos cnt := by
  simp only [aliasLogic, RangesClash, Bool.or_eq_true, aliasCopy_iff, Bool.and_eq_true, beq_iff_eq, bne_iff_ne, ne_eq,
    rangesMeet_iff, BitVec.toNat_inj, and_assoc]

theorem aliasRev_iff (a b : Buf) : aliasRev a b = true ↔ BuffersClash a b ∨ a.base = b.base := by
  simp [aliasRev, aliasCopy_iff, or_comm]

/-! ## Work that writes a range -/

/-- A word is updated in full exactly when its mask has every bit (R150). -/
theorem Upd.full_iff (u : Upd) : u.full = true ↔ ∀ b, b < 64 → u.mask.getLsbD b = true := by
  unfold Upd.full
  rw [beq_iff_eq]
  constructor
  · rintro h b hb
    rw [h, getLsbD_allOnes, decide_eq_true hb]
  · intro h
    apply BitVec.eq_of_getLsbD_eq
    intro b hb
    rw [h b hb, getLsbD_allOnes, decide_eq_true hb]

/-- A range that starts and ends on word boundaries has only full words (R150). -/
theorem full_of_aligned (m : Memory) (base pos n : Nat) (v : Nat → Word → Word) (hp : pos % 64 = 0) (hn : n % 64 = 0)
    (h0 : 0 < n) (d : Upd) (hd : d ∈ rangeUpdates m base pos n v) : d.full = true := by
  rw [rangeUpdates, List.mem_map] at hd
  obtain ⟨w, hw, rfl⟩ := hd
  rw [mem_rangeWords pos n w h0] at hw
  rw [Upd.full_iff]
  intro b hb
  rw [getLsbD_wordMask, decide_eq_true_eq]
  omega

/-- Work with only full words, or of the lock-free form, or with the entry free, does not wait (R72, R74, R75). -/
theorem mustWait_of_full (w : Work) (t : LockTable) (h : ∀ d ∈ w.todo, d.full = true) : w.mustWait t = false := by
  unfold Work.mustWait Work.locks
  have : w.todo.any (fun u => !u.full) = false := by
    rw [List.any_eq_false]
    intro d hd
    simp [h d hd]
  rw [this]
  simp

/-- The work of a range command goes on at once when the lock is open to it. -/
theorem range_mustWait (s : State) (m : Memory) (ns ovl : Bool) (a : Buf) (pos n : Nat) (v : Nat → Word → Word)
    (h0 : 0 < n) (h : s.LockOpen ns a.base pos n) :
    (writing ns ovl a (rangeUpdates m a.base.toNat pos n v)).mustWait s.lock = false := by
  rcases h with h | h | h | ⟨hp, hn⟩
  · exact mustWait_eq_false _ _ (.inl h)
  · exact mustWait_eq_false _ _ (.inr h)
  · omega
  · exact mustWait_of_full _ _ (fun d hd => full_of_aligned m _ pos n v hp hn h0 d hd)

/-- A position of a range lies in it. -/
theorem bufBit_eq (m : Memory) (base p : Nat) : m.bufBit base p = m.bit (base + p / 64) (p % 64) := rfl

/-- What an undisturbed range command leaves, from what each destination word is to hold: `bit k` is the new value of
bit `pos + k`. -/
theorem writes_of_range (s : State) (x : UnitState) (ns ovl : Bool) (a : Buf) (pos n : Nat) (v : Nat → Word → Word)
    (bit : Nat → Bool) (h0 : 0 < n) (hq : s.Quiet x) (hl : s.LockOpen ns a.base pos n)
    (hv : ∀ w b, b < 64 → pos ≤ 64 * w + b → 64 * w + b < pos + n →
      (v w (s.mem.readWord (a.base.toNat + w))).getLsbD b = bit (64 * w + b - pos)) :
    ∃ t, carryOut s (.work (writing ns ovl a (rangeUpdates s.mem a.base.toNat pos n v))) = .next t ∧
      s.Writes t x ovl a.base.toNat pos n bit := by
  refine ⟨_, carryOut_eq s _ x hq.1, ?_⟩
  rw [perform_work s x _ (range_mustWait s s.mem ns ovl a pos n v h0 hl) hq.2]
  refine ⟨rfl, ?_, ?_⟩
  · intro k hk
    show (applyUpds s.mem (rangeUpdates s.mem a.base.toNat pos n v)).bufBit _ _ = _
    rw [bufBit_eq, bit_applyUpds_rangeUpdates s.mem _ pos n v _ _ h0 (Nat.mod_lt _ (by omega)), if_pos (by omega)]
    have e : a.base.toNat + (pos + k) / 64 - a.base.toNat = (pos + k) / 64 := by omega
    rw [e, hv _ _ (Nat.mod_lt _ (by omega)) (by omega) (by omega)]
    congr 1
    omega
  · intro c b hb hr
    show (applyUpds s.mem (rangeUpdates s.mem a.base.toNat pos n v)).bit _ _ = _
    rw [bit_applyUpds_rangeUpdates s.mem _ pos n v _ _ h0 hb]
    exact if_neg hr

/-- A command that ends before its work and has no result leaves an empty range's worth of writes: none. -/
theorem writes_nothing (s : State) (x : UnitState) (base pos : Nat) (bit : Nat → Bool) :
    s.Writes (s.setUnit s.active (x.done false 0)) x false base pos 0 bit :=
  ⟨rfl, fun k hk => absurd hk (Nat.not_lt_zero k), fun _ _ _ _ => rfl⟩

/-! ## Ending in an error -/

/-- Two values written to one existing unit are told apart by the states they give. -/
theorem State.setUnit_inj (s : State) (u : Nat) (x y z : UnitState) (hz : s.units[u]? = some z)
    (h : s.setUnit u x = s.setUnit u y) : x = y := by
  have h1 := State.setUnit_get s u x z hz
  rw [h, State.setUnit_get s u y z hz] at h1
  exact (Option.some.inj h1).symm

/-- A completion's `STAT` tells its error code and its overlap output (R34, R310). -/
theorem statWord_inj (o o' : Bool) (c c' : Nat) (hc : c ≤ 7) (hc' : c' ≤ 7)
    (h : statWord false o c = statWord false o' c') : o = o' ∧ c = c' := by
  have hall : ∀ c ≤ 7, ∀ c' ≤ 7, ∀ o o' : Bool, statWord false o c = statWord false o' c' → o = o' ∧ c = c' := by
    decide +kernel
  exact hall c hc c' hc' o o' h

/-- An error is told by its code (R310). -/
theorem Err.code_inj (e e' : Err) (h : e.code = e'.code) : e = e' := by
  revert h; cases e <;> cases e' <;> decide

/-- A completed busy unit is another unit: a state in which a busy unit has completed is not the state before. -/
theorem setUnit_ne_self (s : State) (u : Nat) (x y : UnitState) (hx : s.units[u]? = some x) (hb : x.busy = true)
    (hy : y.busy = false) : s ≠ s.setUnit u y := by
  intro h
  have h1 := State.setUnit_get s u y x hx
  rw [← h, hx] at h1
  rw [Option.some.inj h1, hy] at hb
  cases hb

/-- Work never ends in an error: a busy unit that carries it out waits, or completes with `ERR = 0` (R148, R149). -/
theorem perform_work_ne_raise (s : State) (x : UnitState) (w : Work) (e : Err) (hx : s.units[s.active]? = some x)
    (hb : x.busy = true) : s.perform x (.work w) ≠ s.setUnit s.active (x.raise e) := by
  have key : ∀ (o : Bool) (r : Word) (m : Memory) (c : Nat),
      ({ s.setUnit s.active (x.done o r) with mem := m, freeCtr := c } : State) ≠ s.setUnit s.active (x.raise e) := by
    intro o r m c h
    have h1 := congrArg (fun t : State => t.units[s.active]?) h
    rw [State.setUnit_get s s.active (x.raise e) x hx] at h1
    rw [show ({ s.setUnit s.active (x.done o r) with mem := m, freeCtr := c } : State).units[s.active]? = _ from
      State.setUnit_get s s.active (x.done o r) x hx] at h1
    have h2 := (statWord_inj _ _ _ _ (by decide) e.code_range.2 (congrArg UnitState.stat (Option.some.inj h1))).2
    have := e.code_range.1
    omega
  rcases perform_work_cases s x w with ⟨-, h⟩ | ⟨-, -, h⟩ | ⟨-, -, h⟩ <;> rw [h]
  · exact setUnit_ne_self s _ x _ hx hb (raise_busy x e)
  · exact key _ _ _ _
  · exact key _ _ _ s.freeCtr

/-- A busy unit's command ends in an error exactly when its checks say so (R141, R148). -/
theorem exec_eq_raise_iff (s : State) (x : UnitState) (i : Instr) (e : Err) (hx : s.units[s.active]? = some x)
    (hb : x.busy = true) :
    exec i s = .next (s.setUnit s.active (x.raise e)) ↔ planOf i s.memWords s.mem = .fail e := by
  rw [exec_eq_perform i s x hx]
  constructor
  · intro h
    injection h with h
    cases hp : planOf i s.memWords s.mem with
    | fail e' =>
      rw [hp] at h
      have h1 := congrArg UnitState.stat (State.setUnit_inj s _ _ _ x hx h)
      rw [Err.code_inj _ _ (statWord_inj _ _ _ _ e'.code_range.2 e.code_range.2 h1).2]
    | early r =>
      rw [hp] at h
      have h1 := congrArg UnitState.stat (State.setUnit_inj s _ _ _ x hx h)
      have h2 := (statWord_inj _ _ _ _ (by decide) e.code_range.2 h1).2
      have := e.code_range.1
      omega
    | work w =>
      rw [hp] at h
      exact absurd h (perform_work_ne_raise s x w e hx hb)
  · intro h
    rw [h]
    rfl

end Sys2Proof.Machine
end

