-- ==== Sys2Proof/Laws/PerInstr.lean ====
section
/-! SUPPORT. Statements made instruction by instruction: what the encoder writes for a command has a legal header
(R107). -/

namespace Sys2Proof.Laws

/-- The header the encoder writes for `i` is legal: a defined opcode, no reserved bit, only flags the opcode allows (R101,
R103, R107). -/
def EncodesLegalHeader.Statement (i : Instr) : Prop := (encode i).LegalHeader

/-- A header word with the given fields is legal when its opcode allows its flags. -/
theorem legalHeader_of_header (d : Desc) (op : Op) (ns v an bn : Bool)
    (hd : d.hdr = header (BitVec.ofNat 64 op.code) ns v an bn) (hn : ns = true → op.allowsNs = true)
    (hv : v = true → op.allowsV = true) (ha : an = true → op.allowsAbsent = true)
    (hb : bn = true → op.allowsAbsent = true) : d.LegalHeader := by
  have hall : ∀ op : Op, ∀ ns v an bn : Bool,
      header (BitVec.ofNat 64 op.code) ns v an bn >>> 12 = 0 ∧
      ((header (BitVec.ofNat 64 op.code) ns v an bn).extractLsb' 0 8).toNat = op.code ∧
      (header (BitVec.ofNat 64 op.code) ns v an bn).getLsbD 8 = ns ∧
      (header (BitVec.ofNat 64 op.code) ns v an bn).getLsbD 9 = v ∧
      (header (BitVec.ofNat 64 op.code) ns v an bn).getLsbD 10 = an ∧
      (header (BitVec.ofNat 64 op.code) ns v an bn).getLsbD 11 = bn := by
    intro op ns v an bn
    cases op <;> cases ns <;> cases v <;> cases an <;> cases bn <;> decide +kernel
  obtain ⟨h0, hc, h8, h9, h10, h11⟩ := hall op ns v an bn
  unfold Desc.LegalHeader Desc.opc Desc.ns Desc.v Desc.an Desc.bn
  rw [hd]
  exact ⟨h0, op, hc, fun h => hn (h8 ▸ h), fun h => hv (h9 ▸ h), fun h => ha (h10 ▸ h), fun h => hb (h11 ▸ h)⟩

theorem EncodesLegalHeader.plen (cnt : Word) :
    EncodesLegalHeader.Statement (.plen cnt) :=
  legalHeader_of_header _ .plen false false false false rfl nofun nofun nofun nofun

theorem EncodesLegalHeader.ulen (cnt : Word) :
    EncodesLegalHeader.Statement (.ulen cnt) :=
  legalHeader_of_header _ .ulen false false false false rfl nofun nofun nofun nofun

theorem EncodesLegalHeader.getbit (a : Buf) (apos : Word) :
    EncodesLegalHeader.Statement (.getbit a apos) :=
  legalHeader_of_header _ .getbit false false false false rfl nofun nofun nofun nofun

theorem EncodesLegalHeader.setbit (ns v : Bool) (a : Buf) (apos : Word) :
    EncodesLegalHeader.Statement (.setbit ns v a apos) :=
  legalHeader_of_header _ .setbit ns v false false rfl (fun _ => rfl) (fun _ => rfl) nofun nofun

theorem EncodesLegalHeader.getbits (a : Buf) (apos cnt : Word) :
    EncodesLegalHeader.Statement (.getbits a apos cnt) :=
  legalHeader_of_header _ .getbits false false false false rfl nofun nofun nofun nofun

theorem EncodesLegalHeader.setbits (ns : Bool) (a : Buf) (apos cnt val : Word) :
    EncodesLegalHeader.Statement (.setbits ns a apos cnt val) :=
  legalHeader_of_header _ .setbits ns false false false rfl (fun _ => rfl) nofun nofun nofun

theorem EncodesLegalHeader.copy (ns : Bool) (a : Buf) (apos : Word) (b : Buf) (bpos cnt : Word) :
    EncodesLegalHeader.Statement (.copy ns a apos b bpos cnt) :=
  legalHeader_of_header _ .copy ns false false false rfl (fun _ => rfl) nofun nofun nofun

theorem EncodesLegalHeader.notb (ns : Bool) (a : Buf) (apos cnt : Word) :
    EncodesLegalHeader.Statement (.notb ns a apos cnt) :=
  legalHeader_of_header _ .notb ns false false false rfl (fun _ => rfl) nofun nofun nofun

theorem EncodesLegalHeader.andb (ns : Bool) (a : Buf) (apos : Word) (b : Buf) (bpos cnt : Word) :
    EncodesLegalHeader.Statement (.andb ns a apos b bpos cnt) :=
  legalHeader_of_header _ .andb ns false false false rfl (fun _ => rfl) nofun nofun nofun

theorem EncodesLegalHeader.orb (ns : Bool) (a : Buf) (apos : Word) (b : Buf) (bpos cnt : Word) :
    EncodesLegalHeader.Statement (.orb ns a apos b bpos cnt) :=
  legalHeader_of_header _ .orb ns false false false rfl (fun _ => rfl) nofun nofun nofun

theorem EncodesLegalHeader.xorb (ns : Bool) (a : Buf) (apos : Word) (b : Buf) (bpos cnt : Word) :
    EncodesLegalHeader.Statement (.xorb ns a apos b bpos cnt) :=
  legalHeader_of_header _ .xorb ns false false false rfl (fun _ => rfl) nofun nofun nofun

theorem EncodesLegalHeader.andnot (ns : Bool) (a : Buf) (apos : Word) (b : Buf) (bpos cnt : Word) :
    EncodesLegalHeader.Statement (.andnot ns a apos b bpos cnt) :=
  legalHeader_of_header _ .andnot ns false false false rfl (fun _ => rfl) nofun nofun nofun

theorem EncodesLegalHeader.ornot (ns : Bool) (a : Buf) (apos : Word) (b : Buf) (bpos cnt : Word) :
    EncodesLegalHeader.Statement (.ornot ns a apos b bpos cnt) :=
  legalHeader_of_header _ .ornot ns false false false rfl (fun _ => rfl) nofun nofun nofun

theorem EncodesLegalHeader.fill (ns v : Bool) (a : Buf) (apos cnt : Word) :
    EncodesLegalHeader.Statement (.fill ns v a apos cnt) :=
  legalHeader_of_header _ .fill ns v false false rfl (fun _ => rfl) (fun _ => rfl) nofun nofun

theorem EncodesLegalHeader.iszero (a : Buf) (apos cnt : Word) :
    EncodesLegalHeader.Statement (.iszero a apos cnt) :=
  legalHeader_of_header _ .iszero false false false false rfl nofun nofun nofun nofun

theorem EncodesLegalHeader.rev (ns : Bool) (a : Buf) (apos : Word) (b : Buf) (bpos cnt : Word) :
    EncodesLegalHeader.Statement (.rev ns a apos b bpos cnt) :=
  legalHeader_of_header _ .rev ns false false false rfl (fun _ => rfl) nofun nofun nofun

theorem EncodesLegalHeader.indexof (v : Bool) (a : Buf) (apos cnt : Word) :
    EncodesLegalHeader.Statement (.indexof v a apos cnt) :=
  legalHeader_of_header _ .indexof false v false false rfl nofun (fun _ => rfl) nofun nofun

theorem EncodesLegalHeader.lastindexof (v : Bool) (a : Buf) (apos cnt : Word) :
    EncodesLegalHeader.Statement (.lastindexof v a apos cnt) :=
  legalHeader_of_header _ .lastindexof false v false false rfl nofun (fun _ => rfl) nofun nofun

theorem EncodesLegalHeader.card (a : Buf) (apos cnt : Word) :
    EncodesLegalHeader.Statement (.card a apos cnt) :=
  legalHeader_of_header _ .card false false false false rfl nofun nofun nofun nofun

theorem EncodesLegalHeader.eqb (a : Option Buf) (apos : Word) (b : Option Buf) (bpos cnt : Word) :
    EncodesLegalHeader.Statement (.eqb a apos b bpos cnt) :=
  legalHeader_of_header _ .eqb false false a.isNone b.isNone rfl nofun nofun (fun _ => rfl) (fun _ => rfl)

end Sys2Proof.Laws
end

