-- ==== Sys2Proof/Laws/Turns.lean ====
section
/-! SUPPORT. What a step can do, said once: one inversion lemma for each kind of turn, which later proofs cite instead of
unfolding `step`. -/

namespace Sys2Proof.Machine

/-! ## From a step to a turn -/

theorem step_nil (s : State) (h : s.turns = []) : step s = .next s := by rw [step, h]

theorem step_cons (s : State) (t : Turn) (ts : List Turn) (h : s.turns = t :: ts) :
    step s = takeTurn { s with turns := ts } t := by rw [step, h]

/-- A step that goes on either finds the schedule at its end and changes nothing, or takes the schedule's first turn. -/
theorem step_next (s t : State) (h : step s = .next t) :
    (s.turns = [] ∧ t = s) ∨ ∃ e ts, s.turns = e :: ts ∧ takeTurn { s with turns := ts } e = .next t := by
  cases hs : s.turns with
  | nil => rw [step_nil s hs] at h; exact .inl ⟨rfl, by cases h; rfl⟩
  | cons e ts => rw [step_cons s e ts hs] at h; exact .inr ⟨e, ts, rfl, h⟩

theorem withUnit_eq (s : State) (u : Nat) (f : UnitState → State) (x : UnitState) (h : s.units[u]? = some x) :
    withUnit s u f = .next (f x) := by rw [withUnit, h]

theorem withUnit_next (s t : State) (u : Nat) (f : UnitState → State) (h : withUnit s u f = .next t) :
    ∃ x, s.units[u]? = some x ∧ t = f x := by
  unfold withUnit at h
  split at h
  · cases h
  · next x hx => exact ⟨x, hx, by cases h; rfl⟩

theorem noticed_next (u : Nat) (m : Memory) (r : Result) (t : State) (h : noticed u m r = .next t) :
    ∃ t', r = .next t' ∧ t = t'.noticeAll (some u) m := by
  cases r with
  | next t' => exact ⟨t', rfl, by cases h; rfl⟩
  | fault f => cases h
  | refused r => cases h

/-- Nothing is noticed when memory is as it was. -/
theorem State.noticeAll_self (s : State) (w : Option Nat) : s.noticeAll w s.mem = s := by
  have h : ∀ x : UnitState, x.notice s.memWords s.mem s.mem = x := fun x => by
    rw [UnitState.notice, Memory.differsUnder_self, Bool.and_false]
    rfl
  have hu : (s.noticeAll w s.mem).units = s.units := by
    apply List.ext_getElem?
    intro j
    rw [State.noticeAll_get]
    cases s.units[j]? <;> simp [h]
  have e : s.noticeAll w s.mem = { s with units := (s.noticeAll w s.mem).units } := rfl
  rw [e, hu]

/-- Only the mark of interference of a unit can change when the units notice. -/
theorem State.mem_noticeAll (s : State) (w : Option Nat) (m : Memory) (y : UnitState) (h : y ∈ (s.noticeAll w m).units) :
    ∃ x ∈ s.units, y.stat = x.stat ∧ y.res = x.res ∧ y.cur = x.cur ∧ y.job = x.job ∧ y.offered = x.offered := by
  obtain ⟨j, hj⟩ := List.mem_iff_getElem?.1 h
  rw [State.noticeAll_get, Option.map_eq_some_iff] at hj
  obtain ⟨x, hx, rfl⟩ := hj
  refine ⟨x, List.mem_of_getElem? hx, ?_⟩
  split <;> simp

/-! ## Submission, start, completion -/

/-- What a submission can do (R140): nothing when the unit is busy or the host has no descriptor for it, else the unit
accepts the first one. -/
theorem submitTurn_cases (s : State) (u : Nat) (x : UnitState) :
    ((x.busy = true ∨ x.offered = []) ∧ submitTurn s u x = s) ∨
    ∃ d ds, x.busy = false ∧ x.offered = d :: ds ∧
      submitTurn s u x = s.setUnit u { x.accept d with offered := ds } := by
  unfold submitTurn
  cases hb : x.busy with
  | true => exact .inl ⟨.inl rfl, rfl⟩
  | false =>
    cases ho : x.offered with
    | nil => exact .inl ⟨.inr rfl, rfl⟩
    | cons d ds => exact .inr ⟨d, ds, rfl, rfl, rfl⟩

/-- The updates a command has to make: those of its work, none for an error or an early success. -/
def Plan.todo : Plan → List Pending
  | .fail _ => []
  | .early _ => []
  | .work w => w.todo.map .waiting

/-- What a start can do (R140, R141): nothing when the unit is idle or its command has begun, else the command begins with
its plan, and with an interference foretold when the turn says so and one can come. -/
theorem startTurn_cases (s : State) (u : Nat) (f : Bool) (x : UnitState) :
    ((x.busy = false ∨ x.job ≠ none) ∧ startTurn s u f x = s) ∨
    (x.busy = true ∧ x.job = none ∧
      startTurn s u f x = s.setUnit u { x with
        job := some ⟨planDesc x.cur s.memWords s.mem, (planDesc x.cur s.memWords s.mem).todo, .between,
          f && canInterfere x.cur s.memWords s.mem⟩ }) := by
  unfold startTurn
  cases hb : x.busy with
  | false => exact .inl ⟨.inl rfl, rfl⟩
  | true =>
    cases hj : x.job with
    | some j => exact .inl ⟨.inr (by simp), rfl⟩
    | none =>
      refine .inr ⟨rfl, rfl, ?_⟩
      cases planDesc x.cur s.memWords s.mem <;> rfl

/-- What a completion can do (R148, R149): nothing while an update is waiting or in flight or a foretold interference is
still to come, else the unit completes with the outcome of its plan. -/
theorem finishTurn_cases (s : State) (u : Nat) (x : UnitState) :
    finishTurn s u x = s ∨
    ∃ j, x.job = some j ∧ j.todo = [] ∧ j.flight = .between ∧ x.owed = false ∧
      ((∃ e, j.plan = .fail e ∧ finishTurn s u x = s.setUnit u (x.raise e)) ∨
       (∃ r, j.plan = .early r ∧ finishTurn s u x = s.setUnit u (x.done false r)) ∨
       ∃ w, j.plan = .work w ∧
        finishTurn s u x = { s.setUnit u (x.done w.ovl (updValue s x w.res)) with freeCtr := nextCtr s x }) := by
  unfold finishTurn
  cases hj : x.job with
  | none => exact .inl rfl
  | some j =>
    dsimp only
    split
    · next h =>
      refine .inr ⟨j, rfl, h.1, h.2.1, h.2.2, ?_⟩
      cases hp : j.plan with
      | fail e => exact .inl ⟨e, rfl, rfl⟩
      | early r => exact .inr (.inl ⟨r, rfl, rfl⟩)
      | work w => exact .inr (.inr ⟨w, rfl, rfl⟩)
    · exact .inl rfl

/-- What a reset can do (R350): fault when some unit is still owed a foretold interference, else clear every unit and every
lock. -/
theorem resetTurn_cases (s : State) :
    (∃ u, s.units.findIdx? UnitState.owed = some u ∧ resetTurn s = .fault (.foretoldNotCome u)) ∨
    ((∀ x ∈ s.units, x.owed = false) ∧
      resetTurn s = .next { s with lock := [], units := s.units.map UnitState.clear }) := by
  unfold resetTurn
  cases h : s.units.findIdx? UnitState.owed with
  | some u => exact .inl ⟨u, rfl, rfl⟩
  | none => exact .inr ⟨(State.findIdx_owed_none s).1 h, rfl⟩

/-! ## Memory events -/

/-- What a memory event of a command's work can do (R69 to R76): wait; write a partial word read before without a lock;
write a full word; read a partial word without a lock; acquire the lock, which is free; read under it; write the partial
word under it; release the lock. -/
theorem workEvent_cases (s : State) (u k : Nat) (x : UnitState) (w : Work) (j : Job) :
    workEvent s u k x w j = s ∨
    (∃ d old, j.flight = .between ∧ j.todo[k]? = some (.fetched d old) ∧
      workEvent s u k x w j = writeEvent s u x { j with todo := j.todo.eraseIdx k } d.addr
        (merge old d.mask (updValue s x d.val))) ∨
    (∃ d, j.flight = .between ∧ j.todo[k]? = some (.waiting d) ∧ d.full = true ∧
      workEvent s u k x w j = writeEvent s u x { j with todo := j.todo.eraseIdx k } d.addr (updValue s x d.val)) ∨
    (∃ d, j.flight = .between ∧ j.todo[k]? = some (.waiting d) ∧ d.full = false ∧ w.ns = true ∧
      workEvent s u k x w j = s.setUnit u { x with
        job := some { j with todo := j.todo.set k (.fetched d (s.mem.readWord d.addr)) } }) ∨
    (∃ d, j.flight = .between ∧ j.todo[k]? = some (.waiting d) ∧ d.full = false ∧ w.ns = false ∧ s.lock.holder w.base = none ∧
      workEvent s u k x w j =
        { s.setUnit u { x with job := some { j with todo := j.todo.eraseIdx k, flight := .acquired d } } with
          lock := s.lock.acquire w.base u }) ∨
    (∃ d, j.flight = .acquired d ∧
      workEvent s u k x w j =
        s.setUnit u { x with job := some { j with flight := .fetched d (s.mem.readWord d.addr) } }) ∨
    (∃ d old, j.flight = .fetched d old ∧
      workEvent s u k x w j = writeEvent s u x { j with flight := .written } d.addr
        (merge old d.mask (updValue s x d.val))) ∨
    (j.flight = .written ∧
      workEvent s u k x w j =
        { s.setUnit u { x with job := some { j with flight := .between } } with lock := s.lock.release w.base }) := by
  unfold workEvent
  cases hf : j.flight with
  | between =>
    cases ht : j.todo[k]? with
    | none => exact .inl rfl
    | some p =>
      cases p with
      | fetched d old => exact .inr (.inl ⟨d, old, rfl, rfl, rfl⟩)
      | waiting d =>
        dsimp only
        cases hd : d.full with
        | true => exact .inr (.inr (.inl ⟨d, rfl, rfl, hd, rfl⟩))
        | false =>
          cases hn : w.ns with
          | true => exact .inr (.inr (.inr (.inl ⟨d, rfl, rfl, hd, rfl, rfl⟩)))
          | false =>
            cases hh : s.lock.holder w.base with
            | some v => exact .inl rfl
            | none => exact .inr (.inr (.inr (.inr (.inl ⟨d, rfl, rfl, hd, rfl, rfl, rfl⟩))))
  | acquired d => exact .inr (.inr (.inr (.inr (.inr (.inl ⟨d, rfl, rfl⟩)))))
  | fetched d old => exact .inr (.inr (.inr (.inr (.inr (.inr (.inl ⟨d, old, rfl, rfl⟩))))))
  | written => exact .inr (.inr (.inr (.inr (.inr (.inr (.inr ⟨rfl, rfl⟩))))))

/-- What an event turn can do: nothing when the unit has no work in progress, else one memory event of it. -/
theorem eventTurn_cases (s : State) (u k : Nat) (x : UnitState) :
    eventTurn s u k x = s ∨
    ∃ j w, x.job = some j ∧ j.plan = .work w ∧ eventTurn s u k x = workEvent s u k x w j := by
  unfold eventTurn
  cases hj : x.job with
  | none => exact .inl rfl
  | some j =>
    dsimp only
    cases hp : j.plan with
    | fail e => exact .inl rfl
    | early r => exact .inl rfl
    | work w => exact .inr ⟨j, w, rfl, hp, rfl⟩

/-! ## The atomic turn -/

/-- What an atomic turn can do (R78): fault when there is no such unit; nothing when the unit has no command to begin;
complete with `Illegal`; or carry out the decoded command. -/
theorem execTurn_cases (s : State) (u : Nat) :
    (s.units[u]? = none ∧ execTurn s u = .fault (.noSuchUnit u)) ∨
    ∃ x, s.units[u]? = some x ∧
      (((x.busy = false ∨ x.job ≠ none) ∧ execTurn s u = .next s) ∨
       (x.busy = true ∧ x.job = none ∧
        ((∃ r, decode x.cur = .error r ∧ execTurn s u = .next (s.setUnit u (x.raise .illegal))) ∨
         ∃ i, decode x.cur = .ok i ∧ execTurn s u = noticed u s.mem (exec i { s with active := u })))) := by
  unfold execTurn
  cases hu : s.units[u]? with
  | none => exact .inl ⟨rfl, rfl⟩
  | some x =>
    refine .inr ⟨x, rfl, ?_⟩
    dsimp only
    cases hb : x.busy with
    | false => exact .inl ⟨.inl rfl, rfl⟩
    | true =>
      cases hj : x.job with
      | some j => exact .inl ⟨.inr (by simp), rfl⟩
      | none =>
        refine .inr ⟨rfl, rfl, ?_⟩
        cases hd : decode x.cur with
        | error r => exact .inl ⟨r, rfl, rfl⟩
        | ok i => exact .inr ⟨i, rfl, rfl⟩

end Sys2Proof.Machine
end

