-- ==== Sys2Proof/Tests/Slice0.lean ====
section
/-! SUPPORT. The model's own tests. Expected values are the spec's: the examples and corner cases its rules print, and
words written out from its encoding tables. After them, a witness for every statement that has hypotheses: a concrete
state and operands that meet them all, at a boundary of each clause. -/

namespace Sys2Proof.Tests

-- One test after the other: many kernel evaluations at once ask for more threads than the limits allow.
set_option Elab.async false
set_option linter.unusedSimpArgs false

open Sys2Proof.Machine

/-! ## Decoding: one descriptor word by word for every command (R101, R103, R104) -/

theorem test_decode_plen : decode ⟨0x01, 9, 9, 9, 9, 9, 9, 192, 9⟩ = .ok (.plen 192) := by decide +kernel
theorem test_decode_ulen : decode ⟨0x02, 0, 0, 0, 0, 0, 0, 3, 0⟩ = .ok (.ulen 3) := by decide +kernel
theorem test_decode_getbit : decode ⟨0x03, 1, 3, 60, 0, 0, 0, 0, 0⟩ = .ok (.getbit ⟨1, 3⟩ 60) := by decide +kernel
theorem test_decode_setbit : decode ⟨0x204, 1, 3, 67, 0, 0, 0, 0, 0⟩ = .ok (.setbit false true ⟨1, 3⟩ 67) := by decide +kernel
theorem test_decode_getbits : decode ⟨0x05, 1, 3, 60, 0, 0, 0, 8, 0⟩ = .ok (.getbits ⟨1, 3⟩ 60 8) := by decide +kernel
theorem test_decode_setbits : decode ⟨0x106, 1, 3, 60, 0, 0, 0, 8, 0xFF⟩ = .ok (.setbits true ⟨1, 3⟩ 60 8 0xFF) := by decide +kernel
theorem test_decode_copy : decode ⟨0x07, 1, 2, 3, 4, 5, 6, 7, 8⟩ = .ok (.copy false ⟨1, 2⟩ 3 ⟨4, 5⟩ 6 7) := by decide +kernel
theorem test_decode_notb : decode ⟨0x108, 1, 2, 3, 4, 5, 6, 7, 8⟩ = .ok (.notb true ⟨1, 2⟩ 3 7) := by decide +kernel
theorem test_decode_andb : decode ⟨0x09, 1, 2, 3, 4, 5, 6, 7, 8⟩ = .ok (.andb false ⟨1, 2⟩ 3 ⟨4, 5⟩ 6 7) := by decide +kernel
theorem test_decode_orb : decode ⟨0x10A, 1, 2, 3, 4, 5, 6, 7, 8⟩ = .ok (.orb true ⟨1, 2⟩ 3 ⟨4, 5⟩ 6 7) := by decide +kernel
theorem test_decode_xorb : decode ⟨0x0B, 1, 2, 3, 4, 5, 6, 7, 8⟩ = .ok (.xorb false ⟨1, 2⟩ 3 ⟨4, 5⟩ 6 7) := by decide +kernel
theorem test_decode_andnot : decode ⟨0x10C, 1, 2, 3, 4, 5, 6, 7, 8⟩ = .ok (.andnot true ⟨1, 2⟩ 3 ⟨4, 5⟩ 6 7) := by decide +kernel
theorem test_decode_ornot : decode ⟨0x0D, 1, 2, 3, 4, 5, 6, 7, 8⟩ = .ok (.ornot false ⟨1, 2⟩ 3 ⟨4, 5⟩ 6 7) := by decide +kernel
theorem test_decode_fill : decode ⟨0x30E, 1, 2, 3, 0, 0, 0, 7, 0⟩ = .ok (.fill true true ⟨1, 2⟩ 3 7) := by decide +kernel
theorem test_decode_iszero : decode ⟨0x0F, 1, 2, 3, 0, 0, 0, 7, 0⟩ = .ok (.iszero ⟨1, 2⟩ 3 7) := by decide +kernel
theorem test_decode_rev : decode ⟨0x110, 1, 2, 3, 4, 5, 6, 7, 8⟩ = .ok (.rev true ⟨1, 2⟩ 3 ⟨4, 5⟩ 6 7) := by decide +kernel
theorem test_decode_indexof : decode ⟨0x11, 1, 2, 3, 0, 0, 0, 7, 0⟩ = .ok (.indexof false ⟨1, 2⟩ 3 7) := by decide +kernel
theorem test_decode_lastindexof : decode ⟨0x212, 1, 2, 3, 0, 0, 0, 7, 0⟩ = .ok (.lastindexof true ⟨1, 2⟩ 3 7) := by decide +kernel
theorem test_decode_card : decode ⟨0x13, 1, 2, 3, 0, 0, 0, 7, 0⟩ = .ok (.card ⟨1, 2⟩ 3 7) := by decide +kernel
theorem test_decode_eqb : decode ⟨0x814, 1, 2, 3, 4, 5, 6, 7, 0⟩ = .ok (.eqb (some ⟨1, 2⟩) 3 none 6 7) := by decide +kernel

/-- The three ways to be illegal (R106, R107). -/
theorem test_decode_rejects :
    decode ⟨0x15, 0, 0, 0, 0, 0, 0, 0, 0⟩ = .error .reservedOpcode ∧
    decode ⟨0x1007, 0, 0, 0, 0, 0, 0, 0, 0⟩ = .error .reservedHeaderBit ∧
    decode ⟨0x103, 0, 0, 0, 0, 0, 0, 0, 0⟩ = .error .flagNotAllowed := by decide +kernel

/-- A table word: `SETBITS` from its 576 bits (R110). -/
theorem test_decodeTableWord :
    decodeTableWord 576 (0x6 + (3 <<< 128) + (60 <<< 192) + (8 <<< 448) + (0xFF <<< 512)) =
      some (.setbits false ⟨0, 3⟩ 60 8 0xFF) := by decide +kernel

/-! ## Well-formedness: each check refuses an ill-formed command -/

/-- The largest index (R6) and the least negative word. -/
theorem test_wellFormed_index : (0x7FFFFFFFFFFFFFFF : Word).isIndex = true ∧ (0x8000000000000000 : Word).isIndex = false := by
  decide +kernel

theorem test_wellFormed_buffer : (Instr.getbit ⟨0, 0x8000000000000000⟩ 0).wellFormed = false := by decide +kernel
theorem test_wellFormed_position : (Instr.setbit false true ⟨0, 1⟩ 0xFFFFFFFFFFFFFFFF).wellFormed = false := by decide +kernel
theorem test_wellFormed_count : (Instr.notb false ⟨0, 1⟩ 0 0x8000000000000000).wellFormed = false := by decide +kernel
theorem test_wellFormed_second_buffer :
    (Instr.copy false ⟨0, 1⟩ 0 ⟨1, 0x8000000000000000⟩ 0 1).wellFormed = false ∧
    (Instr.copy false ⟨0, 1⟩ 0 ⟨1, 1⟩ 0x8000000000000000 1).wellFormed = false := by decide +kernel
theorem test_wellFormed_scalar :
    (Instr.getbits ⟨0, 2⟩ 0 65).wellFormed = false ∧ (Instr.setbits false ⟨0, 2⟩ 0 65 0).wellFormed = false ∧
    (Instr.getbits ⟨0, 2⟩ 0 64).wellFormed = true := by decide +kernel
theorem test_wellFormed_end :
    (Instr.card ⟨0, 2⟩ 5 4).wellFormed = false ∧ (Instr.indexof true ⟨0, 2⟩ 4 4).wellFormed = true := by decide +kernel
theorem test_wellFormed_absent :
    (Instr.eqb none 0 (some ⟨0, 0x8000000000000000⟩) 0 0).wellFormed = false ∧
    (Instr.eqb none 0 none 0 0).wellFormed = true := by decide +kernel
theorem test_wellFormed_argument : (Instr.plen 0x8000000000000000).wellFormed = false := by decide +kernel

/-! ## One step each -/

/-- Memory of three words. -/
def mem3 (a b c : Word) : Memory := ((Memory.writeWord [] 0 a).writeWord 1 b).writeWord 2 c

/-- A unit with a command submitted. -/
def unit (d : Desc) : UnitState := ⟨0x01, 7, d, none, false, []⟩

/-- A system of one unit, all of whose memory of `n` words is `m`. -/
def sys (n : Nat) (m : Memory) : State := ⟨n, m, [], [unit Desc.zero], 0, [], 0⟩

/-- `STAT`, `RES` of the acting unit and the first two words of memory after a command. -/
def outcome (i : Instr) (m : Memory) : Option (Word × Word × Word × Word) :=
  match exec i (sys 3 m) with
  | .next t => (t.units.head?).map (fun y => (y.stat, y.res, t.mem.readWord 0, t.mem.readWord 1))
  | .fault _ => none
  | .refused _ => none

/-- The memory of the examples of `42_word_transfer.md` and `46_search_aggregate.md`. -/
def bits60to67 : Memory := mem3 0xF000000000000000 0x0F 0

/-- The memory of the examples of `44_logical.md`. -/
def logicMem : Memory := mem3 0x00FF 0x0F0F 0

/-- R180: the largest input gives 2^57; the sum does not wrap. -/
theorem test_plen_largest : outcome (.plen 0x7FFFFFFFFFFFFFFF) [] = some (0, 0x0200000000000000, 0, 0) := by decide +kernel

/-- R180: a negative input is `InvalidArg`. -/
theorem test_plen_negative : outcome (.plen 0x8000000000000000) [] = some (0x20, 0, 0, 0) := by decide +kernel

/-- R181: the largest word count that fits. -/
theorem test_ulen_largest : outcome (.ulen 0x01FFFFFFFFFFFFFF) [] = some (0, 0x7FFFFFFFFFFFFFC0, 0, 0) := by decide +kernel

/-- R181: 2^57 words overflow. -/
theorem test_ulen_overflow : outcome (.ulen 0x0200000000000000) [] = some (0x50, 0, 0, 0) := by decide +kernel

/-- R182: the example. -/
theorem test_getbit : outcome (.getbit ⟨0, 3⟩ 60) bits60to67 = some (0, 1, 0xF000000000000000, 0x0F) := by decide +kernel

/-- R182: one past the last bit is `Range`. -/
theorem test_getbit_range : outcome (.getbit ⟨0, 3⟩ 192) bits60to67 = some (0x30, 0, 0xF000000000000000, 0x0F) := by decide +kernel

/-- R183: the example. -/
theorem test_setbit : outcome (.setbit false true ⟨0, 3⟩ 67) [] = some (0, 0, 0, 8) := by decide +kernel

/-- R183: the other 63 bits are unchanged. -/
theorem test_setbit_clear : outcome (.setbit true false ⟨0, 3⟩ 63) bits60to67 = some (0, 0, 0x7000000000000000, 0x0F) := by decide +kernel

/-- R200: the example that spans two words. -/
theorem test_getbits : outcome (.getbits ⟨0, 3⟩ 58 12) bits60to67 = some (0, 0x3FC, 0xF000000000000000, 0x0F) := by decide +kernel

/-- R200: the example past the end of the buffer. -/
theorem test_getbits_tail : outcome (.getbits ⟨0, 1⟩ 60 8) bits60to67 = some (0, 0x0F, 0xF000000000000000, 0x0F) := by decide +kernel

/-- R201: the source's scenario. -/
theorem test_setbits : outcome (.setbits false ⟨0, 3⟩ 60 8 0xFF) [] = some (0, 0, 0xF000000000000000, 0x0F) := by decide +kernel

/-- R201: a write past the end of the buffer is ignored. -/
theorem test_setbits_tail : outcome (.setbits false ⟨0, 1⟩ 60 8 0xFF) [] = some (0, 0, 0xF000000000000000, 0) := by decide +kernel

/-- R220: the example; the detector says 1. -/
theorem test_copy_overlap : outcome (.copy false ⟨0, 1⟩ 4 ⟨0, 1⟩ 0 8) (mem3 0x0123456789ABCDEF 0 0) = some (2, 0, 0x0123456789ABCEFF, 0) := by decide +kernel

/-- R147 (a): two bases that share a word are `Alias`. -/
theorem test_copy_clash : outcome (.copy false ⟨0, 2⟩ 0 ⟨1, 1⟩ 0 8) logicMem = some (0x40, 0, 0x00FF, 0x0F0F) := by decide +kernel

/-- R241: the example. -/
theorem test_notb : outcome (.notb false ⟨0, 1⟩ 0 16) logicMem = some (0, 0, 0xFF00, 0x0F0F) := by decide +kernel

/-- R242: the example. -/
theorem test_andb : outcome (.andb false ⟨0, 1⟩ 0 ⟨1, 1⟩ 0 16) logicMem = some (0, 0, 0x000F, 0x0F0F) := by decide +kernel

/-- R147 (c): a shifted overlap in one buffer is `Alias`. -/
theorem test_andb_alias : outcome (.andb false ⟨0, 1⟩ 1 ⟨0, 1⟩ 0 16) logicMem = some (0x40, 0, 0x00FF, 0x0F0F) := by decide +kernel

/-- R243: the example. -/
theorem test_orb : outcome (.orb false ⟨0, 1⟩ 0 ⟨1, 1⟩ 0 16) logicMem = some (0, 0, 0x0FFF, 0x0F0F) := by decide +kernel

/-- R244: the misaligned example. -/
theorem test_xorb : outcome (.xorb false ⟨0, 1⟩ 4 ⟨1, 1⟩ 0 8) logicMem = some (0, 0, 0x000F, 0x0F0F) := by decide +kernel

/-- R245: the example. -/
theorem test_andnot : outcome (.andnot false ⟨0, 1⟩ 0 ⟨1, 1⟩ 0 16) logicMem = some (0, 0, 0x00F0, 0x0F0F) := by decide +kernel

/-- R246: the example. -/
theorem test_ornot : outcome (.ornot false ⟨0, 1⟩ 0 ⟨1, 1⟩ 0 16) logicMem = some (0, 0, 0xF0FF, 0x0F0F) := by decide +kernel

/-- R247: the example: a head, a full word, a tail. -/
theorem test_fill : outcome (.fill false true ⟨0, 3⟩ 60 72) [] = some (0, 0, 0xF000000000000000, 0xFFFFFFFFFFFFFFFF) := by decide +kernel

/-- R248: the example. -/
theorem test_iszero : outcome (.iszero ⟨0, 3⟩ 0 60) bits60to67 = some (0, 1, 0xF000000000000000, 0x0F) := by decide +kernel

/-- R248: the example with one more bit. -/
theorem test_iszero_not : outcome (.iszero ⟨0, 3⟩ 0 61) bits60to67 = some (0, 0, 0xF000000000000000, 0x0F) := by decide +kernel

/-- R270: the example at a destination offset. -/
theorem test_rev : outcome (.rev false ⟨0, 1⟩ 4 ⟨1, 1⟩ 0 8) (mem3 0 0x0F0F 0) = some (0, 0, 0x0F00, 0x0F0F) := by decide +kernel

/-- R147 (b): one buffer is `Alias`, even with disjoint ranges. -/
theorem test_rev_alias : outcome (.rev false ⟨0, 1⟩ 32 ⟨0, 1⟩ 0 8) logicMem = some (0x40, 0, 0x00FF, 0x0F0F) := by decide +kernel

/-- R280: the example with `V = 0`. -/
theorem test_indexof : outcome (.indexof false ⟨0, 3⟩ 60 192) bits60to67 = some (0, 68, 0xF000000000000000, 0x0F) := by decide +kernel

/-- R280: no match gives −1. -/
theorem test_indexof_none : outcome (.indexof true ⟨0, 3⟩ 68 192) bits60to67 = some (0, 0xFFFFFFFFFFFFFFFF, 0xF000000000000000, 0x0F) := by decide +kernel

/-- R281: the example. -/
theorem test_lastindexof : outcome (.lastindexof true ⟨0, 3⟩ 0 192) bits60to67 = some (0, 67, 0xF000000000000000, 0x0F) := by decide +kernel

/-- R281: the example with `V = 0`. -/
theorem test_lastindexof_zero : outcome (.lastindexof false ⟨0, 3⟩ 0 68) bits60to67 = some (0, 59, 0xF000000000000000, 0x0F) := by decide +kernel

/-- R282: the example. -/
theorem test_card : outcome (.card ⟨0, 3⟩ 62 66) bits60to67 = some (0, 4, 0xF000000000000000, 0x0F) := by decide +kernel

/-- R142 (d): an end before its start is `InvalidArg`. -/
theorem test_card_end : outcome (.card ⟨0, 3⟩ 66 62) bits60to67 = some (0x20, 0, 0xF000000000000000, 0x0F) := by decide +kernel

/-- R300: the misaligned example. -/
theorem test_eqb : outcome (.eqb (some ⟨0, 1⟩) 4 (some ⟨1, 1⟩) 0 8) (mem3 0x0FF0 0x01FF 0) = some (0, 1, 0x0FF0, 0x01FF) := by decide +kernel

/-- R300: exactly one absent buffer is `NullBuf`. -/
theorem test_eqb_null : outcome (.eqb none 0 (some ⟨1, 1⟩) 0 0) logicMem = some (0x60, 0, 0x00FF, 0x0F0F) := by decide +kernel

/-! ## Whole steps -/

/-- The very next step after `withFetchWord` runs the table word, as the first instruction after reset. -/
theorem test_withFetchWord_runs :
    (match step (State.reset.withFetchWord 576 (0x01 + (192 <<< 448))) with
      | .next t => (t.units.head?).map (fun y => (y.stat, y.res))
      | _ => none) = some (0, 3) := by decide +kernel

/-- A raced unit is marked by a host write into the range it reads, and by no other (R79). -/
theorem test_hostWrite_marks :
    (match step { sys 3 [] with
        units := [unit (encode (.card ⟨0, 3⟩ 60 68)), unit (encode (.card ⟨0, 3⟩ 60 64))]
        turns := [.hostWrite 1 0x0F] } with
      | .next t => t.units.map UnitState.raced
      | _ => []) = [true, false] := by decide +kernel

/-! ## Witnesses -/

/-- Two units with commands submitted, and a schedule. -/
def sys2 (d₀ d₁ : Desc) (ts : List Turn) : State := ⟨4, [], [], [unit d₀, unit d₁], 0, ts, 0⟩

/-- A lock table in which unit 1 holds base 0. -/
def heldByOne : LockTable := [(0, 1)]

/-- The partial word a `SETBIT` of bit 0 updates. -/
def oneBit : Upd := ⟨0, 1, allOnes⟩

/-- Its work, locked. -/
def oneBitWork : Work := ⟨0, false, false, 0, [oneBit]⟩

/-- A unit that has begun that work. -/
def begun : UnitState := ⟨0x01, 7, Desc.zero, some ⟨.work oneBitWork, [.waiting oneBit], .between, false⟩, false, []⟩

/-- Hypotheses of `EncodeRecoversUsedWords`. -/
theorem test_witness_encodeRecovers :
    decode ⟨0x07, 1, 2, 3, 4, 5, 6, 7, 8⟩ = .ok (.copy false ⟨1, 2⟩ 3 ⟨4, 5⟩ 6 7) := by
  decide +kernel


/-- Hypotheses of `IllegalDescriptorCompletesWithIllegal`: the least reserved opcode above the map, and opcode 0. -/
theorem test_witness_illegal :
    ∃ s : State, s.turns = [.exec 0] ∧ s.units[0]? = some (unit ⟨0x15, 0, 0, 0, 0, 0, 0, 0, 0⟩) ∧
      (unit ⟨0x15, 0, 0, 0, 0, 0, 0, 0, 0⟩).busy = true ∧ (unit ⟨0x15, 0, 0, 0, 0, 0, 0, 0, 0⟩).job = none ∧
      0x15 ≤ (Desc.opc ⟨0x15, 0, 0, 0, 0, 0, 0, 0, 0⟩) ∧ Desc.opc ⟨0, 0, 0, 0, 0, 0, 0, 0, 0⟩ = 0 := by
  exact ⟨sys2 ⟨0x15, 0, 0, 0, 0, 0, 0, 0, 0⟩ Desc.zero [.exec 0], by decide +kernel⟩


/-- Hypotheses of `IllegalDescriptorCompletesWithIllegal`: the lowest reserved header bit, and a flag `COPY` does not allow. -/
theorem test_witness_illegal_header :
    ¬ Desc.LegalHeader ⟨0x1007, 0, 0, 0, 0, 0, 0, 0, 0⟩ ∧ ¬ Desc.LegalHeader ⟨0x107 + 0x100, 0, 0, 0, 0, 0, 0, 0, 0⟩ := by
  constructor
  · intro h
    exact absurd h.1 (by decide +kernel)
  · rintro ⟨-, op, ho, -, hv, -⟩
    cases op <;> first | exact absurd ho (by decide +kernel) | exact absurd (hv (by decide +kernel)) (by decide +kernel)


/-- Hypotheses of `IgnoredWordsHaveNoEffect`. -/
theorem test_witness_ignoredWords :
    decode ⟨0x01, 9, 9, 9, 9, 9, 9, 192, 9⟩ = .ok (.plen 192) ∧
      SameOperands ⟨0x01, 9, 9, 9, 9, 9, 9, 192, 9⟩ ⟨0x01, 0, 0, 0, 0, 0, 0, 192, 0⟩ (.plen 192) := by
  exact ⟨by decide +kernel, rfl⟩


/-- Hypotheses of `StepRunsDecodedCommand`. -/
theorem test_witness_stepRuns :
    (sys2 (encode (.plen 5)) Desc.zero [.exec 0]).units[0]? = some (unit (encode (.plen 5))) ∧
      (unit (encode (.plen 5))).busy = true ∧ decode (encode (.plen 5)) = .ok (.plen 5) := by
  decide +kernel


/-- Hypotheses of `SubmissionLatchesOrWaits`: an idle unit and a busy one. -/
theorem test_witness_submission :
    ∃ s : State, ∃ x y : UnitState, s.turns = [.submit 0] ∧ s.units = [x] ∧ x.offered = [Desc.zero] ∧ x.busy = false ∧
      { s with units := [y] }.units[0]? = some y ∧ y.offered = [Desc.zero] ∧ y.busy = true := by
  exact ⟨⟨1, [], [], [⟨0x72, 7, Desc.zero, none, false, [Desc.zero]⟩], 0, [.submit 0], 0⟩,
    ⟨0x72, 7, Desc.zero, none, false, [Desc.zero]⟩, ⟨0x73, 7, Desc.zero, none, false, [Desc.zero]⟩, by decide +kernel⟩


/-- Hypotheses of `PlenGivesWordCount`: the last index and the first negative word. -/
theorem test_witness_plen :
    (sys 3 logicMem).units[(sys 3 logicMem).active]? = some (unit Desc.zero) ∧
      (0x7FFFFFFFFFFFFFFF : Word).toNat < 2 ^ 63 ∧ 2 ^ 63 ≤ (0x8000000000000000 : Word).toNat := by
  decide +kernel


/-- Hypotheses of `UlenGivesBitLengthOrOverflows`: both sides of each boundary. -/
theorem test_witness_ulen :
    (sys 3 logicMem).units[(sys 3 logicMem).active]? = some (unit Desc.zero) ∧
      (0x01FFFFFFFFFFFFFF : Word).toNat < 2 ^ 57 ∧ 2 ^ 57 ≤ (0x0200000000000000 : Word).toNat ∧
      (0x7FFFFFFFFFFFFFFF : Word).toNat < 2 ^ 63 ∧ 2 ^ 63 ≤ (0x8000000000000000 : Word).toNat := by
  decide +kernel


/-- Hypotheses of `GetbitReadsTheBit`: the last bit of a buffer that fills memory. -/
theorem test_witness_getbit :
    (sys 3 logicMem).Quiet (unit Desc.zero) ∧ (Instr.getbit ⟨0, 3⟩ 191).wellFormed = true ∧
      Buf.InMemory ⟨0, 3⟩ 3 ∧ Buf.Holds ⟨0, 3⟩ 191 1 := by
  simp only [State.Quiet, Buf.InMemory, Buf.Holds, State.LockOpen, BuffersClash, RangesClash, ExtentsMeet, RangesMeet, Apart]
  decide +kernel


/-- Hypotheses of `SetbitWritesTheBit`: locked with the entry free, and lock-free with it held. -/
theorem test_witness_setbit :
    (sys 3 logicMem).Quiet (unit Desc.zero) ∧ (Instr.setbit false true ⟨0, 3⟩ 191).wellFormed = true ∧
      Buf.InMemory ⟨0, 3⟩ 3 ∧ Buf.Holds ⟨0, 3⟩ 191 1 ∧ (sys 3 logicMem).LockOpen false 0 191 1 ∧
      State.LockOpen { sys 3 logicMem with lock := heldByOne } true 0 191 1 := by
  simp only [State.Quiet, Buf.InMemory, Buf.Holds, State.LockOpen, BuffersClash, RangesClash, ExtentsMeet, RangesMeet, Apart]
  decide +kernel


/-- Hypotheses of `GetbitsExtractsTheBits`: a range that runs past the end. -/
theorem test_witness_getbits :
    (sys 3 logicMem).Quiet (unit Desc.zero) ∧ (Instr.getbits ⟨0, 3⟩ 188 64).wellFormed = true ∧
      Buf.InMemory ⟨0, 3⟩ 3 := by
  simp only [State.Quiet, Buf.InMemory, Buf.Holds, State.LockOpen, BuffersClash, RangesClash, ExtentsMeet, RangesMeet, Apart]
  decide +kernel


/-- Hypotheses of `SetbitsInsertsTheBits`: a range that runs past the end. -/
theorem test_witness_setbits :
    (sys 3 logicMem).Quiet (unit Desc.zero) ∧ (Instr.setbits false ⟨0, 3⟩ 188 64 0xFF).wellFormed = true ∧
      Buf.InMemory ⟨0, 3⟩ 3 ∧ (sys 3 logicMem).LockOpen false 0 188 (min 64 (64 * 3 - 188)) := by
  simp only [State.Quiet, Buf.InMemory, Buf.Holds, State.LockOpen, BuffersClash, RangesClash, ExtentsMeet, RangesMeet, Apart]
  decide +kernel


/-- Hypotheses of `SetbitsAndGetbitsAreInverse`. -/
theorem test_witness_inverse :
    (sys 3 logicMem).Quiet (unit Desc.zero) ∧ (Instr.getbits ⟨0, 3⟩ 60 64).wellFormed = true ∧
      Buf.InMemory ⟨0, 3⟩ 3 ∧ Buf.Holds ⟨0, 3⟩ 60 64 ∧ (sys 3 logicMem).LockOpen false 0 60 64 := by
  simp only [State.Quiet, Buf.InMemory, Buf.Holds, State.LockOpen, BuffersClash, RangesClash, ExtentsMeet, RangesMeet, Apart]
  decide +kernel


/-- Hypotheses of `CopyMovesTheRange`: an overlapping copy; and one of full words with the lock held. -/
theorem test_witness_copy :
    (sys 3 logicMem).Quiet (unit Desc.zero) ∧ (Instr.copy false ⟨0, 3⟩ 4 ⟨0, 3⟩ 0 188).wellFormed = true ∧
      Buf.InMemory ⟨0, 3⟩ 3 ∧ Buf.Holds ⟨0, 3⟩ 4 188 ∧ Buf.Holds ⟨0, 3⟩ 0 188 ∧ ¬ BuffersClash ⟨0, 3⟩ ⟨0, 3⟩ ∧
      (sys 3 logicMem).LockOpen false 0 4 188 ∧ State.LockOpen { sys 3 logicMem with lock := heldByOne } false 0 64 128 := by
  simp only [State.Quiet, Buf.InMemory, Buf.Holds, State.LockOpen, BuffersClash, RangesClash, ExtentsMeet, RangesMeet, Apart]
  decide +kernel


/-- Hypotheses of `CopyEqualsCopyThroughScratch`. -/
theorem test_witness_copyScratch :
    (sys 3 logicMem).Quiet (unit Desc.zero) ∧ (Instr.copy false ⟨0, 1⟩ 4 ⟨0, 1⟩ 0 8).wellFormed = true ∧
      Buf.wellFormed ⟨1, 1⟩ = true ∧ Buf.InMemory ⟨0, 1⟩ 3 ∧ Buf.InMemory ⟨1, 1⟩ 3 ∧ Buf.Holds ⟨0, 1⟩ 4 8 ∧
      Buf.Holds ⟨0, 1⟩ 0 8 ∧ Buf.Holds ⟨1, 1⟩ 0 8 ∧ Apart ⟨0, 1⟩ ⟨1, 1⟩ ∧ (sys 3 logicMem).LockOpen false 0 4 8 ∧
      (sys 3 logicMem).LockOpen false 1 0 8 := by
  simp only [State.Quiet, Buf.InMemory, Buf.Holds, State.LockOpen, BuffersClash, RangesClash, ExtentsMeet, RangesMeet, Apart]
  decide +kernel


/-- Hypotheses of `NotInvertsTheRange`. -/
theorem test_witness_notb :
    (sys 3 logicMem).Quiet (unit Desc.zero) ∧ (Instr.notb false ⟨0, 3⟩ 60 132).wellFormed = true ∧
      Buf.InMemory ⟨0, 3⟩ 3 ∧ Buf.Holds ⟨0, 3⟩ 60 132 ∧ (sys 3 logicMem).LockOpen false 0 60 132 := by
  simp only [State.Quiet, Buf.InMemory, Buf.Holds, State.LockOpen, BuffersClash, RangesClash, ExtentsMeet, RangesMeet, Apart]
  decide +kernel


/-- Hypotheses of `BinaryCommandsCombineTheRanges`: two buffers; one buffer with coinciding ranges, and with ranges that only touch. -/
theorem test_witness_binary :
    (sys 3 logicMem).Quiet (unit Desc.zero) ∧ (Instr.andb false ⟨0, 1⟩ 4 ⟨1, 2⟩ 60 60).wellFormed = true ∧
      Buf.InMemory ⟨0, 1⟩ 3 ∧ Buf.InMemory ⟨1, 2⟩ 3 ∧ Buf.Holds ⟨0, 1⟩ 4 60 ∧ Buf.Holds ⟨1, 2⟩ 60 60 ∧
      ¬ BuffersClash ⟨0, 1⟩ ⟨1, 2⟩ ∧ ¬ RangesClash ⟨0, 1⟩ 4 ⟨1, 2⟩ 60 60 ∧ (sys 3 logicMem).LockOpen false 0 4 60 ∧
      ¬ RangesClash ⟨0, 1⟩ 4 ⟨0, 1⟩ 4 8 ∧ ¬ RangesClash ⟨0, 1⟩ 8 ⟨0, 1⟩ 0 8 := by
  simp only [State.Quiet, Buf.InMemory, Buf.Holds, State.LockOpen, BuffersClash, RangesClash, ExtentsMeet, RangesMeet, Apart]
  decide +kernel


/-- Hypotheses of `FillSetsTheRange`. -/
theorem test_witness_fill :
    (sys 3 logicMem).Quiet (unit Desc.zero) ∧ (Instr.fill false true ⟨0, 3⟩ 60 72).wellFormed = true ∧
      Buf.InMemory ⟨0, 3⟩ 3 ∧ Buf.Holds ⟨0, 3⟩ 60 72 ∧ (sys 3 logicMem).LockOpen false 0 60 72 := by
  simp only [State.Quiet, Buf.InMemory, Buf.Holds, State.LockOpen, BuffersClash, RangesClash, ExtentsMeet, RangesMeet, Apart]
  decide +kernel


/-- Hypotheses of `IszeroTestsTheRange`. -/
theorem test_witness_iszero :
    (sys 3 logicMem).Quiet (unit Desc.zero) ∧ (Instr.iszero ⟨0, 3⟩ 68 124).wellFormed = true ∧
      Buf.InMemory ⟨0, 3⟩ 3 ∧ Buf.Holds ⟨0, 3⟩ 68 124 := by
  simp only [State.Quiet, Buf.InMemory, Buf.Holds, State.LockOpen, BuffersClash, RangesClash, ExtentsMeet, RangesMeet, Apart]
  decide +kernel


/-- Hypotheses of `LogicalLawsHold`. -/
theorem test_witness_laws :
    (sys 3 logicMem).Quiet (unit Desc.zero) ∧ (Instr.andnot false ⟨0, 1⟩ 4 ⟨1, 1⟩ 0 8).wellFormed = true ∧
      (Instr.notb false ⟨2, 1⟩ 1 8).wellFormed = true ∧ Buf.InMemory ⟨0, 1⟩ 3 ∧ Buf.InMemory ⟨1, 1⟩ 3 ∧
      Buf.InMemory ⟨2, 1⟩ 3 ∧ Buf.Holds ⟨0, 1⟩ 4 8 ∧ Buf.Holds ⟨1, 1⟩ 0 8 ∧ Buf.Holds ⟨2, 1⟩ 1 8 ∧
      ¬ BuffersClash ⟨0, 1⟩ ⟨1, 1⟩ ∧ ¬ RangesClash ⟨0, 1⟩ 4 ⟨1, 1⟩ 0 8 ∧ Apart ⟨2, 1⟩ ⟨0, 1⟩ ∧ Apart ⟨2, 1⟩ ⟨1, 1⟩ ∧
      (sys 3 logicMem).LockOpen false 0 4 8 ∧ (sys 3 logicMem).LockOpen false 2 1 8 := by
  simp only [State.Quiet, Buf.InMemory, Buf.Holds, State.LockOpen, BuffersClash, RangesClash, ExtentsMeet, RangesMeet, Apart]
  decide +kernel


/-- Hypotheses of `RevReversesTheRange`. -/
theorem test_witness_rev :
    (sys 3 logicMem).Quiet (unit Desc.zero) ∧ (Instr.rev false ⟨0, 1⟩ 4 ⟨1, 2⟩ 60 60).wellFormed = true ∧
      Buf.InMemory ⟨0, 1⟩ 3 ∧ Buf.InMemory ⟨1, 2⟩ 3 ∧ Buf.Holds ⟨0, 1⟩ 4 60 ∧ Buf.Holds ⟨1, 2⟩ 60 60 ∧
      Apart ⟨0, 1⟩ ⟨1, 2⟩ ∧ (sys 3 logicMem).LockOpen false 0 4 60 := by
  simp only [State.Quiet, Buf.InMemory, Buf.Holds, State.LockOpen, BuffersClash, RangesClash, ExtentsMeet, RangesMeet, Apart]
  decide +kernel


/-- Hypotheses of `RevTwiceGivesTheRangeBack`. -/
theorem test_witness_revTwice :
    (sys 3 logicMem).Quiet (unit Desc.zero) ∧ (Instr.rev false ⟨1, 1⟩ 0 ⟨0, 1⟩ 4 8).wellFormed = true ∧
      (Instr.rev false ⟨2, 1⟩ 1 ⟨1, 1⟩ 0 8).wellFormed = true ∧ Buf.InMemory ⟨0, 1⟩ 3 ∧ Buf.InMemory ⟨1, 1⟩ 3 ∧
      Buf.InMemory ⟨2, 1⟩ 3 ∧ Buf.Holds ⟨0, 1⟩ 4 8 ∧ Buf.Holds ⟨1, 1⟩ 0 8 ∧ Buf.Holds ⟨2, 1⟩ 1 8 ∧
      Apart ⟨1, 1⟩ ⟨0, 1⟩ ∧ Apart ⟨2, 1⟩ ⟨0, 1⟩ ∧ Apart ⟨2, 1⟩ ⟨1, 1⟩ ∧ (sys 3 logicMem).LockOpen false 1 0 8 ∧
      (sys 3 logicMem).LockOpen false 2 1 8 := by
  simp only [State.Quiet, Buf.InMemory, Buf.Holds, State.LockOpen, BuffersClash, RangesClash, ExtentsMeet, RangesMeet, Apart]
  decide +kernel


/-- Hypotheses of `IndexofFindsTheLowest`, `LastindexofFindsTheHighest`, `CardCountsTheOnes` and `SearchAgreesWithCount`: a range that ends at the end of the buffer. -/
theorem test_witness_search :
    (sys 3 logicMem).Quiet (unit Desc.zero) ∧ (Instr.indexof true ⟨0, 3⟩ 60 192).wellFormed = true ∧
      (Instr.lastindexof true ⟨0, 3⟩ 60 192).wellFormed = true ∧ (Instr.card ⟨0, 3⟩ 60 192).wellFormed = true ∧
      Buf.InMemory ⟨0, 3⟩ 3 ∧ Buf.Holds ⟨0, 3⟩ 60 (192 - 60) := by
  simp only [State.Quiet, Buf.InMemory, Buf.Holds, State.LockOpen, BuffersClash, RangesClash, ExtentsMeet, RangesMeet, Apart]
  decide +kernel


/-- Hypotheses of `EqComparesTheRanges`: two buffers that overlap. -/
theorem test_witness_eqb :
    (sys 3 logicMem).Quiet (unit Desc.zero) ∧ (Instr.eqb (some ⟨0, 2⟩) 4 (some ⟨1, 2⟩) 0 124).wellFormed = true ∧
      Buf.InMemory ⟨0, 2⟩ 3 ∧ Buf.InMemory ⟨1, 2⟩ 3 ∧ Buf.Holds ⟨0, 2⟩ 4 124 ∧ Buf.Holds ⟨1, 2⟩ 0 124 := by
  simp only [State.Quiet, Buf.InMemory, Buf.Holds, State.LockOpen, BuffersClash, RangesClash, ExtentsMeet, RangesMeet, Apart]
  decide +kernel


/-- Hypotheses of `EqShortcutsPrecedeTheOtherChecks`: one base outside memory, with two lengths, and a position outside both. -/
theorem test_witness_eqShortcuts :
    (sys 3 logicMem).units[(sys 3 logicMem).active]? = some (unit Desc.zero) ∧ (500 : Word).isIndex = true ∧
      (7 : Word).isIndex = true ∧ Buf.wellFormed ⟨9, 1⟩ = true ∧ Buf.wellFormed ⟨9, 2⟩ = true ∧
      (⟨9, 1⟩ : Buf).base = (⟨9, 2⟩ : Buf).base ∧ (unit Desc.zero).raced = false := by
  decide +kernel


/-- Hypotheses of `EmptyRangeGivesTheNeutralResult`: a position and a buffer that every later check would refuse. -/
theorem test_witness_emptyRange :
    (sys 3 logicMem).units[(sys 3 logicMem).active]? = some (unit Desc.zero) ∧
      (Instr.iszero ⟨9, 1⟩ 500 0).wellFormed = true ∧ bitCount (.iszero ⟨9, 1⟩ 500 0) = some 0 ∧
      (Instr.card ⟨9, 1⟩ 500 500).wellFormed = true ∧ bitCount (.card ⟨9, 1⟩ 500 500) = some 0 := by
  decide +kernel


/-- Hypotheses of `InvalidArgExactlyWhenIllFormed`: both sides of a boundary. -/
theorem test_witness_invalidArg :
    (sys 3 logicMem).units[(sys 3 logicMem).active]? = some (unit Desc.zero) ∧
      (unit Desc.zero).busy = true ∧ (Instr.getbits ⟨0, 2⟩ 0 65).wellFormed = false ∧
      (Instr.getbits ⟨0, 2⟩ 0 64).wellFormed = true := by
  decide +kernel


/-- Hypotheses of `BusErrorWhenExtentLeavesMemory`: an extent one word too long, and one that just fits. -/
theorem test_witness_bus :
    (sys 3 logicMem).units[(sys 3 logicMem).active]? = some (unit Desc.zero) ∧
      (Instr.notb false ⟨1, 3⟩ 0 1).wellFormed = true ∧ bitCount (.notb false ⟨1, 3⟩ 0 1) ≠ some 0 ∧
      ¬ Buf.InMemory ⟨1, 3⟩ 3 ∧ Buf.InMemory ⟨1, 2⟩ 3 ∧ (unit Desc.zero).busy = true := by
  simp only [State.Quiet, Buf.InMemory, Buf.Holds, State.LockOpen, BuffersClash, RangesClash, ExtentsMeet, RangesMeet, Apart]
  decide +kernel


/-- Hypotheses of `RangeErrorWhenRangeLeavesBuffer`: a range one bit too long, and one that just fits. -/
theorem test_witness_range :
    (sys 3 logicMem).units[(sys 3 logicMem).active]? = some (unit Desc.zero) ∧ (unit Desc.zero).busy = true ∧
      (Instr.notb false ⟨0, 3⟩ 60 133).wellFormed = true ∧ bitCount (.notb false ⟨0, 3⟩ 60 133) = some 133 ∧
      Buf.InMemory ⟨0, 3⟩ 3 ∧ ¬ Buf.Holds ⟨0, 3⟩ 60 133 ∧ Buf.Holds ⟨0, 3⟩ 60 132 ∧
      toleratesOverrun (.notb false ⟨0, 3⟩ 60 133) = false := by
  simp only [State.Quiet, Buf.InMemory, Buf.Holds, State.LockOpen, BuffersClash, RangesClash, ExtentsMeet, RangesMeet, Apart]
  decide +kernel


/-- Hypotheses of `AliasErrorExactlyWhenForbidden`: R147 (a), (c) and (b), with the nearest legal operands. -/
theorem test_witness_aliasing :
    (sys 3 logicMem).units[(sys 3 logicMem).active]? = some (unit Desc.zero) ∧ (unit Desc.zero).busy = true ∧
      (Instr.copy false ⟨0, 2⟩ 0 ⟨1, 1⟩ 0 8).wellFormed = true ∧ BuffersClash ⟨0, 2⟩ ⟨1, 1⟩ ∧ ¬ BuffersClash ⟨0, 1⟩ ⟨1, 1⟩ ∧
      RangesClash ⟨0, 1⟩ 7 ⟨0, 1⟩ 0 8 ∧ ¬ RangesClash ⟨0, 1⟩ 8 ⟨0, 1⟩ 0 8 ∧ (⟨0, 1⟩ : Buf).base = (⟨0, 2⟩ : Buf).base ∧
      Buf.InMemory ⟨0, 2⟩ 3 ∧ Buf.InMemory ⟨1, 1⟩ 3 ∧ Buf.Holds ⟨0, 1⟩ 7 8 ∧ Buf.Holds ⟨1, 1⟩ 0 8 := by
  simp only [State.Quiet, Buf.InMemory, Buf.Holds, State.LockOpen, BuffersClash, RangesClash, ExtentsMeet, RangesMeet, Apart]
  decide +kernel


/-- Hypotheses of `ErrorsDependOnDescriptorAlone` (the second state with another unit acting and a lock held) and
`ErrorsLeaveAllButStatAndRes`. -/
theorem test_witness_errors :
    (sys 3 logicMem).units[(sys 3 logicMem).active]? = some (unit Desc.zero) ∧ (unit Desc.zero).busy = true ∧
      exec (.plen 0x8000000000000000) (sys 3 logicMem) =
        .next ((sys 3 logicMem).setUnit 0 ((unit Desc.zero).raise .invalidArg)) ∧
      ((unit Desc.zero).raise .invalidArg).busy = false ∧ ((unit Desc.zero).raise .invalidArg).err ≠ 0 ∧
      ∃ s' : State, s'.memWords = (sys 3 logicMem).memWords ∧ s'.units[s'.active]? = some begun ∧ s'.active = 1 ∧
        s'.lock = heldByOne := by
  exact ⟨rfl, by decide +kernel, rfl, by decide +kernel, by decide +kernel,
    ⟨3, [], heldByOne, [unit Desc.zero, begun], 1, [], 0⟩, rfl, rfl, rfl, rfl⟩


/-- Hypotheses of `OverlapFlagOnlyFromCopy` and `CommandFrame`: a copy onto itself, four bits up. -/
theorem test_witness_overlap :
    ∃ t y, exec (.copy false ⟨0, 1⟩ 4 ⟨0, 1⟩ 0 8) (sys 3 logicMem) = .next t ∧ t.units[0]? = some y ∧ y.busy = false ∧
      y.ovl = true := by
  exact ⟨_, _, rfl, rfl, by decide +kernel, by decide +kernel⟩


/-- Hypotheses of `EveryCommandCompletesWhenLocksAreFree`. -/
theorem test_witness_completes :
    (sys 3 logicMem).units[(sys 3 logicMem).active]? = some (unit Desc.zero) ∧ (sys 3 logicMem).lock = [] := by
  decide +kernel


/-- Hypotheses of `WriteFootprintIsTheDestinationRange`: a range clipped at the end of the buffer. -/
theorem test_witness_footprint :
    ∃ w, planOf (.setbits false ⟨0, 3⟩ 188 8 0xFF) 3 [] = .work w ∧
      destRange (.setbits false ⟨0, 3⟩ 188 8 0xFF) = some (0, 188, 4) := by
  exact ⟨_, rfl, by decide +kernel⟩


/-- Hypotheses of `WindowsDeliverTheSourceBits`: the last destination bit. -/
theorem test_witness_windows :
    Buf.Holds ⟨1, 2⟩ 60 60 ∧ 63 < 64 ∧ 4 ≤ 64 * 0 + 63 ∧ 64 * 0 + 63 < 4 + 60 := by
  simp only [State.Quiet, Buf.InMemory, Buf.Holds, State.LockOpen, BuffersClash, RangesClash, ExtentsMeet, RangesMeet, Apart]
  decide +kernel


/-- Hypotheses of `EventRunEqualsAtomicRun`. -/
theorem test_witness_eventRun :
    ∃ t, exec (.setbit false true ⟨0, 1⟩ 0) ⟨4, [], [], [unit (encode (.setbit false true ⟨0, 1⟩ 0))], 0, [], 0⟩ = .next t ∧
      Memory.wf [] = true ∧ (unit (encode (.setbit false true ⟨0, 1⟩ 0))).busy = true ∧
      decode (encode (.setbit false true ⟨0, 1⟩ 0)) = .ok (.setbit false true ⟨0, 1⟩ 0) := by
  exact ⟨_, rfl, by decide +kernel, by decide +kernel, by decide +kernel⟩


/-- A schedule of two `FILL`s in which the second unit waits for the lock of the word both fill a part of, and both
complete. -/
def sharedTurns : List Turn :=
  [.start 0 false, .start 1 false, .event 0 0, .event 0 0, .event 0 0, .event 0 0, .event 0 0, .event 1 0, .event 0 0, .event 0 0,
    .event 0 0, .finish 0, .event 1 0, .event 1 0, .event 1 0, .event 1 0, .finish 1]

/-- The two commands of that schedule: they fill bits 60 to 67 and bits 68 to 71 of one buffer. -/
def sharedCmds : List Instr := [.fill false true ⟨0, 2⟩ 60 8, .fill false true ⟨0, 2⟩ 68 4]

/-- The two units with the commands submitted. -/
def shared : State := sys2 (encode (.fill false true ⟨0, 2⟩ 60 8)) (encode (.fill false true ⟨0, 2⟩ 68 4)) sharedTurns

/-- R81: the word the two commands share holds both ranges; hypotheses of `LockedCommandsAllTakeEffect`: the schedule runs,
and both units complete. -/
theorem test_witness_shared :
    (match run 17 shared with
      | .next t => (t.units.map UnitState.busy, t.mem.readWord 0, t.mem.readWord 1)
      | _ => ([], 0, 0)) = ([false, false], 0xF000000000000000, 0xFF) ∧
    shared.units.length = sharedCmds.length ∧ shared.turns.length = 17 := by decide +kernel

/-- Hypotheses of `LockedCommandsAllTakeEffect`: the two commands are as it asks, with adjacent ranges. -/
theorem test_witness_shared_cmds :
    (∀ (u : Nat) (x : UnitState) (i : Instr), shared.units[u]? = some x → sharedCmds[u]? = some i →
      x.busy = true ∧ x.job = none ∧ x.raced = false ∧ decode x.cur = .ok i ∧ x.cur.ns = false ∧
      ∃ pos n, destRange i = some (0, pos, n)) ∧
    (∀ (u v : Nat) (i k : Instr), u ≠ v → sharedCmds[u]? = some i → sharedCmds[v]? = some k →
      ∀ a b, b < 64 → InDest i a b → ¬ InDest k a b ∧ ¬ InSource k a b) ∧
    ∀ e ∈ shared.turns, ∃ u, e.IsOf u := by
  refine ⟨fun u x i hx hi => ?_, fun u v i k huv hi hk a b _ h => ?_, ?_⟩
  · match u with
    | 0 => cases hx; cases hi; exact ⟨by decide +kernel, rfl, rfl, by decide +kernel, by decide +kernel, _, _, rfl⟩
    | 1 => cases hx; cases hi; exact ⟨by decide +kernel, rfl, rfl, by decide +kernel, by decide +kernel, _, _, rfl⟩
    | u + 2 => cases hx
  · obtain ⟨_, _, _, hd, hr⟩ := h
    match u, v with
    | 0, 0 => exact absurd rfl huv
    | 1, 1 => exact absurd rfl huv
    | 0, 1 =>
      cases hi; cases hk; cases hd
      refine ⟨?_, fun ⟨_, h, _⟩ => by simp [sourceRanges] at h⟩
      rintro ⟨_, _, _, hd', hr'⟩
      cases hd'
      simp [InRange] at hr hr'
      omega
    | 1, 0 =>
      cases hi; cases hk; cases hd
      refine ⟨?_, fun ⟨_, h, _⟩ => by simp [sourceRanges] at h⟩
      rintro ⟨_, _, _, hd', hr'⟩
      cases hd'
      simp [InRange] at hr hr'
      omega
    | u + 2, _ => cases hi
    | 0, v + 2 => cases hk
    | 1, v + 2 => cases hk
  · simp [shared, sharedTurns, sys2, Turn.IsOf]

/-- R70, R74: the events of a lock-free command come in any order, both reads before both writes among them. -/
theorem test_event_order :
    (match run 6 { sys 3 [] with
        units := [unit (encode (.fill true true ⟨0, 3⟩ 60 8))]
        turns := [.start 0 false, .event 0 0, .event 0 1, .event 0 0, .event 0 0, .finish 0] } with
      | .next t => (t.units.map UnitState.busy, t.mem.readWord 0, t.mem.readWord 1)
      | _ => ([], 0, 0)) = ([false], 0xF000000000000000, 0x0F) := by decide +kernel

/-- A run of `NOT` event by event: its first word is written, then the host writes into its second. -/
def racedRun (foretold : Bool) (ts : List Turn) : State :=
  { sys 3 [] with units := [unit (encode (.notb true ⟨0, 3⟩ 0 128))], turns := [.start 0 foretold, .event 0 0] ++ ts }

/-- The units and the number of free values drawn after `n` steps. -/
def drawn (n : Nat) (s : State) : Option (List Bool × Nat) :=
  match run n s with
  | .next t => some (t.units.map UnitState.busy, t.freeCtr)
  | .fault _ => none
  | .refused _ => none

/-- R79: a raced command draws its `RES` and each value it writes after the interference; with the interference foretold,
what it writes before it too. -/
theorem test_raced_draws :
    drawn 5 (racedRun false [.hostWrite 1 1, .event 0 0, .finish 0]) = some ([false], 2) ∧
    drawn 2 (racedRun false []) = some ([true], 0) ∧ drawn 2 (racedRun true []) = some ([true], 1) := by decide +kernel

/-- Log entry 18: a command does not complete, and a unit is not reset, while a foretold interference is still to come. -/
theorem test_foretold_waits :
    drawn 4 (racedRun true [.event 0 0, .finish 0]) = some ([true], 2) ∧
    drawn 3 (racedRun true [.reset]) = none ∧ drawn 3 (racedRun false [.reset]) = some ([false], 0) := by decide +kernel

/-- Hypotheses of `AcquireWaitsForTheLock`: the entry held, and free. -/
theorem test_witness_acquire :
    [Pending.waiting oneBit][0]? = some (.waiting oneBit) ∧ oneBit.full = false ∧ oneBitWork.ns = false ∧
    begun.job = some ⟨.work oneBitWork, [.waiting oneBit], .between, false⟩ ∧
    LockTable.holder heldByOne oneBitWork.base ≠ none ∧ LockTable.holder [] oneBitWork.base = none := by
  decide +kernel

/-- Hypotheses of `CommandWaitsExactlyForAHeldLock` and `RacedCommandStillCompletes`: a command that gets to work. -/
theorem test_witness_work :
    ∃ w, planOf (.setbit false true ⟨0, 1⟩ 0) 3 [] = .work w ∧ w.ns = false ∧ (∃ d ∈ w.todo, d.full = false) ∧
      LockTable.holder heldByOne w.base ≠ none ∧ (unit Desc.zero).busy = true ∧
      ({ unit Desc.zero with raced := true } : UnitState).raced = true :=
  ⟨_, rfl, rfl, ⟨_, List.mem_singleton_self _, by decide +kernel⟩, by decide +kernel, by decide +kernel, rfl⟩

/-- A raced unit that has written the one word of its `SETBIT`. -/
def written : UnitState :=
  ⟨0x01, 7, encode (.setbit true true ⟨0, 1⟩ 0), some ⟨planDesc (encode (.setbit true true ⟨0, 1⟩ 0)) 4 [], [], .between, false⟩,
    true, []⟩

/-- Hypotheses of the second clauses of `RacedCommandStillCompletes` and `CommandFrame`: a raced command about to complete,
in a system of two units. -/
theorem test_witness_raced_finish :
    ∃ w t, written.job = some ⟨.work w, [], .between, false⟩ ∧ written.raced = true ∧
      decode written.cur = .ok (.setbit true true ⟨0, 1⟩ 0) ∧ written.OnPlan 4 ⟨.work w, [], .between, false⟩ ∧
      step ⟨4, [], [], [unit Desc.zero, written], 0, [.finish 1], 0⟩ = .next t :=
  ⟨_, _, rfl, rfl, by decide +kernel, ⟨⟨[], rfl⟩, fun _ _ => ⟨nofun, List.nodup_nil⟩, nofun⟩, rfl⟩

/-- Hypotheses of the clause of `RacedCommandStillCompletes` about a foretold interference, and of
`StepFaultsExactlyOnBadTurns`: one that is still to come, of a command that depends on a bit. -/
theorem test_witness_foretold :
    ∃ x : UnitState, ∃ w, x.job = some ⟨.work w, [], .between, true⟩ ∧ x.raced = false ∧
      x.OnPlan 4 ⟨.work w, [], .between, true⟩ ∧ ¬ State.NothingOwed ⟨4, [], [], [x], 0, [.reset], 0⟩ := by
  refine ⟨{ written with job := written.job.map (fun j => { j with foretold := true }), raced := false }, _, rfl, rfl,
    ⟨⟨[], rfl⟩, fun _ _ => ⟨nofun, List.nodup_nil⟩, fun _ => ⟨.setbit true true ⟨0, 1⟩ 0, 0, 0, by decide +kernel,
      by decide, by decide, ?_⟩⟩, fun h => absurd (h _ (List.mem_singleton_self _) _ rfl rfl) (by decide)⟩
  refine .inr ⟨⟨0, 0, 1, rfl, by simp [InRange]⟩, .inr ⟨1, by decide, ?_⟩⟩
  rintro ⟨_, _, _, hd, h⟩
  cases hd
  simp [InRange] at h

/-- Hypotheses of both clauses of `ChangeOfWatchedBitRaces`: a host write that changes the first bit of the source range of
a `COPY`, and one that changes the bit before it. -/
theorem test_witness_race :
    ∃ w, planOf (.copy false ⟨0, 1⟩ 0 ⟨1, 1⟩ 8 8) 3 [] = .work w ∧ ¬ (Turn.hostWrite 1 0x100).IsOf 0 ∧
      Depends (.copy false ⟨0, 1⟩ 0 ⟨1, 1⟩ 8 8) 1 8 ∧ (Memory.writeWord [] 1 0x100).bit 1 8 ≠ Memory.bit [] 1 8 ∧
      ¬ Depends (.copy false ⟨0, 1⟩ 0 ⟨1, 1⟩ 8 8) 1 7 ∧ (Memory.writeWord [] 1 0x80).bit 1 7 ≠ Memory.bit [] 1 7 := by
  refine ⟨_, rfl, by simp [Turn.IsOf], .inl ⟨(1, 8, 8), List.mem_singleton_self _, by simp [InRange]⟩, by decide +kernel, ?_,
    by decide +kernel⟩
  rintro (⟨r, hr, h⟩ | ⟨⟨_, _, _, hd, h⟩, -⟩)
  · rw [List.mem_singleton.1 hr] at h
    simp [InRange] at h
  · cases hd
    simp [InRange] at h

/-- A write by another unit into the in-place range of `NOT` marks the unit (R79). -/
theorem test_unit_marks :
    (match step (sys2 (encode (.notb false ⟨0, 1⟩ 0 64)) (encode (.setbit false true ⟨0, 1⟩ 5)) [.exec 1]) with
      | .next t => t.units.map UnitState.raced
      | _ => []) = [true, false] := by decide +kernel

/-- Hypotheses of `HostWritesReachMemoryAlone`: the last word of memory, and a unit there is. -/
theorem test_witness_hostWrite :
    (sys2 Desc.zero Desc.zero [.hostWrite 3 5]).turns = [.hostWrite 3 5] ∧
    3 < (sys2 Desc.zero Desc.zero [.hostWrite 3 5]).memWords ∧
    1 < (sys2 Desc.zero Desc.zero [.hostWriteStat 1 5]).units.length ∧
    1 < (sys2 Desc.zero Desc.zero [.hostWriteRes 1 5]).units.length := by decide +kernel

/-- Hypotheses of `ResetTurnClearsUnitsAndLocks`: reset while a unit is busy. -/
theorem test_witness_reset :
    (sys2 Desc.zero Desc.zero [.reset]).turns = [.reset] ∧ (unit Desc.zero).busy = true ∧
    (sys2 Desc.zero Desc.zero [.reset]).NothingOwed := by
  refine ⟨rfl, by decide +kernel, fun x hx j hj => ?_⟩
  simp only [sys2, List.mem_cons, List.not_mem_nil, or_false, or_self] at hx
  subst hx
  cases hj

/-- Hypotheses of the five statements about every step: a step that goes on from a state that meets the invariants. -/
theorem test_witness_invariants :
    ∃ s t : State, step s = .next t ∧ s.turns ≠ [] ∧ s.MemCanonical ∧ s.StatsLegal ∧ s.InBounds ∧ s.LocksSound := by
  refine ⟨{ State.reset with turns := [.submit 0] }, _, rfl, nofun, rfl, ?_, ?_, ?_⟩
  · intro x hx
    rw [List.eq_of_mem_replicate hx]
    rfl
  · refine ⟨nofun, fun x hx j hj => ?_⟩
    rw [List.eq_of_mem_replicate hx] at hj
    cases hj
  · refine ⟨rfl, fun b u => ⟨nofun, ?_⟩, fun x hx j hj => ?_⟩
    · rintro ⟨x, hx, hb⟩
      rw [List.eq_of_mem_replicate (List.mem_of_getElem? hx)] at hb
      cases hb
    · rw [List.eq_of_mem_replicate hx] at hj
      cases hj

end Sys2Proof.Tests
end

