-- ==== Sys2Proof/Proofs/WordPrimitives.lean ====
section
/-! PROOFS. What the word primitives answer (R13), and `WordPrimitivesMeetTheirDefinitions` (O43). -/

namespace Sys2Proof.Machine

/-- `popcount64` as the size of the set of positions of the 1 bits (R13). -/
theorem popcount64_eq_card (w : Word) :
    popcount64 w = ((Finset.range 64).filter (fun i => w.getLsbD i = true)).card := by
  rw [popcount64, List.countP_eq_length_filter]
  simp only [Finset.card, Finset.filter_val, Finset.range_val, Multiset.range, Multiset.filter_coe,
    Multiset.coe_card, Bool.decide_eq_true]

/-- All that `ctz64` can answer (R13): 64 for the zero word, else the position of the lowest 1 bit. -/
theorem ctz64_cases (w : Word) :
    (w = 0 ∧ ctz64 w = 64) ∨
      (ctz64 w < 64 ∧ w.getLsbD (ctz64 w) = true ∧ ∀ j, j < ctz64 w → w.getLsbD j = false) := by
  rw [ctz64]
  cases h : (List.range 64).find? (fun i => w.getLsbD i) with
  | none =>
    refine .inl ⟨BitVec.eq_of_getLsbD_eq fun i hi => ?_, rfl⟩
    simpa using List.find?_range_eq_none.1 h i hi
  | some k =>
    obtain ⟨hbit, hmem, hbelow⟩ := List.find?_range_eq_some.1 h
    exact .inr ⟨List.mem_range.1 hmem, hbit, fun j hj => by simpa using hbelow j hj⟩

theorem ctz64_zero : ctz64 0 = 64 := by
  obtain ⟨-, h⟩ | ⟨-, hbit, -⟩ := ctz64_cases 0
  · exact h
  · simp at hbit

theorem ctz64_le (w : Word) : ctz64 w ≤ 64 := by
  obtain ⟨-, h⟩ | ⟨h, -⟩ := ctz64_cases w <;> omega

theorem ctz64_lt {w : Word} (hw : w ≠ 0) : ctz64 w < 64 := by
  obtain ⟨h, -⟩ | ⟨h, -⟩ := ctz64_cases w
  · exact absurd h hw
  · exact h

theorem getLsbD_ctz64 {w : Word} (hw : w ≠ 0) : w.getLsbD (ctz64 w) = true := by
  obtain ⟨h, -⟩ | ⟨-, h, -⟩ := ctz64_cases w
  · exact absurd h hw
  · exact h

theorem getLsbD_of_lt_ctz64 {w : Word} {j : Nat} (hj : j < ctz64 w) : w.getLsbD j = false := by
  obtain ⟨rfl, -⟩ | ⟨-, -, h⟩ := ctz64_cases w
  · simp
  · exact h j hj

theorem getLsbD_rev64_of_lt (w : Word) {j : Nat} (hj : j < 64) : (rev64 w).getLsbD j = w.getLsbD (63 - j) := by
  rw [getLsbD_rev64, decide_eq_true hj, Bool.true_and]

theorem rev64_eq_zero_iff (w : Word) : rev64 w = 0 ↔ w = 0 := BitVec.reverse_eq_zero_iff

/-- Leading zeros are the trailing zeros of the reversed word, so each fact about `ctz64` is one about `clz64`. -/
theorem clz64_eq_ctz64_rev64 (w : Word) : clz64 w = ctz64 (rev64 w) := by
  have hfind : (List.range 64).find? (fun i => w.getLsbD (63 - i)) =
      (List.range 64).find? (fun i => (rev64 w).getLsbD i) :=
    List.find?_congr fun i hi => (getLsbD_rev64_of_lt w (List.mem_range.1 hi)).symm
  rw [clz64, ctz64, hfind]

theorem clz64_zero : clz64 0 = 64 := by
  rw [clz64_eq_ctz64_rev64, (rev64_eq_zero_iff 0).2 rfl, ctz64_zero]

theorem clz64_le (w : Word) : clz64 w ≤ 64 := by
  rw [clz64_eq_ctz64_rev64]
  exact ctz64_le _

theorem clz64_lt {w : Word} (hw : w ≠ 0) : clz64 w < 64 := by
  rw [clz64_eq_ctz64_rev64]
  exact ctz64_lt (mt (rev64_eq_zero_iff w).1 hw)

theorem getLsbD_clz64 {w : Word} (hw : w ≠ 0) : w.getLsbD (63 - clz64 w) = true := by
  rw [← getLsbD_rev64_of_lt w (clz64_lt hw), clz64_eq_ctz64_rev64]
  exact getLsbD_ctz64 (mt (rev64_eq_zero_iff w).1 hw)

theorem getLsbD_of_lt_clz64 {w : Word} {j : Nat} (hj : j < clz64 w) : w.getLsbD (63 - j) = false := by
  rw [← getLsbD_rev64_of_lt w (hj.trans_le (clz64_le w))]
  exact getLsbD_of_lt_ctz64 (clz64_eq_ctz64_rev64 w ▸ hj)

/-- `ones(lo, hi)` bit by bit for bounds as R13 has them, where the test against the word's width is not needed. -/
theorem getLsbD_ones_of_le {lo hi : Nat} (hhi : hi ≤ 64) (i : Nat) :
    (ones lo hi).getLsbD i = decide (lo ≤ i ∧ i < hi) := by
  rw [getLsbD_ones, decide_eq_decide]
  omega

/-- Settles O43: each primitive by its own lemmas, `clz64` through the reversed word. -/
theorem wordPrimitivesMeetTheirDefinitions : Obligations.WordPrimitivesMeetTheirDefinitions :=
  ⟨popcount64_eq_card,
    fun w => ⟨fun _ => getLsbD_of_lt_ctz64, ctz64_le w, fun hw => ⟨ctz64_lt hw, getLsbD_ctz64 hw⟩⟩,
    fun w => ⟨fun _ => getLsbD_of_lt_clz64, clz64_le w, fun hw => ⟨clz64_lt hw, getLsbD_clz64 hw⟩⟩,
    ctz64_zero, clz64_zero,
    fun w _ => getLsbD_rev64_of_lt w,
    fun _ _ i _ hhi => getLsbD_ones_of_le hhi i⟩

end Sys2Proof.Machine
end

