-- ==== Sys2Proof/Proofs/Moves.lean ====
section
/-! PROOFS. What a step can do, said once over all kinds of turn: one agent moves, then the units notice what it did to
memory. A predicate that moves and noticing keep is kept by every step. -/

namespace Sys2Proof.Machine

/-- What one agent can do to the system in its turn, before the units notice it (R71). A completion says nothing of the
result and the overlap output it writes, and a whole command nothing of the values, which are free when it was raced
(R79). -/
inductive Move (s : State) : State → Prop
  /-- A turn that is not enabled, or a host write to `STAT` or `RES` (R34, R35). -/
  | wait : Move s s
  /-- Submission to an idle unit (R140). -/
  | submit {u : Nat} {x : UnitState} (d : Desc) (ds : List Desc) (hx : s.units[u]? = some x) (hidle : x.busy = false) :
      Move s (s.setUnit u { x.accept d with offered := ds })
  /-- The start of a submitted command (R141). -/
  | start {u : Nat} {x : UnitState} (f : Bool) (hx : s.units[u]? = some x) (hbusy : x.busy = true) (hjob : x.job = none) :
      Move s (s.setUnit u { x with
        job := some ⟨planDesc x.cur s.memWords s.mem, (planDesc x.cur s.memWords s.mem).todo, .between,
          f && canInterfere x.cur s.memWords s.mem⟩ })
  /-- A memory event of a running command (R69). -/
  | event {u : Nat} {x : UnitState} {j : Job} {w : Work} (k : Nat) (hx : s.units[u]? = some x) (hjob : x.job = some j)
      (hplan : j.plan = .work w) : Move s (workEvent s u k x w j)
  /-- A completion that writes no memory: of a running command, or of one that its checks end as a whole (R148, R149). -/
  | complete {u : Nat} {x : UnitState} {c : Nat} (o : Bool) (r : Word) (ctr : Nat) (hx : s.units[u]? = some x)
      (hcode : c ≤ 7) (hrest : x.holds = none) :
      Move s { s.setUnit u (x.complete c o r) with freeCtr := ctr }
  /-- The whole of a command that passes its checks (R78). -/
  | whole {u : Nat} {x : UnitState} {i : Instr} {w : Work} {us : List Upd} (r : Word) (ctr : Nat)
      (hx : s.units[u]? = some x) (hjob : x.job = none) (hplan : planOf i s.memWords s.mem = .work w)
      (haddr : us.map Upd.addr = w.todo.map Upd.addr) :
      Move s { s.setUnit u (x.complete 0 w.ovl r) with mem := applyUpds s.mem us, freeCtr := ctr }
  /-- A write of the host or another bus master (R84). -/
  | hostWrite {a : Nat} (v : Word) (ha : a < s.memWords) : Move s { s with mem := s.mem.writeWord a v }
  /-- Reset (R350). -/
  | reset : Move s { s with lock := [], units := s.units.map UnitState.clear }

/-! ## Where a unit stands -/

/-- What lock a unit holds is said by its progress alone. -/
theorem UnitState.holds_congr {x y : UnitState} (h : y.job = x.job) : y.holds = x.holds := by
  rw [UnitState.holds, UnitState.holds, h]

theorem UnitState.holds_idle {x : UnitState} (h : x.job = none) : x.holds = none := by
  rw [UnitState.holds, h]

/-- A unit outside a locked update holds no lock (R73). -/
theorem UnitState.holds_between {x : UnitState} {j : Job} (hj : x.job = some j) (hf : j.flight = .between) :
    x.holds = none := by
  obtain ⟨p, todo, fl, f⟩ := j
  cases hf
  rw [UnitState.holds, hj]
  cases p <;> rfl

/-- Inside a locked update of its work a unit holds the lock of the work's base (R73). -/
theorem UnitState.holds_inFlight {x : UnitState} {j : Job} {w : Work} (hj : x.job = some j) (hp : j.plan = .work w)
    (hf : j.flight ≠ .between) : x.holds = some w.base := by
  obtain ⟨p, todo, fl, f⟩ := j
  cases hp
  rw [UnitState.holds, hj]
  cases fl with
  | between => exact absurd rfl hf
  | acquired d => rfl
  | fetched d old => rfl
  | written => rfl

/-! ## Each kind of turn is a move -/

section

variable {s : State} {u : Nat} {x : UnitState}

theorem submitTurn_move (hx : s.units[u]? = some x) : Move s (submitTurn s u x) := by
  obtain ⟨-, h⟩ | ⟨d, ds, hidle, -, h⟩ := submitTurn_cases s u x <;> rw [h]
  · exact .wait
  · exact .submit d ds hx hidle

theorem startTurn_move (f : Bool) (hx : s.units[u]? = some x) : Move s (startTurn s u f x) := by
  obtain ⟨-, h⟩ | ⟨hbusy, hjob, h⟩ := startTurn_cases s u f x <;> rw [h]
  · exact .wait
  · exact .start f hx hbusy hjob

theorem eventTurn_move (k : Nat) (hx : s.units[u]? = some x) : Move s (eventTurn s u k x) := by
  obtain h | ⟨j, w, hjob, hplan, h⟩ := eventTurn_cases s u k x <;> rw [h]
  · exact .wait
  · exact .event k hx hjob hplan

theorem finishTurn_move (hx : s.units[u]? = some x) : Move s (finishTurn s u x) := by
  obtain h | ⟨j, hjob, -, hfl, -, ⟨e, -, h⟩ | ⟨r, -, h⟩ | ⟨w, -, h⟩⟩ := finishTurn_cases s u x <;> rw [h]
  · exact .wait
  · exact .complete false 0 s.freeCtr hx e.code_range.2 (UnitState.holds_between hjob hfl)
  · exact .complete false r s.freeCtr hx (Nat.zero_le 7) (UnitState.holds_between hjob hfl)
  · exact .complete w.ovl _ _ hx (Nat.zero_le 7) (UnitState.holds_between hjob hfl)

/-- A raced command writes the words it would have written (R79). -/
theorem freeUpds_addr (n : Nat) (us : List Upd) : (freeUpds n us).map Upd.addr = us.map Upd.addr := by
  simpa [Function.comp_def] using congrArg (List.map Prod.fst) (freeUpds_addr_mask n us)

/-- Carrying out a command as a whole is a move: a wait, an end by the checks, or the whole of its work (R78, R79). -/
theorem perform_move (i : Instr) (hx : s.units[s.active]? = some x) (hjob : x.job = none) :
    Move s (s.perform x (planOf i s.memWords s.mem)) := by
  cases hp : planOf i s.memWords s.mem with
  | fail e => exact .complete false 0 s.freeCtr hx e.code_range.2 (UnitState.holds_idle hjob)
  | early r => exact .complete false r s.freeCtr hx (Nat.zero_le 7) (UnitState.holds_idle hjob)
  | work w =>
    obtain ⟨-, h⟩ | ⟨-, -, h⟩ | ⟨-, -, h⟩ := perform_work_cases s x w <;> rw [h]
    · exact .wait
    · exact .whole _ _ hx hjob hp (freeUpds_addr _ _)
    · exact .whole w.res s.freeCtr hx hjob hp rfl

end

/-! ## Every step is a move that is noticed -/

/-- A turn that goes on is a move, made with some unit as the acting one, that the units then notice. -/
def Taken (s t : State) : Prop :=
  ∃ (u : Nat) (t' : State) (who : Option Nat) (m : Memory), Move { s with active := u } t' ∧ t = t'.noticeAll who m

/-- A move that nobody notices: memory is noticed to be what it is. -/
theorem Move.taken {s t : State} (h : Move s t) : Taken s t :=
  ⟨s.active, t, none, t.mem, h, (State.noticeAll_self t none).symm⟩

/-- The turn of a unit is taken when what the unit does in it is a move. -/
theorem withUnit_taken {s t : State} {u : Nat} {f : UnitState → State}
    (hf : ∀ x, s.units[u]? = some x → Move s (f x)) (h : withUnit s u f = .next t) : Taken s t := by
  obtain ⟨x, hx, rfl⟩ := withUnit_next s t u f h
  exact (hf x hx).taken

theorem execTurn_taken {s t : State} {u : Nat} (h : execTurn s u = .next t) : Taken s t := by
  obtain ⟨-, hf⟩ | ⟨x, hx, ⟨-, hs⟩ | ⟨-, hjob, ⟨r, -, hill⟩ | ⟨i, -, hex⟩⟩⟩ := execTurn_cases s u
  · rw [hf] at h; cases h
  · rw [hs] at h; cases h
    exact Move.wait.taken
  · rw [hill] at h; cases h
    exact (Move.complete false 0 s.freeCtr hx (Err.illegal).code_range.2 (UnitState.holds_idle hjob)).taken
  · rw [hex, exec_eq_perform i { s with active := u } x hx] at h
    obtain ⟨t', ht', rfl⟩ := noticed_next _ _ _ _ h
    cases ht'
    exact ⟨u, _, some u, s.mem, (perform_move i hx hjob : Move { s with active := u } _), rfl⟩

theorem eventTurn_taken {s t : State} {u k : Nat}
    (h : noticed u s.mem (withUnit s u (eventTurn s u k)) = .next t) : Taken s t := by
  obtain ⟨t', ht', rfl⟩ := noticed_next _ _ _ _ h
  obtain ⟨x, hx, rfl⟩ := withUnit_next _ _ _ _ ht'
  exact ⟨s.active, _, some u, s.mem, eventTurn_move k hx, rfl⟩

theorem hostWriteTurn_taken {s t : State} {a : Nat} {v : Word} (h : hostWriteTurn s a v = .next t) : Taken s t := by
  unfold hostWriteTurn at h
  split at h
  · next ha => cases h; exact ⟨s.active, _, none, s.mem, .hostWrite v ha, rfl⟩
  · cases h

theorem resetTurn_taken {s t : State} (h : resetTurn s = .next t) : Taken s t := by
  obtain ⟨u, -, hf⟩ | ⟨-, hr⟩ := resetTurn_cases s
  · rw [hf] at h; cases h
  · rw [hr] at h; cases h
    exact Move.reset.taken

theorem takeTurn_taken {s t : State} {e : Turn} (h : takeTurn s e = .next t) : Taken s t := by
  cases e with
  | submit u => exact withUnit_taken (fun _ => submitTurn_move) h
  | exec u => exact execTurn_taken h
  | start u f => exact withUnit_taken (fun _ => startTurn_move f) h
  | event u k => exact eventTurn_taken h
  | finish u => exact withUnit_taken (fun _ => finishTurn_move) h
  | hostWrite a v => exact hostWriteTurn_taken h
  | hostWriteStat u v => exact withUnit_taken (fun _ _ => .wait) h
  | hostWriteRes u v => exact withUnit_taken (fun _ _ => .wait) h
  | reset => exact resetTurn_taken h

/-- The invariant rule: what is kept when the schedule goes on (it and the pointer to the acting unit are the model's own),
by every move, and when the units notice, is kept by every step. -/
theorem step_keeps {P : State → Prop} (hsched : ∀ s ts u, P s → P { s with turns := ts, active := u })
    (hmove : ∀ s t, P s → Move s t → P t) (hnotice : ∀ s who m, P s → P (s.noticeAll who m)) :
    ∀ s t : State, P s → step s = .next t → P t := by
  intro s t hs h
  obtain ⟨-, rfl⟩ | ⟨e, ts, -, ht⟩ := step_next s t h
  · exact hs
  · obtain ⟨u, t', who, m, hm, rfl⟩ := takeTurn_taken ht
    exact hnotice _ _ _ (hmove _ _ (hsched s ts u hs) hm)

end Sys2Proof.Machine
end

