-- ==== Sys2Proof/Proofs/MemoryEvents.lean ====
section
/-! PROOFS. What a memory event of a running command does to memory and to the command's progress (R69 to R76), in the
terms the invariants need: which word it stores, and what is still to be written after it. -/

namespace Sys2Proof.Machine

/-! ## What is still to be written, by where the command stands -/

section

variable {j : Job} {d : Upd} {old : Word}

theorem Job.pending_of_between (h : j.flight = .between) : j.pending = j.todo.map Pending.upd := by
  rw [Job.pending, h]

theorem Job.pending_of_acquired (h : j.flight = .acquired d) : j.pending = d :: j.todo.map Pending.upd := by
  rw [Job.pending, h]

theorem Job.pending_of_fetched (h : j.flight = .fetched d old) : j.pending = d :: j.todo.map Pending.upd := by
  rw [Job.pending, h]

theorem Job.pending_of_written (h : j.flight = .written) : j.pending = j.todo.map Pending.upd := by
  rw [Job.pending, h]

/-- An update of the list outside a locked update is one still to be written. -/
theorem Job.upd_mem_pending {k : Nat} {p : Pending} (h : j.flight = .between) (hp : j.todo[k]? = some p) :
    p.upd ∈ j.pending := by
  rw [Job.pending_of_between h]
  exact List.mem_map_of_mem (List.mem_of_getElem? hp)

end

section

variable {j : Job} {k : Nat} {p : Pending}

/-- Without the update at place `k` less is still to be written. -/
theorem Job.pending_eraseIdx (hf : j.flight = .between) :
    ({ j with todo := j.todo.eraseIdx k } : Job).pending.Subperm j.pending := by
  rw [Job.pending_of_between hf, Job.pending_of_between (by exact hf)]
  exact ((List.eraseIdx_sublist _ _).map _).subperm

/-- When the update at place `k` becomes the one in flight, only the order changes in what is still to be written (R73). -/
theorem Job.pending_acquire (hf : j.flight = .between) (hk : j.todo[k]? = some p) :
    ({ j with todo := j.todo.eraseIdx k, flight := .acquired p.upd } : Job).pending.Perm j.pending := by
  obtain ⟨hlt, rfl⟩ := List.getElem?_eq_some_iff.1 hk
  rw [Job.pending_of_between hf]
  exact (List.getElem_cons_eraseIdx_perm hlt).map Pending.upd

/-- The lock-free read of a partial word leaves its update to be written (R74). -/
theorem Job.pending_fetch {d : Upd} (old : Word) (hf : j.flight = .between) (hk : j.todo[k]? = some (.waiting d)) :
    ({ j with todo := j.todo.set k (.fetched d old) } : Job).pending = j.pending := by
  obtain ⟨hlt, hd⟩ := List.getElem?_eq_some_iff.1 hk
  have hget : (j.todo.map Pending.upd)[k]'(by simpa using hlt) = d := by rw [List.getElem_map, hd, Pending.upd_waiting]
  rw [Job.pending_of_between hf, Job.pending_of_between (by exact hf), List.map_set, Pending.upd_fetched]
  conv_lhs => rw [← hget, List.set_getElem_self]

end

/-! ## The event -/

/-- A memory event stores nothing or one word, that of an update still to be written (R69, R76). -/
theorem workEvent_mem (s : State) (u k : Nat) (x : UnitState) (w : Work) (j : Job) :
    (workEvent s u k x w j).mem = s.mem ∨
      ∃ d v, d ∈ j.pending ∧ (workEvent s u k x w j).mem = s.mem.writeWord d.addr v := by
  obtain h | ⟨d, old, hf, hk, h⟩ | ⟨d, hf, hk, -, h⟩ | ⟨d, -, -, -, -, h⟩ | ⟨d, -, -, -, -, -, h⟩ | ⟨d, -, h⟩ |
    ⟨d, old, hf, h⟩ | ⟨-, h⟩ := workEvent_cases s u k x w j <;> rw [h]
  · exact .inl rfl
  · exact .inr ⟨d, _, Job.upd_mem_pending hf hk, rfl⟩
  · exact .inr ⟨d, _, Job.upd_mem_pending hf hk, rfl⟩
  · exact .inl rfl
  · exact .inl rfl
  · exact .inl rfl
  · exact .inr ⟨d, _, Job.pending_of_fetched hf ▸ List.mem_cons_self, rfl⟩
  · exact .inl rfl

theorem workEvent_memWords (s : State) (u k : Nat) (x : UnitState) (w : Work) (j : Job) :
    (workEvent s u k x w j).memWords = s.memWords := by
  obtain h | ⟨_, _, _, _, h⟩ | ⟨_, _, _, _, h⟩ | ⟨_, _, _, _, _, h⟩ | ⟨_, _, _, _, _, _, h⟩ | ⟨_, _, h⟩ |
    ⟨_, _, _, h⟩ | ⟨_, h⟩ := workEvent_cases s u k x w j <;> rw [h] <;> rfl

/-- A memory event changes nothing of the units but the progress of its own; the plan and what is foretold stay, and what
is then still to be written was so before (R76). -/
theorem workEvent_units {s : State} {u : Nat} {x : UnitState} {j : Job} (k : Nat) (w : Work)
    (hx : s.units[u]? = some x) (hj : x.job = some j) :
    ∃ j', (workEvent s u k x w j).units = s.units.set u { x with job := some j' } ∧ j'.plan = j.plan ∧
      j'.foretold = j.foretold ∧ j'.pending.Subperm j.pending := by
  obtain h | ⟨d, old, hf, hk, h⟩ | ⟨d, hf, hk, -, h⟩ | ⟨d, hf, hk, -, -, h⟩ | ⟨d, hf, hk, -, -, -, h⟩ | ⟨d, hf, h⟩ |
    ⟨d, old, hf, h⟩ | ⟨hf, h⟩ := workEvent_cases s u k x w j
  · refine ⟨j, ?_, rfl, rfl, List.Subperm.refl _⟩
    rw [h, ← hj]
    exact congrArg State.units (State.setUnit_self s u x hx).symm
  · exact ⟨_, congrArg State.units h, rfl, rfl, Job.pending_eraseIdx hf⟩
  · exact ⟨_, congrArg State.units h, rfl, rfl, Job.pending_eraseIdx hf⟩
  · exact ⟨_, congrArg State.units h, rfl, rfl, (List.Perm.of_eq (Job.pending_fetch _ hf hk)).subperm⟩
  · exact ⟨_, congrArg State.units h, rfl, rfl, (Job.pending_acquire hf hk).subperm⟩
  · refine ⟨_, congrArg State.units h, rfl, rfl, ?_⟩
    rw [Job.pending_of_acquired hf]
    exact List.Subperm.refl _
  · refine ⟨_, congrArg State.units h, rfl, rfl, ?_⟩
    rw [Job.pending_of_fetched hf]
    exact (List.sublist_cons_self _ _).subperm
  · refine ⟨_, congrArg State.units h, rfl, rfl, ?_⟩
    rw [Job.pending_of_written hf]
    exact List.Subperm.refl _

end Sys2Proof.Machine
end

