-- ==== Sys2Proof/Proofs/StateInvariants.lean ====
section
/-! PROOFS. Canonical memory (`StepKeepsMemoryCanonical`, O56), legal `STAT` words (`StepKeepsStatusLegal`, O57) and the
sound lock table (`StepKeepsLocksSound`, O58), each kept by every move, and the reset state
(`ResetStateIsAsSpecified`, O53; `ResetMeetsTheInvariants`, O55). -/

namespace Sys2Proof.Machine

/-- What holds of every unit holds still when one is replaced by a unit of which it holds. -/
theorem forall_mem_set {p : UnitState → Prop} {l : List UnitState} {y : UnitState} (u : Nat) (h : ∀ x ∈ l, p x)
    (hy : p y) : ∀ x ∈ l.set u y, p x := by
  intro x hx
  obtain hx | rfl := List.mem_or_eq_of_mem_set hx
  · exact h x hx
  · exact hy

/-! ## Canonical memory -/

theorem Move.memCanonical {s t : State} (h : Move s t) (hs : s.MemCanonical) : t.MemCanonical := by
  cases h with
  | wait => exact hs
  | submit => exact hs
  | start => exact hs
  | @event u x j w k hx hjob hplan =>
    obtain hm | ⟨d, v, -, hm⟩ := workEvent_mem s u k x w j <;> rw [State.MemCanonical, hm]
    · exact hs
    · exact Memory.wf_writeWord _ _ _ hs
  | complete => exact hs
  | whole => exact wf_applyUpds _ _ hs
  | hostWrite => exact Memory.wf_writeWord _ _ _ hs
  | reset => exact hs

/-- Settles O56: memory changes by writes of whole words alone, each of which keeps the form. -/
theorem stepKeepsMemoryCanonical : Obligations.StepKeepsMemoryCanonical :=
  step_keeps (fun _ _ _ h => h) (fun _ _ hs h => h.memCanonical hs) (fun _ _ _ h => h)

/-! ## Legal `STAT` words -/

theorem Move.statsLegal {s t : State} (h : Move s t) (hs : s.StatsLegal) : t.StatsLegal := by
  cases h with
  | wait => exact hs
  | @submit u x d ds hx hidle => exact forall_mem_set u hs (setBusy_legal _ (hs x (List.mem_of_getElem? hx)))
  | @start u x f hx hbusy hjob => exact forall_mem_set u hs (hs x (List.mem_of_getElem? hx))
  | @event u x j w k hx hjob hplan =>
    obtain ⟨j', hu, -⟩ := workEvent_units k w hx hjob
    rw [State.StatsLegal, hu]
    exact forall_mem_set u hs (hs x (List.mem_of_getElem? hx))
  | @complete u x c o r ctr hx hcode hrest => exact forall_mem_set u hs (statWord_legal false o c hcode)
  | @whole u x i w us r ctr hx hjob hplan haddr =>
    exact forall_mem_set u hs (statWord_legal false w.ovl 0 (Nat.zero_le 7))
  | hostWrite => exact hs
  | reset =>
    intro y hy
    obtain ⟨x, -, rfl⟩ := List.mem_map.1 hy
    rw [UnitState.clear_stat]
    decide

theorem State.StatsLegal.noticeAll {s : State} (h : s.StatsLegal) (who : Option Nat) (m : Memory) :
    (s.noticeAll who m).StatsLegal := by
  intro y hy
  obtain ⟨x, hx, hstat, -⟩ := State.mem_noticeAll s who m y hy
  rw [hstat]
  exact h x hx

/-- Settles O57: only submission and completion write `STAT`, the one a legal word with `BUSY` set, the other its fields. -/
theorem stepKeepsStatusLegal : Obligations.StepKeepsStatusLegal :=
  step_keeps (fun _ _ _ h => h) (fun _ _ hs h => h.statsLegal hs) (fun _ who m h => h.noticeAll who m)

/-! ## The sound lock table -/

/-- `Job.Sound` of a command that works. -/
theorem Job.sound_work {j : Job} {w : Work} (hp : j.plan = .work w) :
    j.Sound ↔ (j.flight ≠ .between → w.ns = false) ∧ ∀ d old, .fetched d old ∈ j.todo → w.ns = true := by
  rw [Job.Sound, hp]

/-- A command begins where its discipline allows (R141). -/
theorem Job.sound_begun (p : Plan) (f : Bool) : (Job.mk p p.todo .between f).Sound := by
  cases p with
  | fail e => exact ⟨rfl, rfl⟩
  | early r => exact ⟨rfl, rfl⟩
  | work w => simp [Job.Sound, Plan.todo]

section

variable {s t : State} {u : Nat} {x y : UnitState}

/-- In a sound table what an existing unit holds is what its place in its command says (R73). -/
theorem State.LocksSound.holder_iff (h : s.LocksSound) (hx : s.units[u]? = some x) (b : Nat) :
    s.lock.holder b = some u ↔ x.holds = some b := by
  obtain ⟨-, hheld, -⟩ := h
  rw [hheld, hx]
  simp

/-- The table stays sound when one unit changes, if the table changes with what that unit holds and for no other unit. -/
theorem State.LocksSound.of_set (h : s.LocksSound) (hx : s.units[u]? = some x) (hunits : t.units = s.units.set u y)
    (hwf : t.lock.wf = true) (hself : ∀ b, t.lock.holder b = some u ↔ y.holds = some b)
    (hother : ∀ b v, v ≠ u → (t.lock.holder b = some v ↔ s.lock.holder b = some v))
    (hown : ∀ j, y.job = some j → y.busy = true ∧ j.Sound) : t.LocksSound := by
  obtain ⟨-, hheld, hjobs⟩ := h
  refine ⟨hwf, fun b v => ?_, ?_⟩
  · by_cases hv : v = u
    · subst hv
      have hy : t.units[v]? = some y := by rw [hunits]; exact State.setUnit_get s v y x hx
      rw [hself, hy]
      simp
    · have hy : t.units[v]? = s.units[v]? := by rw [hunits]; exact State.setUnit_get_other s u v y (Ne.symm hv)
      rw [hother b v hv, hheld, hy]
  · rw [hunits]
    exact forall_mem_set u hjobs hown

/-- The table stays sound when it is left alone and a unit changes that holds what it held. -/
theorem State.LocksSound.of_set_same (h : s.LocksSound) (hx : s.units[u]? = some x)
    (hunits : t.units = s.units.set u y) (hlock : t.lock = s.lock) (hholds : y.holds = x.holds)
    (hown : ∀ j, y.job = some j → y.busy = true ∧ j.Sound) : t.LocksSound := by
  refine h.of_set hx hunits (hlock ▸ h.1) (fun b => ?_) (fun b v _ => ?_) hown
  · rw [hlock, hholds, h.holder_iff hx]
  · rw [hlock]

/-- A unit that ends or has not begun its command changes nothing of a sound table. -/
theorem State.LocksSound.of_set_idle (h : s.LocksSound) (hx : s.units[u]? = some x)
    (hunits : t.units = s.units.set u y) (hlock : t.lock = s.lock) (hrest : x.holds = none) (hjob : y.job = none) :
    t.LocksSound :=
  h.of_set_same hx hunits hlock ((UnitState.holds_idle hjob).trans hrest.symm)
    (fun j hj => by rw [hjob] at hj; cases hj)

/-- `ACQ` of a free entry by a unit that holds none keeps the table sound (R69, R72). -/
theorem State.LocksSound.of_acquire {b : Nat} (h : s.LocksSound) (hx : s.units[u]? = some x)
    (hunits : t.units = s.units.set u y) (hlock : t.lock = s.lock.acquire b u) (hfree : s.lock.holder b = none)
    (hrest : x.holds = none) (hholds : y.holds = some b) (hown : ∀ j, y.job = some j → y.busy = true ∧ j.Sound) :
    t.LocksSound := by
  refine h.of_set hx hunits (hlock ▸ LockTable.wf_acquire _ _ _ h.1) (fun c => ?_) (fun c v hv => ?_) hown
  · rw [hlock, LockTable.holder_acquire, hholds]
    have hnone : s.lock.holder c ≠ some u := by rw [ne_eq, h.holder_iff hx, hrest]; simp
    split
    · next hc => simp [hc]
    · next hc => simp [hnone, Ne.symm hc]
  · rw [hlock, LockTable.holder_acquire]
    split
    · next hc => simp [hc, hfree, Ne.symm hv]
    · rfl

/-- `REL` by the unit that holds the entry keeps the table sound (R69, R73). -/
theorem State.LocksSound.of_release {b : Nat} (h : s.LocksSound) (hx : s.units[u]? = some x)
    (hunits : t.units = s.units.set u y) (hlock : t.lock = s.lock.release b) (hheld : x.holds = some b)
    (hholds : y.holds = none) (hown : ∀ j, y.job = some j → y.busy = true ∧ j.Sound) : t.LocksSound := by
  have hb : s.lock.holder b = some u := (h.holder_iff hx b).2 hheld
  refine h.of_set hx hunits (hlock ▸ LockTable.wf_release _ _ h.1) (fun c => ?_) (fun c v hv => ?_) hown
  · rw [hlock, LockTable.holder_release, hholds]
    split
    · simp
    · next hc => simp [h.holder_iff hx, hheld, Ne.symm hc]
  · rw [hlock, LockTable.holder_release]
    split
    · next hc => simp [hc, hb, Ne.symm hv]
    · rfl

end

section

variable {s t : State} {u : Nat} {x : UnitState} {j j' : Job} {w : Work}

/-- A running command keeps the table sound while it neither enters nor leaves a locked update (R73 to R75). -/
theorem State.LocksSound.of_progress (h : s.LocksSound) (hx : s.units[u]? = some x) (hjob : x.job = some j)
    (hplan : j.plan = .work w) (hunits : t.units = s.units.set u { x with job := some j' }) (hlock : t.lock = s.lock)
    (hplan' : j'.plan = .work w) (hside : j'.flight = .between ↔ j.flight = .between)
    (hown : ∀ i, some j' = some i → x.busy = true ∧ i.Sound) : t.LocksSound := by
  refine h.of_set_same hx hunits hlock ?_ hown
  by_cases hf : j.flight = .between
  · rw [UnitState.holds_between hjob hf, UnitState.holds_between rfl (hside.2 hf)]
  · rw [UnitState.holds_inFlight hjob hplan hf, UnitState.holds_inFlight rfl hplan' (mt hside.1 hf)]

/-- A memory event keeps the table sound: it stays within or outside a locked update, or takes the free lock at the
beginning of one, or gives the lock back at the end of one. -/
theorem State.LocksSound.workEvent (h : s.LocksSound) (k : Nat) (hx : s.units[u]? = some x) (hjob : x.job = some j)
    (hplan : j.plan = .work w) : (workEvent s u k x w j).LocksSound := by
  obtain ⟨hbusy, hsound⟩ := h.2.2 x (List.mem_of_getElem? hx) j hjob
  obtain ⟨hlocked, hfree⟩ := (Job.sound_work hplan).1 hsound
  have herase : ∀ d old, .fetched d old ∈ j.todo.eraseIdx k → w.ns = true := fun d old hm =>
    hfree d old (List.mem_of_mem_eraseIdx hm)
  have hown : ∀ {j' : Job}, j'.plan = .work w → (j'.flight ≠ .between → w.ns = false) →
      (∀ d old, .fetched d old ∈ j'.todo → w.ns = true) → ∀ i, some j' = some i → x.busy = true ∧ i.Sound := by
    rintro j' hp hl hf i ⟨⟩
    exact ⟨hbusy, (Job.sound_work hp).2 ⟨hl, hf⟩⟩
  obtain hw | ⟨d, old, hf, hk, hw⟩ | ⟨d, hf, hk, -, hw⟩ | ⟨d, hf, hk, -, hns, hw⟩ | ⟨d, hf, hk, -, hns, hopen, hw⟩ |
    ⟨d, hf, hw⟩ | ⟨d, old, hf, hw⟩ | ⟨hf, hw⟩ := workEvent_cases s u k x w j <;> rw [hw]
  · exact h
  · exact h.of_progress hx hjob hplan rfl rfl hplan Iff.rfl (hown hplan hlocked herase)
  · exact h.of_progress hx hjob hplan rfl rfl hplan Iff.rfl (hown hplan hlocked herase)
  · exact h.of_progress hx hjob hplan rfl rfl hplan Iff.rfl (hown hplan hlocked (fun _ _ _ => hns))
  · exact h.of_acquire hx rfl rfl hopen (UnitState.holds_between hjob hf)
      (UnitState.holds_inFlight rfl (by exact hplan) nofun)
      (hown hplan (fun _ => hns) herase)
  · have hin : j.flight ≠ .between := by simp [hf]
    exact h.of_progress hx hjob hplan rfl rfl hplan (by simp [hin]) (hown hplan (fun _ => hlocked hin) hfree)
  · have hin : j.flight ≠ .between := by simp [hf]
    exact h.of_progress hx hjob hplan rfl rfl hplan (by simp [hin]) (hown hplan (fun _ => hlocked hin) hfree)
  · exact h.of_release hx rfl rfl (UnitState.holds_inFlight hjob hplan (by simp [hf]))
      (UnitState.holds_between rfl (by rfl))
      (hown hplan (fun hn => absurd rfl hn) hfree)

end

theorem Move.locksSound {s t : State} (h : Move s t) (hs : s.LocksSound) : t.LocksSound := by
  cases h with
  | wait => exact hs
  | @submit u x d ds hx hidle =>
    have hjob : x.job = none := by
      by_contra hne
      obtain ⟨j, hj⟩ := Option.ne_none_iff_exists'.1 hne
      obtain ⟨hbusy, -⟩ := hs.2.2 x (List.mem_of_getElem? hx) j hj
      rw [hidle] at hbusy
      cases hbusy
    exact hs.of_set_idle hx rfl rfl (UnitState.holds_idle hjob) rfl
  | @start u x f hx hbusy hjob =>
    refine hs.of_set_same hx rfl rfl ((UnitState.holds_between rfl rfl).trans (UnitState.holds_idle hjob).symm) ?_
    rintro j ⟨⟩
    exact ⟨hbusy, Job.sound_begun _ _⟩
  | event k hx hjob hplan => exact hs.workEvent k hx hjob hplan
  | complete o r ctr hx hcode hrest => exact hs.of_set_idle hx rfl rfl hrest rfl
  | whole r ctr hx hjob hplan haddr => exact hs.of_set_idle hx rfl rfl (UnitState.holds_idle hjob) rfl
  | hostWrite => exact hs
  | reset =>
    refine ⟨rfl, fun b u => ⟨nofun, ?_⟩, fun y hy j hj => ?_⟩
    · rintro ⟨y, hy, hb⟩
      obtain ⟨x, -, rfl⟩ := List.mem_map.1 (List.mem_of_getElem? hy)
      cases hb
    · obtain ⟨x, -, rfl⟩ := List.mem_map.1 hy
      cases hj

theorem State.LocksSound.noticeAll {s : State} (h : s.LocksSound) (who : Option Nat) (m : Memory) :
    (s.noticeAll who m).LocksSound := by
  obtain ⟨hwf, hheld, hown⟩ := h
  refine ⟨hwf, fun b u => ?_, fun y hy j hj => ?_⟩
  · have hsame : ∀ x : UnitState, (if who = some u then x else x.notice s.memWords m s.mem).holds = x.holds := by
      intro x
      split
      · rfl
      · exact UnitState.holds_congr (UnitState.notice_job _ _ _ _)
    rw [State.noticeAll_lock, hheld, State.noticeAll_get]
    simp [Option.map_eq_some_iff, hsame]
  · obtain ⟨x, hx, hstat, -, -, hjob, -⟩ := State.mem_noticeAll s who m y hy
    rw [UnitState.busy, hstat]
    exact hown x hx j (hjob ▸ hj)

/-- Settles O58: every move changes the table together with what the moving unit holds. -/
theorem stepKeepsLocksSound : Obligations.StepKeepsLocksSound :=
  step_keeps (fun _ _ _ h => h) (fun _ _ hs h => h.locksSound hs) (fun _ who m h => h.noticeAll who m)

/-! ## The reset state -/

/-- Every unit of the reset state is a unit after reset (R42). -/
theorem State.mem_reset_units {x : UnitState} (h : x ∈ State.reset.units) : x = UnitState.reset :=
  List.eq_of_mem_replicate h

/-- Settles O53: the values of R42, read off the reset unit and the empty lock table. -/
theorem resetStateIsAsSpecified : Obligations.ResetStateIsAsSpecified := by
  refine ⟨fun x hx => ?_, nofun, fun b => rfl⟩
  obtain rfl := State.mem_reset_units hx
  exact ⟨rfl, rfl, rfl⟩

/-- No unit of the reset state has a command in progress (R42). -/
theorem State.reset_no_job {x : UnitState} {j : Job} (hx : x ∈ State.reset.units) : x.job ≠ some j := by
  obtain rfl := State.mem_reset_units hx
  nofun

theorem State.reset_statsLegal : State.reset.StatsLegal := by
  intro x hx
  obtain rfl := State.mem_reset_units hx
  rfl

theorem State.reset_locksSound : State.reset.LocksSound := by
  refine ⟨rfl, fun b u => ⟨nofun, ?_⟩, fun x hx j hj => absurd hj (State.reset_no_job hx)⟩
  rintro ⟨x, hx, hb⟩
  obtain rfl := State.mem_reset_units (List.mem_of_getElem? hx)
  cases hb

theorem State.reset_inBounds : State.reset.InBounds :=
  ⟨nofun, fun _ hx _ hj => absurd hj (State.reset_no_job hx)⟩

/-- Settles O55: memory and the lock table are empty and no unit has a command in progress. -/
theorem resetMeetsTheInvariants : Obligations.ResetMeetsTheInvariants :=
  ⟨Memory.wf_nil, State.reset_statsLegal, State.reset_locksSound, State.reset_inBounds⟩

end Sys2Proof.Machine
end

