-- ==== Sys2Proof/Proofs/CommandReach.lean ====
section
/-! PROOFS. Where a command that passes its checks reaches: its ranges lie in memory (R145, R146), its work writes each word
of its destination range at most once and no other (R76), and the bits it is sensitive to are those it depends on (R78). -/

namespace Sys2Proof.Machine

/-! ## What the checks say of the ranges -/

/-- The range (base word address, first position, number of bits) is empty or ends inside memory. -/
def RangeInMemory (memWords : Nat) (r : Nat × Nat × Nat) : Prop :=
  0 < r.2.2 → 64 * r.1 + r.2.1 + r.2.2 ≤ 64 * memWords

/-- A range that lies in a buffer that lies in memory (R145, R146). -/
theorem rangeInMemory_of_holds {n pos k : Nat} {a : Buf} (ha : a.InMemory n) (hr : a.Holds pos k) :
    RangeInMemory n (a.base.toNat, pos, k) := by
  unfold Buf.InMemory at ha
  unfold Buf.Holds at hr
  intro _
  dsimp only
  omega

/-- The part of a scalar range inside a buffer that lies in memory (R200, R201). -/
theorem rangeInMemory_clip {n pos : Nat} {a : Buf} (k : Nat) (ha : a.InMemory n) :
    RangeInMemory n (a.base.toNat, pos, min k (64 * a.len.toNat - pos)) := by
  unfold Buf.InMemory at ha
  intro hpos
  dsimp only at hpos ⊢
  omega

theorem RangeInMemory.lt {n base pos k a b : Nat} (h : RangeInMemory n (base, pos, k)) (hr : InRange base pos k a b) :
    a < n := by
  obtain ⟨hlo, hhi⟩ := hr
  have hend : 64 * base + pos + k ≤ 64 * n := h (by dsimp only; omega)
  omega

section

variable {n p q k : Nat} {a b : Buf} {bad al rng : Bool} {empty : Option Word} {f : Unit → Work} {w : Work}

/-- The range of a one-buffer command that executes lies in memory. -/
theorem checkSequence_oneBuf (h : checkSequence bad empty (offMemory n a) (offBuffer a p k) al f = .work w) :
    RangeInMemory n (a.base.toNat, p, k) := by
  obtain ⟨-, -, hbus, hrange, -, -⟩ := (checkSequence_eq_work ..).1 h
  exact rangeInMemory_of_holds ((offMemory_eq_false n a).1 hbus) ((offBuffer_eq_false a p k).1 hrange)

/-- Both ranges of a two-buffer command that executes lie in memory. -/
theorem checkSequence_twoBuf
    (h : checkSequence bad empty (offMemory2 n a b) (offBuffer2 a p b q k) al f = .work w) :
    RangeInMemory n (a.base.toNat, p, k) ∧ RangeInMemory n (b.base.toNat, q, k) := by
  obtain ⟨-, -, hbus, hrange, -, -⟩ := (checkSequence_eq_work ..).1 h
  obtain ⟨ha, hb⟩ := (offMemory2_eq_false n a b).1 hbus
  obtain ⟨hp, hq⟩ := (offBuffer2_eq_false a p b q k).1 hrange
  exact ⟨rangeInMemory_of_holds ha hp, rangeInMemory_of_holds hb hq⟩

/-- What a scalar transfer that executes reaches lies in memory, its range inside the buffer or not (R146). -/
theorem checkSequence_scalar (p k : Nat) (h : checkSequence bad empty (offMemory n a) rng al f = .work w) :
    RangeInMemory n (a.base.toNat, p, min k (64 * a.len.toNat - p)) := by
  obtain ⟨-, -, hbus, -, -, -⟩ := (checkSequence_eq_work ..).1 h
  exact rangeInMemory_clip k ((offMemory_eq_false n a).1 hbus)

end

/-- `PLEN` has no work (R180). -/
theorem planPlen_ne_work (cnt : Word) (w : Work) : planPlen cnt ≠ .work w := by
  unfold planPlen
  split <;> nofun

/-- `ULEN` has no work (R181). -/
theorem planUlen_ne_work (cnt : Word) (w : Work) : planUlen cnt ≠ .work w := by
  unfold planUlen
  split
  · nofun
  · split <;> nofun

/-- `EQ` has work only for two present buffers that pass the later checks (R300). -/
theorem planEq_eq_work {a b : Option Buf} {apos bpos cnt : Word} {n : Nat} {m : Memory} {w : Work}
    (h : planEq a apos b bpos cnt n m = .work w) :
    ∃ a' b', a = some a' ∧ b = some b' ∧
      checkSequence false (emptyResult cnt.toNat 1) (offMemory2 n a' b')
        (offBuffer2 a' apos.toNat b' bpos.toNat cnt.toNat) false
        (fun _ => readOnly (boolWord (rangesEqual m a' apos.toNat b' bpos.toNat cnt.toNat))) = .work w := by
  unfold planEq at h
  split at h
  · cases h
  · cases a with
    | none => cases b <;> cases h
    | some a =>
      cases b with
      | none => cases h
      | some b =>
        dsimp only at h
        unfold planEqPresent at h
        split at h
        · cases h
        · exact ⟨a, b, rfl, rfl, h⟩

/-- Every range a command that executes reads or writes lies in memory (R145, R146). -/
theorem planOf_ranges_inMemory {i : Instr} {n : Nat} {m : Memory} {w : Work} (h : planOf i n m = .work w) :
    (∀ r ∈ sourceRanges i, RangeInMemory n r) ∧ ∀ r ∈ destRange i, RangeInMemory n r := by
  cases i
  case plen cnt => exact absurd h (planPlen_ne_work cnt w)
  case ulen cnt => exact absurd h (planUlen_ne_work cnt w)
  case getbit | setbit | notb | fill | iszero | indexof | lastindexof | card =>
    simp only [planOf, planGetbit, planSetbit, planNot, planFill, planUnary, planIszero, planIndexof, planLastindexof,
      planCard, checkSearch] at h
    simpa [sourceRanges, destRange] using checkSequence_oneBuf h
  case getbits a apos cnt | setbits ns a apos cnt val =>
    simp only [planOf, planGetbits, planSetbits] at h
    simpa [sourceRanges, destRange] using checkSequence_scalar apos.toNat cnt.toNat h
  case copy | andb | orb | xorb | andnot | ornot | rev =>
    simp only [planOf, planCopy, planAnd, planOr, planXor, planAndnot, planOrnot, planBinary, planRev] at h
    simpa [sourceRanges, destRange] using (checkSequence_twoBuf h).symm
  case eqb a apos b bpos cnt =>
    obtain ⟨a, b, rfl, rfl, heq⟩ := planEq_eq_work h
    simpa [sourceRanges, destRange] using checkSequence_twoBuf heq

/-- A word of memory that a command which executes reads or writes exists (R31, R145). -/
theorem lt_memWords_of_reached {i : Instr} {n : Nat} {m : Memory} {w : Work} {a b : Nat} (h : planOf i n m = .work w)
    (hr : InSource i a b ∨ InDest i a b) : a < n := by
  obtain ⟨hsource, hdest⟩ := planOf_ranges_inMemory h
  obtain ⟨r, hmem, hin⟩ | ⟨base, pos, k, hd, hin⟩ := hr
  · exact (hsource r hmem).lt hin
  · exact (hdest _ hd).lt hin

/-! ## The words a command writes -/

/-- The updates write each word at most once, and only words of the command's destination range (R76). -/
def Footprint (i : Instr) (us : List Upd) : Prop :=
  (us.map Upd.addr).Nodup ∧ ∀ d ∈ us, ∃ b, b < 64 ∧ InDest i d.addr b

theorem Footprint.nil (i : Instr) : Footprint i [] := ⟨List.nodup_nil, nofun⟩

/-- The updates of a range that is not empty are in the footprint of the command whose destination it is (R151). -/
theorem Footprint.range {i : Instr} {base pos k : Nat} (m : Memory) (v : Nat → Word → Word)
    (hd : destRange i = some (base, pos, k)) (hk : 0 < k) : Footprint i (rangeUpdates m base pos k v) := by
  refine ⟨rangeUpdates_nodup m base pos k v, fun d hmem => ?_⟩
  have haddr : d.addr ∈ (rangeUpdates m base pos k v).map Upd.addr := List.mem_map_of_mem hmem
  rw [rangeUpdates_addr, List.mem_map] at haddr
  obtain ⟨j, hj, ha⟩ := haddr
  rw [mem_rangeWords pos k j hk] at hj
  refine ⟨max (64 * j) pos - 64 * j, by omega, base, pos, k, hd, ?_⟩
  unfold InRange
  omega

/-- The one word of `SETBIT` holds its bit (R183). -/
theorem Footprint.bit {i : Instr} {base pos : Nat} (mask val : Word) (hd : destRange i = some (base, pos, 1)) :
    Footprint i [⟨base + pos / 64, mask, val⟩] := by
  refine ⟨List.nodup_singleton _, fun d hmem => ?_⟩
  obtain rfl := List.mem_singleton.1 hmem
  refine ⟨pos % 64, by omega, base, pos, 1, hd, ?_⟩
  unfold InRange
  dsimp only
  omega

/-- The words of `SETBITS` hold bits of its range inside the buffer (R201). -/
theorem Footprint.insert {ns : Bool} {a : Buf} {apos cnt val : Word} (hk : 0 < cnt.toNat) :
    Footprint (.setbits ns a apos cnt val) (insertUpdates a apos.toNat cnt.toNat val) := by
  constructor
  · unfold insertUpdates
    dsimp only
    split <;> split <;> simp
  · intro d hmem
    unfold insertUpdates at hmem
    rw [List.mem_append] at hmem
    obtain hmem | hmem := hmem
    · split at hmem
      · next hin =>
        obtain rfl := List.mem_singleton.1 hmem
        refine ⟨apos.toNat % 64, by omega, _, _, _, rfl, ?_⟩
        unfold InRange
        dsimp only
        omega
      · cases hmem
    · split at hmem
      · next hin =>
        obtain rfl := List.mem_singleton.1 hmem
        refine ⟨0, by omega, _, _, _, rfl, ?_⟩
        unfold InRange
        dsimp only at hin ⊢
        omega
      · cases hmem

section

variable {i : Instr} {bad bus rng al ns ovl : Bool} {empty : Option Word} {r : Word} {a : Buf} {us : List Upd}
  {w : Work}

theorem checkSequence_readOnly_footprint (h : checkSequence bad empty bus rng al (fun _ => readOnly r) = .work w) :
    Footprint i w.todo := by
  obtain ⟨-, -, -, -, -, rfl⟩ := (checkSequence_eq_work ..).1 h
  exact Footprint.nil i

/-- A command that writes executes only when its range is not empty (R144). -/
theorem checkSequence_writing_footprint (hf : empty = none → Footprint i us)
    (h : checkSequence bad empty bus rng al (fun _ => writing ns ovl a us) = .work w) : Footprint i w.todo := by
  obtain ⟨-, hempty, -, -, -, rfl⟩ := (checkSequence_eq_work ..).1 h
  exact hf hempty

end

/-- The work of a command keeps to its footprint (R76). -/
theorem planOf_footprint {i : Instr} {n : Nat} {m : Memory} {w : Work} (h : planOf i n m = .work w) :
    Footprint i w.todo := by
  cases i
  case plen cnt => exact absurd h (planPlen_ne_work cnt w)
  case ulen cnt => exact absurd h (planUlen_ne_work cnt w)
  case setbit =>
    simp only [planOf, planSetbit] at h
    exact checkSequence_writing_footprint (fun _ => .bit _ _ rfl) h
  case setbits =>
    simp only [planOf, planSetbits] at h
    exact checkSequence_writing_footprint (fun hne => .insert ((emptyResult_eq_none _ _).1 hne)) h
  case copy | notb | andb | orb | xorb | andnot | ornot | fill | rev =>
    simp only [planOf, planCopy, planNot, planFill, planUnary, planAnd, planOr, planXor, planAndnot, planOrnot,
      planBinary, planRev] at h
    exact checkSequence_writing_footprint (fun hne => .range m _ rfl ((emptyResult_eq_none _ _).1 hne)) h
  case getbit | getbits | iszero | indexof | lastindexof | card =>
    simp only [planOf, planGetbit, planGetbits, planIszero, planIndexof, planLastindexof, planCard, checkSearch] at h
    exact checkSequence_readOnly_footprint h
  case eqb =>
    obtain ⟨a, b, rfl, rfl, heq⟩ := planEq_eq_work h
    exact checkSequence_readOnly_footprint heq

/-- The words a command writes exist (R31, R76, R145). -/
theorem planOf_addr_lt {i : Instr} {n : Nat} {m : Memory} {w : Work} (h : planOf i n m = .work w) :
    ∀ d ∈ w.todo, d.addr < n := by
  obtain ⟨-, hdest⟩ := planOf_footprint h
  intro d hd
  obtain ⟨b, -, hin⟩ := hdest d hd
  exact lt_memWords_of_reached h (.inr hin)

/-! ## The bits a command is sensitive to -/

/-- A bit of `rangeBits` is set exactly when it lies in the range (R60). -/
theorem getLsbD_rangeBits (base pos k a : Nat) {b : Nat} (hb : b < 64) :
    (rangeBits base pos k a).getLsbD b = true ↔ InRange base pos k a b := by
  unfold rangeBits InRange
  split
  · rw [getLsbD_wordMask, decide_eq_true_eq]
    omega
  · refine iff_of_false (by simp) ?_
    omega

/-- A word lies in the range as a whole exactly when all of its bits do (R150). -/
theorem rangeBits_eq_allOnes (base pos k a : Nat) :
    rangeBits base pos k a = allOnes ↔ ∀ c, c < 64 → InRange base pos k a c := by
  constructor
  · intro h c hc
    rw [← getLsbD_rangeBits base pos k a hc, h, getLsbD_allOnes, decide_eq_true hc]
  · intro h
    refine BitVec.eq_of_getLsbD_eq fun c hc => ?_
    rw [(getLsbD_rangeBits base pos k a hc).2 (h c hc), getLsbD_allOnes, decide_eq_true hc]

/-- A bit of `partialBits` is set exactly when it lies in the range and its word does not as a whole (R78). -/
theorem getLsbD_partialBits (base pos k a : Nat) {b : Nat} (hb : b < 64) :
    (partialBits base pos k a).getLsbD b = true ↔
      InRange base pos k a b ∧ ∃ c, c < 64 ∧ ¬ InRange base pos k a c := by
  unfold partialBits
  split
  · next h =>
    rw [rangeBits_eq_allOnes] at h
    simpa using fun _ => h
  · next h =>
    rw [rangeBits_eq_allOnes] at h
    rw [getLsbD_rangeBits base pos k a hb]
    simpa using fun _ => h

section

variable {i : Instr} {base pos k : Nat} (a b : Nat)

theorem inDest_iff (hd : destRange i = some (base, pos, k)) : InDest i a b ↔ InRange base pos k a b := by
  simp [InDest, hd]

/-- A read-only command depends on its source alone (R80). -/
theorem depends_readOnly (hd : destRange i = none) : Depends i a b ↔ InSource i a b := by
  simp [Depends, InDest, hd]

/-- A command that works in place depends on its whole destination range (R240, R241). -/
theorem depends_inPlace (hd : destRange i = some (base, pos, k)) (hw : worksInPlace i = true) :
    Depends i a b ↔ InSource i a b ∨ InRange base pos k a b := by
  simp [Depends, inDest_iff _ _ hd, hw]

/-- Any other command that writes depends on the destination bits of its partial words (R73). -/
theorem depends_partial (hd : destRange i = some (base, pos, k)) (hw : worksInPlace i = false) :
    Depends i a b ↔ InSource i a b ∨ (InRange base pos k a b ∧ ∃ c, c < 64 ∧ ¬ InRange base pos k a c) := by
  simp [Depends, inDest_iff _ _ hd, hw]

end

/-- The bits a command watches are those it depends on (R78). -/
theorem getLsbD_sensitiveBits (i : Instr) (a : Nat) {b : Nat} (hb : b < 64) :
    (sensitiveBits i a).getLsbD b = true ↔ Depends i a b := by
  have hrange := fun base pos k => getLsbD_rangeBits base pos k a hb
  have hpartial := fun base pos k => getLsbD_partialBits base pos k a hb
  cases i
  case plen | ulen | getbit | getbits | iszero | indexof | lastindexof | card =>
    rw [depends_readOnly a b rfl]
    simp [sensitiveBits, InSource, sourceRanges, clip, hrange]
  case setbit | setbits | fill =>
    rw [depends_partial a b rfl rfl]
    simp [sensitiveBits, InSource, sourceRanges, clip, hpartial]
  case copy | rev =>
    rw [depends_partial a b rfl rfl]
    simp [sensitiveBits, InSource, sourceRanges, hrange, hpartial, or_comm]
  case notb | andb | orb | xorb | andnot | ornot =>
    rw [depends_inPlace a b rfl rfl]
    simp [sensitiveBits, InSource, sourceRanges, hrange, or_comm]
  case eqb p _ q _ _ =>
    rw [depends_readOnly a b rfl]
    cases p <;> cases q <;> simp [sensitiveBits, InSource, sourceRanges, hrange]

/-- Only a command that executes watches a bit, and it watches those it depends on (R78, R141, R322). -/
theorem getLsbD_watchedBits {d : Desc} {n a b : Nat} {m : Memory} (hb : b < 64)
    (h : (watchedBits d n m a).getLsbD b = true) :
    ∃ i w, decode d = .ok i ∧ planOf i n m = .work w ∧ Depends i a b := by
  unfold watchedBits at h
  split at h
  · simp at h
  · next i hd =>
    split at h
    · next w hp => exact ⟨i, w, hd, hp, (getLsbD_sensitiveBits i a hb).1 h⟩
    · simp at h
    · simp at h

/-- A command that another agent can interfere with depends on a bit of a word that exists (R78, R145). -/
theorem canInterfere_depends {d : Desc} {n : Nat} {m : Memory} (h : canInterfere d n m = true) :
    ∃ i a b, decode d = .ok i ∧ a < n ∧ b < 64 ∧ Depends i a b := by
  unfold canInterfere at h
  obtain ⟨a, -, ha⟩ := List.any_eq_true.1 h
  have hne : watchedBits d n m a ≠ 0 := bne_iff_ne.1 ha
  have hb := ctz64_lt hne
  obtain ⟨i, w, hd, hp, hdep⟩ := getLsbD_watchedBits hb (getLsbD_ctz64 hne)
  exact ⟨i, a, _, hd, lt_memWords_of_reached hp (hdep.imp_right And.left), hb, hdep⟩

end Sys2Proof.Machine
end

