-- ==== Sys2Proof/Proofs/AccessesInBounds.lean ====
section
/-! PROOFS. Every step keeps every running command on its plan and every access inside memory
(`StepKeepsAccessesInBounds`, O59). -/

namespace Sys2Proof.Machine

/-! ## What is listed in memory -/

/-- Nothing is listed outside the first `n` words (R31). -/
def Memory.Within (m : Memory) (n : Nat) : Prop := ∀ c ∈ m, c.1 < 8 * n

theorem Memory.Within.erase {m : Memory} {n : Nat} (h : m.Within n) (a : Nat) : (m.erase a).Within n :=
  fun c hc => h c (List.mem_of_mem_filter hc)

theorem Memory.Within.writeByte {m : Memory} {n a : Nat} (h : m.Within n) (ha : a < 8 * n) (v : Byte) :
    (m.writeByte a v).Within n := by
  unfold Memory.writeByte
  split
  · exact h.erase a
  · intro c hc
    obtain rfl | hc := (Memory.mem_insert _ _ _ _).1 hc
    · exact ha
    · exact h.erase a c hc

theorem Memory.Within.writeBytes {m : Memory} {n a k : Nat} (h : m.Within n) (ha : 8 * a + k ≤ 8 * n) (v : Word) :
    (m.writeBytes a v k).Within n := by
  induction k with
  | zero => exact h
  | succ k ih => exact (ih (by omega)).writeByte (by omega) _

/-- A write of a word that exists lists nothing outside the words that exist (R31). -/
theorem Memory.Within.writeWord {m : Memory} {n a : Nat} (h : m.Within n) (ha : a < n) (v : Word) :
    (m.writeWord a v).Within n :=
  h.writeBytes (by omega) v

theorem Memory.Within.applyUpds {m : Memory} {n : Nat} {us : List Upd} (h : m.Within n) (hus : ∀ d ∈ us, d.addr < n) :
    (applyUpds m us).Within n := by
  induction us generalizing m with
  | nil => exact h
  | cons u us ih =>
    obtain ⟨hu, hus⟩ := List.forall_mem_cons.1 hus
    exact ih (h.writeWord hu _) hus

/-! ## A running command -/

/-- A unit's running command, if any, keeps to its plan, whose updates lie in the words that exist: the clause of
`State.InBounds` about one unit. -/
def UnitState.InBounds (x : UnitState) (n : Nat) : Prop :=
  ∀ j, x.job = some j → x.OnPlan n j ∧ ∀ w, j.plan = .work w → ∀ d ∈ w.todo, d.addr < n

theorem UnitState.InBounds.of_idle {x : UnitState} {n : Nat} (h : x.job = none) : x.InBounds n :=
  fun j hj => by rw [h] at hj; cases hj

/-- What is said of a running command rests on its descriptor and its progress alone. -/
theorem UnitState.InBounds.congr {x y : UnitState} {n : Nat} (h : x.InBounds n) (hcur : y.cur = x.cur)
    (hjob : y.job = x.job) : y.InBounds n := by
  intro j hj
  obtain ⟨⟨hplan, hpend, hfore⟩, hlt⟩ := h j (hjob ▸ hj)
  exact ⟨⟨hcur ▸ hplan, hpend, hcur ▸ hfore⟩, hlt⟩

/-- A descriptor that has work is a command that executes, with that work (R107, R141). -/
theorem planDesc_eq_work {d : Desc} {n : Nat} {m : Memory} {w : Work} (h : planDesc d n m = .work w) :
    ∃ i, decode d = .ok i ∧ planOf i n m = .work w := by
  unfold planDesc at h
  split at h
  · next i hd => exact ⟨i, hd, h⟩
  · cases h

/-- A command begins on its plan, with all of it still to be written (R141). -/
theorem UnitState.InBounds.of_begun {x : UnitState} {n : Nat} {m : Memory} {f : Bool} :
    ({ x with job := some ⟨planDesc x.cur n m, (planDesc x.cur n m).todo, .between, f && canInterfere x.cur n m⟩ } :
      UnitState).InBounds n := by
  rintro j ⟨⟩
  refine ⟨⟨⟨m, rfl⟩, fun w hw => ?_, fun hf => ?_⟩, fun w hw => ?_⟩
  · obtain ⟨i, -, hp⟩ := planDesc_eq_work hw
    obtain ⟨hnodup, -⟩ := planOf_footprint hp
    have hpend : (planDesc x.cur n m).todo.map Pending.upd = w.todo := by
      rw [show planDesc x.cur n m = .work w from hw]
      simp [Plan.todo, Function.comp_def]
    rw [Job.pending_between, hpend]
    exact ⟨fun d hd => hd, hnodup⟩
  · obtain ⟨-, hcan⟩ := Bool.and_eq_true_iff.1 hf
    exact canInterfere_depends hcan
  · obtain ⟨i, -, hp⟩ := planDesc_eq_work hw
    exact planOf_addr_lt hp

/-- A running command stays on its plan as long as no update is added to what is still to be written (R76). -/
theorem UnitState.InBounds.of_progress {x : UnitState} {n : Nat} {j j' : Job} (h : x.InBounds n)
    (hj : x.job = some j) (hplan : j'.plan = j.plan) (hfore : j'.foretold = j.foretold)
    (hpend : j'.pending.Subperm j.pending) : ({ x with job := some j' } : UnitState).InBounds n := by
  obtain ⟨⟨hp, hown, hf⟩, hlt⟩ := h j hj
  rintro i ⟨⟩
  rw [UnitState.OnPlan, hplan, hfore]
  refine ⟨⟨hp, fun w hw => ?_, hf⟩, hlt⟩
  obtain ⟨hmem, hnodup⟩ := hown w hw
  obtain ⟨l, hperm, hsub⟩ := hpend
  exact ⟨fun d hd => hmem d (hsub.subset (hperm.mem_iff.2 hd)), (hperm.map _).nodup_iff.1 (hnodup.sublist (hsub.map _))⟩

/-! ## The step -/

theorem State.inBounds_iff (s : State) :
    s.InBounds ↔ s.mem.Within s.memWords ∧ ∀ x ∈ s.units, x.InBounds s.memWords := Iff.rfl

/-- The bounds stay kept when one unit changes, if it keeps them and so does what memory lists. -/
theorem State.InBounds.of_set {s t : State} {y : UnitState} (h : s.InBounds) (u : Nat)
    (hwords : t.memWords = s.memWords) (hmem : t.mem.Within s.memWords) (hunits : t.units = s.units.set u y)
    (hy : y.InBounds s.memWords) : t.InBounds := by
  obtain ⟨-, hall⟩ := (State.inBounds_iff s).1 h
  rw [State.inBounds_iff, hwords, hunits]
  exact ⟨hmem, forall_mem_set u hall hy⟩

/-- A memory event writes one of its command's words, which exist, and leaves the command on its plan. -/
theorem State.InBounds.workEvent {s : State} {u : Nat} {x : UnitState} {j : Job} {w : Work} (h : s.InBounds) (k : Nat)
    (hx : s.units[u]? = some x) (hj : x.job = some j) (hplan : j.plan = .work w) :
    (workEvent s u k x w j).InBounds := by
  obtain ⟨hmem, hunits⟩ := (State.inBounds_iff s).1 h
  have hxin := hunits x (List.mem_of_getElem? hx)
  obtain ⟨j', hu, hp, hf, hpend⟩ := workEvent_units k w hx hj
  refine h.of_set u (workEvent_memWords ..) ?_ hu (hxin.of_progress hj hp hf hpend)
  obtain hm | ⟨d, v, hd, hm⟩ := workEvent_mem s u k x w j <;> rw [hm]
  · exact hmem
  · obtain ⟨⟨-, hown, -⟩, hlt⟩ := hxin j hj
    exact hmem.writeWord (hlt w hplan d ((hown w hplan).1 d hd)) v

theorem Move.inBounds {s t : State} (h : Move s t) (hs : s.InBounds) : t.InBounds := by
  obtain ⟨hmem, hunits⟩ := (State.inBounds_iff s).1 hs
  cases h with
  | wait => exact hs
  | @submit u x d ds hx hidle => exact hs.of_set u rfl hmem rfl (.of_idle rfl)
  | @start u x f hx hbusy hjob => exact hs.of_set u rfl hmem rfl .of_begun
  | event k hx hjob hplan => exact hs.workEvent k hx hjob hplan
  | @complete u x c o r ctr hx hcode hrest => exact hs.of_set u rfl hmem rfl (.of_idle rfl)
  | @whole u x i w us r ctr hx hjob hplan haddr =>
    refine hs.of_set u rfl (hmem.applyUpds fun d hd => ?_) rfl (.of_idle rfl)
    have hd' : d.addr ∈ w.todo.map Upd.addr := haddr ▸ List.mem_map_of_mem hd
    obtain ⟨e, he, haddr⟩ := List.mem_map.1 hd'
    exact haddr ▸ planOf_addr_lt hplan e he
  | hostWrite v ha => exact ⟨hmem.writeWord ha v, hunits⟩
  | reset =>
    refine ⟨hmem, fun y hy => ?_⟩
    obtain ⟨x, -, rfl⟩ := List.mem_map.1 hy
    exact UnitState.InBounds.of_idle rfl

theorem State.InBounds.noticeAll {s : State} (h : s.InBounds) (who : Option Nat) (m : Memory) :
    (s.noticeAll who m).InBounds := by
  obtain ⟨hmem, hunits⟩ := (State.inBounds_iff s).1 h
  refine ⟨hmem, fun y hy => ?_⟩
  obtain ⟨x, hx, -, -, hcur, hjob, -⟩ := State.mem_noticeAll s who m y hy
  exact (hunits x hx).congr hcur hjob

/-- Settles O59: every move writes words of its command's plan or a word the host may write, and leaves the running commands
on their plans. -/
theorem stepKeepsAccessesInBounds : Obligations.StepKeepsAccessesInBounds :=
  step_keeps (fun _ _ _ h => h) (fun _ _ hs h => h.inBounds hs) (fun _ who m h => h.noticeAll who m)

end Sys2Proof.Machine
end

