-- ==== Sys2Proof/Proofs/WriteFootprint.lean ====
section
/-! PROOFS. Which words a command writes and which bits of them: `WriteFootprintIsTheDestinationRange` (O42), and what the
updates of a command do to a single bit of memory. -/

namespace Sys2Proof.Machine

/-! ## The words and masks of a range -/

/-- The updates name every word that holds a bit of the range, and the mask of each is exactly the range's bits in its
word (R150, R151). -/
def WritesRange (us : List Upd) (base pos k : Nat) : Prop :=
  (∀ a b, b < 64 → InRange base pos k a b → a ∈ us.map Upd.addr) ∧
  ∀ d ∈ us, ∀ b, b < 64 → (d.mask.getLsbD b = true ↔ InRange base pos k d.addr b)

theorem WritesRange.range (m : Memory) (base pos k : Nat) (v : Nat → Word → Word) :
    WritesRange (rangeUpdates m base pos k v) base pos k := by
  constructor
  · rintro a b hb ⟨hlo, hhi⟩
    rw [rangeUpdates_addr, List.mem_map]
    refine ⟨a - base, ?_, by omega⟩
    rw [mem_rangeWords pos k _ (by omega)]
    omega
  · intro d hd b hb
    rw [rangeUpdates, List.mem_map] at hd
    obtain ⟨j, -, rfl⟩ := hd
    rw [getLsbD_wordMask, decide_eq_true_eq, InRange]
    dsimp only
    omega

/-- The one word of `SETBIT`, under the mask of its one bit (R183). -/
theorem WritesRange.bit (base pos : Nat) (val : Word) :
    WritesRange [⟨base + pos / 64, 1 <<< (pos % 64), val⟩] base pos 1 := by
  constructor
  · rintro a b hb ⟨hlo, hhi⟩
    rw [List.map_singleton, List.mem_singleton]
    dsimp only
    omega
  · intro d hd b hb
    obtain rfl := List.mem_singleton.1 hd
    have hone : (((1 <<< (pos % 64) : Nat) : Word)).getLsbD b = true ↔ pos % 64 = b := by
      rw [BitVec.natCast_eq_ofNat, BitVec.getLsbD_ofNat, Nat.one_shiftLeft, Nat.testBit_two_pow, decide_eq_true hb,
        Bool.true_and, decide_eq_true_eq]
    rw [InRange]
    dsimp only
    rw [hone]
    omega

/-- The words of `SETBITS`, each under the mask of the bits inside the buffer (R201). -/
theorem WritesRange.insert {a : Buf} {pos k : Nat} (val : Word) (hk : k ≤ 64) :
    WritesRange (insertUpdates a pos k val) a.base.toNat pos (min k (64 * a.len.toNat - pos)) := by
  constructor
  · rintro c b hb ⟨hlo, hhi⟩
    rw [insertUpdates, List.map_append, List.mem_append]
    by_cases hc : c = a.base.toNat + pos / 64
    · left
      rw [if_pos (by omega)]
      simp [hc]
    · right
      rw [if_pos (by omega)]
      simp only [List.map_cons, List.map_nil, List.mem_singleton]
      omega
  · intro d hd b hb
    rw [insertUpdates, List.mem_append] at hd
    obtain hd | hd := hd
    · split at hd
      · next hin =>
        obtain rfl := List.mem_singleton.1 hd
        rw [getLsbD_ones, decide_eq_true_eq, InRange]
        dsimp only
        omega
      · cases hd
    · split at hd
      · next hin =>
        obtain rfl := List.mem_singleton.1 hd
        rw [getLsbD_ones, decide_eq_true_eq, InRange]
        dsimp only at hin ⊢
        omega
      · cases hd

/-! ## The work of a command -/

section

variable {bad bus rng al ns ovl : Bool} {empty : Option Word} {a : Buf} {us : List Upd} {w : Work} {pos k : Nat}

/-- The base and the words of a writing command that executes. -/
theorem checkSequence_writing_range (hus : bad = false → WritesRange us a.base.toNat pos k)
    (h : checkSequence bad empty bus rng al (fun _ => writing ns ovl a us) = .work w) :
    w.base = a.base.toNat ∧ WritesRange w.todo a.base.toNat pos k := by
  obtain ⟨hbad, -, -, -, -, rfl⟩ := (checkSequence_eq_work ..).1 h
  exact ⟨rfl, hus hbad⟩

end

/-- A scalar transfer that passes the argument checks moves at most 64 bits (R142 (c)). -/
theorem le_of_badScalar {a : Buf} {apos cnt : Word} (h : badScalar a apos cnt = false) : cnt.toNat ≤ 64 := by
  rw [badScalar_eq, Bool.not_eq_false', Bool.and_eq_true, decide_eq_true_eq] at h
  exact h.2

/-- A command locks the base of its destination buffer, and its work covers its destination range (R72, R76). -/
theorem planOf_writesRange {i : Instr} {n base pos k : Nat} {m : Memory} {w : Work} (h : planOf i n m = .work w)
    (hd : destRange i = some (base, pos, k)) : w.base = base ∧ WritesRange w.todo base pos k := by
  cases i
  case plen | ulen | getbit | getbits | iszero | indexof | lastindexof | card | eqb => cases hd
  case setbit =>
    cases hd
    simp only [planOf, planSetbit] at h
    exact checkSequence_writing_range (fun _ => .bit _ _ _) h
  case setbits =>
    cases hd
    simp only [planOf, planSetbits] at h
    exact checkSequence_writing_range (fun hbad => .insert _ (le_of_badScalar hbad)) h
  case copy | notb | andb | orb | xorb | andnot | ornot | fill | rev =>
    cases hd
    simp only [planOf, planCopy, planNot, planFill, planUnary, planAnd, planOr, planXor, planAndnot, planOrnot,
      planBinary, planRev] at h
    exact checkSequence_writing_range (fun _ => .range m _ _ _ _) h

section

variable {i : Instr} {n : Nat} {m : Memory} {w : Work}

/-- The words a command writes are exactly those that hold a bit of its destination range (R76). -/
theorem planOf_mem_addr_iff (h : planOf i n m = .work w) (a : Nat) :
    a ∈ w.todo.map Upd.addr ↔ ∃ b, b < 64 ∧ InDest i a b := by
  constructor
  · intro ha
    obtain ⟨d, hd, rfl⟩ := List.mem_map.1 ha
    exact (planOf_footprint h).2 d hd
  · rintro ⟨b, hb, base, pos, k, hdest, hin⟩
    obtain ⟨-, hcovers, -⟩ := planOf_writesRange h hdest
    exact hcovers a b hb hin

/-- A read-only command writes nothing (R76, R80). -/
theorem planOf_todo_readOnly (h : planOf i n m = .work w) (hdest : destRange i = none) : w.todo = [] := by
  rw [List.eq_nil_iff_forall_not_mem]
  intro d hd
  obtain ⟨b, -, base, pos, k, hsome, -⟩ := (planOf_footprint h).2 d hd
  rw [hdest] at hsome
  cases hsome

/-- The mask of each update is exactly the destination bits of its word (R150). -/
theorem planOf_mask_iff (h : planOf i n m = .work w) {d : Upd} (hd : d ∈ w.todo) {b : Nat} (hb : b < 64) :
    d.mask.getLsbD b = true ↔ InDest i d.addr b := by
  obtain ⟨-, -, base, pos, k, hdest, -⟩ := (planOf_footprint h).2 d hd
  obtain ⟨-, -, hmask⟩ := planOf_writesRange h hdest
  rw [hmask d hd b hb, inDest_iff _ _ hdest]

/-- A full word lies in the destination range as a whole (R150). -/
theorem planOf_inDest_of_full (h : planOf i n m = .work w) {d : Upd} (hd : d ∈ w.todo) (hfull : d.full = true) {b : Nat}
    (hb : b < 64) : InDest i d.addr b :=
  (planOf_mask_iff h hd hb).1 ((Upd.full_iff d).1 hfull b hb)

end

/-- Settles O42: the footprint of the work, read off its updates. -/
theorem writeFootprintIsTheDestinationRange : Obligations.WriteFootprintIsTheDestinationRange := by
  intro i n m w h
  refine ⟨(planOf_footprint h).1, planOf_todo_readOnly h, fun base pos k hdest => ?_⟩
  obtain ⟨hbase, -, hmask⟩ := planOf_writesRange h hdest
  refine ⟨hbase, fun a => ?_, hmask⟩
  simp only [planOf_mem_addr_iff h, inDest_iff _ _ hdest]

/-! ## What updates do to one bit -/

/-- A bit no update of its word selects is as before (R73, R76). -/
theorem bit_applyUpds_of_unmasked {us : List Upd} {a b : Nat} (m : Memory)
    (h : ∀ d ∈ us, d.addr = a → d.mask.getLsbD b = false) : (applyUpds m us).bit a b = m.bit a b := by
  induction us generalizing m with
  | nil => rfl
  | cons d us ih =>
    obtain ⟨hd, hus⟩ := List.forall_mem_cons.1 h
    refine (ih (applyUpd m d) hus).trans ?_
    rw [applyUpd, Memory.bit_writeWord]
    split
    · next ha => rw [getLsbD_merge, hd ha.symm, ha]; rfl
    · rfl

/-- What updates make of a bit rests on that bit alone. -/
theorem bit_applyUpds_congr {us : List Upd} {m m' : Memory} {a b : Nat} (h : m.bit a b = m'.bit a b) :
    (applyUpds m us).bit a b = (applyUpds m' us).bit a b := by
  induction us generalizing m m' with
  | nil => exact h
  | cons d us ih =>
    refine ih (m := applyUpd m d) (m' := applyUpd m' d) ?_
    rw [applyUpd, applyUpd, Memory.bit_writeWord, Memory.bit_writeWord, getLsbD_merge, getLsbD_merge]
    split
    · next ha => subst ha; split <;> [rfl; exact h]
    · exact h

/-- The updates of a raced command are those of the command but for the values (R79). -/
theorem mem_freeUpds {us : List Upd} {c : Nat} {d : Upd} (h : d ∈ freeUpds c us) :
    ∃ d' ∈ us, d'.addr = d.addr ∧ d'.mask = d.mask := by
  have hkey : (d.addr, d.mask) ∈ (freeUpds c us).map (fun u => (u.addr, u.mask)) := List.mem_map_of_mem h
  rw [freeUpds_addr_mask, List.mem_map] at hkey
  obtain ⟨d', hd', he⟩ := hkey
  exact ⟨d', hd', congrArg Prod.fst he, congrArg Prod.snd he⟩

/-- Updates of a command's words under its masks, with whatever values, leave every bit outside its destination range as
it was (R76, R79). -/
theorem bit_applyUpds_outside {i : Instr} {n : Nat} {m₀ : Memory} {w : Work} (h : planOf i n m₀ = .work w)
    {us : List Upd} (hus : ∀ d ∈ us, ∃ d' ∈ w.todo, d'.addr = d.addr ∧ d'.mask = d.mask) (m : Memory) {a b : Nat}
    (hb : b < 64) (hout : ¬ InDest i a b) : (applyUpds m us).bit a b = m.bit a b := by
  refine bit_applyUpds_of_unmasked m fun d hd ha => ?_
  obtain ⟨d', hd', haddr, hmask⟩ := hus d hd
  rw [← Bool.not_eq_true, ← hmask, planOf_mask_iff h hd' hb, haddr, ha]
  exact hout

end Sys2Proof.Machine
end

