-- ==== Sys2Proof/Proofs/StepEffects.lean ====
section
/-! PROOFS. What a step leaves alone, what the other units see of it, and the statements that follow at once:
`ChangeOfWatchedBitRaces` (O51), `RacedCommandStillCompletes` (O50), `AcquireWaitsForTheLock` (O48),
`CommandWaitsExactlyForAHeldLock` (O49) and `HostWritesReachMemoryAlone` (O52). -/

namespace Sys2Proof.Machine

/-! ## What every move leaves alone -/

theorem workEvent_schedule (s : State) (u k : Nat) (x : UnitState) (w : Work) (j : Job) :
    (workEvent s u k x w j).turns = s.turns ∧ (workEvent s u k x w j).active = s.active := by
  obtain h | ⟨_, _, _, _, h⟩ | ⟨_, _, _, _, h⟩ | ⟨_, _, _, _, _, h⟩ | ⟨_, _, _, _, _, _, h⟩ | ⟨_, _, h⟩ |
    ⟨_, _, _, h⟩ | ⟨_, h⟩ := workEvent_cases s u k x w j <;> rw [h] <;> exact ⟨rfl, rfl⟩

/-- The parameters, the schedule still to come and the pointer to the acting unit are no agent's (R6, R71, R329). -/
theorem Move.frame {s t : State} (h : Move s t) :
    t.memWords = s.memWords ∧ t.turns = s.turns ∧ t.active = s.active ∧ t.units.length = s.units.length := by
  cases h with
  | wait => exact ⟨rfl, rfl, rfl, rfl⟩
  | submit => exact ⟨rfl, rfl, rfl, List.length_set⟩
  | start => exact ⟨rfl, rfl, rfl, List.length_set⟩
  | @event u x j w k hx hjob hplan =>
    obtain ⟨hturns, hactive⟩ := workEvent_schedule s u k x w j
    obtain ⟨j', hunits, -⟩ := workEvent_units k w hx hjob
    exact ⟨workEvent_memWords .., hturns, hactive, hunits ▸ List.length_set⟩
  | complete => exact ⟨rfl, rfl, rfl, List.length_set⟩
  | whole => exact ⟨rfl, rfl, rfl, List.length_set⟩
  | hostWrite => exact ⟨rfl, rfl, rfl, rfl⟩
  | reset => exact ⟨rfl, rfl, rfl, List.length_map ..⟩

/-- No turn changes the parameters or the rest of the schedule (R6, R71). -/
theorem takeTurn_frame {s t : State} {e : Turn} (h : takeTurn s e = .next t) :
    t.memWords = s.memWords ∧ t.turns = s.turns ∧ t.units.length = s.units.length := by
  obtain ⟨u, t', who, m, hm, rfl⟩ := takeTurn_taken h
  obtain ⟨hwords, hturns, -, hlen⟩ := hm.frame
  exact ⟨hwords, hturns, (State.noticeAll_length ..).trans hlen⟩

/-! ## Turns that touch the unit's own registers and progress alone -/

/-- Of the system only unit `u`, and the counter of free values, can differ. -/
def State.SameButUnit (s : State) (u : Nat) (t : State) : Prop :=
  ∃ y c, t = { s.setUnit u y with freeCtr := c }

namespace State.SameButUnit

variable {s t : State} {u v : Nat} {x : UnitState}

theorem refl (hx : s.units[u]? = some x) : s.SameButUnit u s :=
  ⟨x, s.freeCtr, by rw [State.setUnit_self s u x hx]⟩

theorem mem (h : s.SameButUnit u t) : t.mem = s.mem := by
  obtain ⟨_, _, rfl⟩ := h; rfl

theorem lock (h : s.SameButUnit u t) : t.lock = s.lock := by
  obtain ⟨_, _, rfl⟩ := h; rfl

theorem get_other (h : s.SameButUnit u t) (hne : u ≠ v) : t.units[v]? = s.units[v]? := by
  obtain ⟨y, _, rfl⟩ := h; exact State.setUnit_get_other s u v y hne

end State.SameButUnit

section

variable {s : State} {u : Nat} {x : UnitState}

theorem submitTurn_sameButUnit (hx : s.units[u]? = some x) : s.SameButUnit u (submitTurn s u x) := by
  obtain ⟨-, h⟩ | ⟨d, ds, -, -, h⟩ := submitTurn_cases s u x <;> rw [h]
  · exact .refl hx
  · exact ⟨_, s.freeCtr, rfl⟩

theorem startTurn_sameButUnit (f : Bool) (hx : s.units[u]? = some x) : s.SameButUnit u (startTurn s u f x) := by
  obtain ⟨-, h⟩ | ⟨-, -, h⟩ := startTurn_cases s u f x <;> rw [h]
  · exact .refl hx
  · exact ⟨_, s.freeCtr, rfl⟩

/-- A completion touches the unit's own registers alone (R69). -/
theorem finishTurn_sameButUnit (hx : s.units[u]? = some x) : s.SameButUnit u (finishTurn s u x) := by
  obtain h | ⟨j, -, -, -, -, ⟨e, -, h⟩ | ⟨r, -, h⟩ | ⟨w, -, h⟩⟩ := finishTurn_cases s u x <;> rw [h]
  · exact .refl hx
  · exact ⟨_, s.freeCtr, rfl⟩
  · exact ⟨_, s.freeCtr, rfl⟩
  · exact ⟨_, _, rfl⟩

/-- An event of one unit does nothing to another but what that one notices (R329). -/
theorem eventTurn_get_other {v : Nat} (k : Nat) (hx : s.units[u]? = some x) (hne : u ≠ v) :
    (eventTurn s u k x).units[v]? = s.units[v]? := by
  obtain h | ⟨j, w, hj, -, h⟩ := eventTurn_cases s u k x <;> rw [h]
  obtain ⟨j', hunits, -⟩ := workEvent_units k w hx hj
  rw [hunits]
  exact State.setUnit_get_other s u v _ hne

end

/-! ## What another unit sees of a step (R78, R79) -/

/-- Where two memories differ under a mask, bit by bit. -/
theorem Memory.differsUnder_iff_bit (m m' : Memory) (mask : Nat → Word) :
    m.differsUnder m' mask = true ↔ ∃ a b, b < 64 ∧ (mask a).getLsbD b = true ∧ m'.bit a b ≠ m.bit a b := by
  rw [Memory.differsUnder_iff]
  have hbits : ∀ a, (m.readWord a ^^^ m'.readWord a) &&& mask a ≠ 0 ↔
      ∃ b, b < 64 ∧ (mask a).getLsbD b = true ∧ m'.bit a b ≠ m.bit a b := by
    intro a
    constructor
    · intro hne
      have hset := getLsbD_ctz64 hne
      rw [BitVec.getLsbD_and, BitVec.getLsbD_xor, Bool.and_eq_true] at hset
      obtain ⟨hxor, hmask⟩ := hset
      refine ⟨_, ctz64_lt hne, hmask, fun heq => ?_⟩
      rw [Memory.bit, Memory.bit] at heq
      simp [heq] at hxor
    · rintro ⟨b, hb, hmask, hne⟩ hz
      have hclear := congrArg (BitVec.getLsbD · b) hz
      simp only [BitVec.getLsbD_and, BitVec.getLsbD_xor, hmask, Bool.and_true] at hclear
      exact hne (Eq.symm (by simpa [Memory.bit] using hclear))
  simp only [hbits]

/-- A unit notices nothing when no bit its command depends on has changed (R78). -/
theorem UnitState.notice_eq_self {x : UnitState} {i : Instr} {n : Nat} {m m' : Memory} (hd : decode x.cur = .ok i)
    (h : ∀ a b, b < 64 → Depends i a b → m'.bit a b = m.bit a b) : x.notice n m m' = x := by
  have hsame : m.differsUnder m' (watchedBits x.cur n m) = false := by
    rw [← Bool.not_eq_true, Memory.differsUnder_iff_bit]
    rintro ⟨a, b, hb, hw, hne⟩
    obtain ⟨i', w, hd', -, hdep⟩ := getLsbD_watchedBits hb hw
    rw [hd] at hd'
    cases hd'
    exact hne (h a b hb hdep)
  rw [UnitState.notice, hsame, Bool.and_false]
  rfl

theorem UnitState.notice_same (x : UnitState) (n : Nat) (m : Memory) : x.notice n m m = x := by
  rw [UnitState.notice, Memory.differsUnder_self, Bool.and_false]
  rfl

/-- A busy unit whose command gets to work notices the change of a bit the command depends on (R78, R79). -/
theorem UnitState.notice_raced {x : UnitState} {i : Instr} {w : Work} {n a b : Nat} {m m' : Memory}
    (hbusy : x.busy = true) (hd : decode x.cur = .ok i) (hp : planOf i n m = .work w) (hb : b < 64)
    (hdep : Depends i a b) (hne : m'.bit a b ≠ m.bit a b) : x.notice n m m' = { x with raced := true } := by
  have hwatched : watchedBits x.cur n m a = sensitiveBits i a := by rw [watchedBits, hd]; dsimp only; rw [hp]
  have hdiff : m.differsUnder m' (watchedBits x.cur n m) = true :=
    (Memory.differsUnder_iff_bit ..).2 ⟨a, b, hb, hwatched ▸ (getLsbD_sensitiveBits i a hb).2 hdep, hne⟩
  rw [UnitState.notice, hbusy, hdiff]
  rfl

section

variable {s t : State} {u v : Nat} {x : UnitState}

/-- What a unit sees of the turn of another agent that writes no memory: nothing. -/
theorem withUnit_get_other {f : UnitState → State} (hne : v ≠ u) (hx : s.units[u]? = some x)
    (hf : ∀ y, s.units[v]? = some y → s.SameButUnit v (f y)) (h : withUnit s v f = .next t) :
    t.units[u]? = some (x.notice s.memWords s.mem t.mem) := by
  obtain ⟨y, hy, rfl⟩ := withUnit_next s t v f h
  rw [(hf y hy).get_other hne, (hf y hy).mem, UnitState.notice_same, hx]

/-- What a unit sees of a step is what it notices, once the others have been told of it. -/
theorem noticeAll_get_other {t' : State} {who : Option Nat} (hwho : who ≠ some u) (hwords : t'.memWords = s.memWords)
    (hx : t'.units[u]? = some x) :
    (t'.noticeAll who s.mem).units[u]? = some (x.notice s.memWords s.mem (t'.noticeAll who s.mem).mem) := by
  rw [State.noticeAll_get, hx, Option.map_some, if_neg hwho, hwords]
  rfl

/-- All that a step of another agent does to a unit is that the unit notices what it did to memory (R79, R329); a
submission waits while the unit is busy (R140). -/
theorem takeTurn_get_other {e : Turn} (hx : s.units[u]? = some x) (hof : ¬ e.IsOf u) (hreset : e ≠ .reset)
    (hsubmit : e = .submit u → x.busy = true) (h : takeTurn s e = .next t) :
    t.units[u]? = some (x.notice s.memWords s.mem t.mem) := by
  cases e with
  | submit v =>
    by_cases hne : v = u
    · subst hne
      obtain ⟨y, hy, rfl⟩ := withUnit_next _ _ _ _ h
      rw [hx] at hy
      cases hy
      obtain ⟨-, heq⟩ | ⟨_, _, hidle, -⟩ := submitTurn_cases s v x
      · rw [heq, UnitState.notice_same, hx]
      · rw [hsubmit rfl] at hidle; cases hidle
    · exact withUnit_get_other hne hx (fun _ => submitTurn_sameButUnit) h
  | exec v =>
    obtain ⟨-, hf⟩ | ⟨y, hy, ⟨-, heq⟩ | ⟨-, -, ⟨_, -, hill⟩ | ⟨i, -, hex⟩⟩⟩ := execTurn_cases s v
    · rw [takeTurn, hf] at h; cases h
    · rw [takeTurn, heq] at h; cases h
      rw [UnitState.notice_same, hx]
    · rw [takeTurn, hill] at h; cases h
      rw [State.setUnit_get_other s v u _ hof, State.setUnit_mem, UnitState.notice_same, hx]
    · rw [takeTurn, hex, exec_eq_perform i { s with active := v } y hy] at h
      obtain ⟨t', ht', rfl⟩ := noticed_next _ _ _ _ h
      cases ht'
      refine noticeAll_get_other (fun he => hof (Option.some.inj he)) (perform_frame _ _ _).1 ?_
      rw [perform_units_other _ _ _ u (show u ≠ v from Ne.symm hof)]
      exact hx
  | start v f => exact withUnit_get_other hof hx (fun _ => startTurn_sameButUnit f) h
  | event v k =>
    obtain ⟨t', ht', rfl⟩ := noticed_next _ _ _ _ h
    obtain ⟨y, hy, rfl⟩ := withUnit_next _ _ _ _ ht'
    refine noticeAll_get_other (fun he => hof (Option.some.inj he)) (eventTurn_move k hy).frame.1 ?_
    rw [eventTurn_get_other k hy hof, hx]
  | finish v => exact withUnit_get_other hof hx (fun _ => finishTurn_sameButUnit) h
  | hostWrite a w =>
    rw [takeTurn, hostWriteTurn] at h
    split at h
    · cases h
      exact noticeAll_get_other nofun rfl hx
    · cases h
  | hostWriteStat v w =>
    obtain ⟨_, _, rfl⟩ := withUnit_next _ _ _ _ h
    rw [UnitState.notice_same, hx]
  | hostWriteRes v w =>
    obtain ⟨_, _, rfl⟩ := withUnit_next _ _ _ _ h
    rw [UnitState.notice_same, hx]
  | reset => exact absurd rfl hreset

end

/-- Settles O51: all the step does to the unit is what the unit notices, and it notices exactly the bits its command
depends on. -/
theorem changeOfWatchedBitRaces : Obligations.ChangeOfWatchedBitRaces := by
  intro s t u e ts x i w hturns hof hreset hx hbusy hd hp hstep
  rw [step_cons s e ts hturns] at hstep
  have hseen := takeTurn_get_other (s := { s with turns := ts }) hx hof hreset (fun _ => hbusy) hstep
  refine ⟨fun a b hb hdep hne => ?_, fun hsame => ?_⟩
  · rw [hseen, UnitState.notice_raced hbusy hd hp hb hdep hne]
  · rw [hseen, UnitState.notice_eq_self hd hsame]

/-! ## A raced command completes -/

theorem statWord_err (o : Bool) (c : Nat) (h : c ≤ 7) : ((statWord false o c).extractLsb' 4 4).toNat = c := by
  interval_cases c <;> cases o <;> decide

/-- A unit after a success (R149): idle, no error, the overlap output as written. -/
theorem done_status (x : UnitState) (o : Bool) (r : Word) :
    (x.done o r).busy = false ∧ (x.done o r).err = 0 ∧ (x.done o r).ovl = o :=
  ⟨done_busy x o r, statWord_err o 0 (Nat.zero_le 7), statWord_ovl false o 0⟩

/-- A raced command that need not wait completes as a whole, and outside its destination range memory is as before
(R79). -/
theorem exec_raced {s : State} {x : UnitState} {i : Instr} {w : Work} (hx : s.units[s.active]? = some x)
    (hr : x.raced = true) (hwait : w.mustWait s.lock = false) (hp : planOf i s.memWords s.mem = .work w) :
    exec i s = .next (s.performRaced x w) ∧
      ∀ a b, b < 64 → ¬ InDest i a b → (s.performRaced x w).mem.bit a b = s.mem.bit a b := by
  refine ⟨?_, fun a b hb hout => bit_applyUpds_outside hp (fun d hd => mem_freeUpds hd) s.mem hb hout⟩
  rw [exec_eq_perform i s x hx, hp, perform_raced s x w hwait hr]

/-- The turn that completes a command all of whose updates are done, when nothing is owed to the unit (R148, R149). -/
theorem finishTurn_work {s : State} {u : Nat} {x : UnitState} {j : Job} {w : Work} (hj : x.job = some j)
    (hp : j.plan = .work w) (htodo : j.todo = []) (hfl : j.flight = .between) (howed : x.owed = false) :
    finishTurn s u x = { s.setUnit u (x.done w.ovl (updValue s x w.res)) with freeCtr := nextCtr s x } := by
  rw [finishTurn, hj]
  dsimp only
  rw [if_pos ⟨htodo, hfl, howed⟩, hp]

/-- The turn does nothing while a foretold interference is still to come (log entry 18). -/
theorem finishTurn_owed {s : State} {u : Nat} {x : UnitState} (howed : x.owed = true) : finishTurn s u x = s := by
  obtain h | ⟨_, _, _, _, hnot, _⟩ := finishTurn_cases s u x
  · exact h
  · rw [howed] at hnot; cases hnot

theorem step_finish {s : State} {u : Nat} {ts : List Turn} {x : UnitState} (hturns : s.turns = .finish u :: ts)
    (hx : s.units[u]? = some x) : step s = .next (finishTurn { s with turns := ts } u x) := by
  rw [step_cons s _ ts hturns, takeTurn]
  exact withUnit_eq { s with turns := ts } u _ x hx

/-- Settles O50: a raced command delivers free values under its own masks, and completes like any other. -/
theorem racedCommandStillCompletes : Obligations.RacedCommandStillCompletes := by
  constructor
  · intro s x i w hx hr hlock hp
    have hwait : w.mustWait s.lock = false := mustWait_eq_false w s.lock (.inr (by rw [hlock]; rfl))
    obtain ⟨hexec, hframe⟩ := exec_raced hx hr hwait hp
    obtain ⟨hidle, herr, hovl⟩ := done_status x w.ovl (Config.freeWord s.freeCtr)
    exact ⟨_, _, hexec, State.setUnit_get s s.active _ x hx, hidle, herr, hovl, hframe⟩
  · intro s u ts x j w hturns hx hj hp htodo hfl
    rw [step_finish hturns hx]
    constructor
    · intro hr
      obtain ⟨hidle, herr, hovl⟩ := done_status x w.ovl (updValue { s with turns := ts } x w.res)
      rw [finishTurn_work hj hp htodo hfl (UnitState.owed_raced x hr)]
      exact ⟨_, _, rfl, State.setUnit_get s u _ x hx, hidle, herr, hovl, rfl, rfl⟩
    · intro hr hf
      rw [finishTurn_owed (by simp [UnitState.owed, hj, hf, hr])]

/-! ## Waiting for the lock -/

theorem step_event {s : State} {u k : Nat} {ts : List Turn} {x : UnitState} (hturns : s.turns = .event u k :: ts)
    (hx : s.units[u]? = some x) :
    step s = .next ((eventTurn { s with turns := ts } u k x).noticeAll (some u) s.mem) := by
  rw [step_cons s _ ts hturns, takeTurn, withUnit_eq { s with turns := ts } u _ x hx]
  rfl

theorem eventTurn_work {s : State} {u : Nat} {x : UnitState} {j : Job} {w : Work} (k : Nat) (hj : x.job = some j)
    (hp : j.plan = .work w) : eventTurn s u k x = workEvent s u k x w j := by
  rw [eventTurn, hj]
  dsimp only
  rw [hp]

section

variable {s : State} {u k : Nat} {x : UnitState} {w : Work} {j : Job} {d : Upd}

/-- `ACQ` of a held lock has no step (R72). -/
theorem workEvent_wait (hfl : j.flight = .between) (hk : j.todo[k]? = some (.waiting d)) (hpart : d.full = false)
    (hns : w.ns = false) (hheld : s.lock.holder w.base ≠ none) : workEvent s u k x w j = s := by
  obtain ⟨v, hv⟩ := Option.ne_none_iff_exists'.1 hheld
  rw [workEvent, hfl]
  dsimp only
  rw [hk]
  simp only [hpart, hns, hv, Bool.false_eq_true, if_false]

/-- `ACQ` of a free lock (R69, R73). -/
theorem workEvent_acquire (hfl : j.flight = .between) (hk : j.todo[k]? = some (.waiting d)) (hpart : d.full = false)
    (hns : w.ns = false) (hfree : s.lock.holder w.base = none) :
    workEvent s u k x w j =
      { s.setUnit u { x with job := some { j with todo := j.todo.eraseIdx k, flight := .acquired d } } with
        lock := s.lock.acquire w.base u } := by
  rw [workEvent, hfl]
  dsimp only
  rw [hk]
  simp only [hpart, hns, hfree, Bool.false_eq_true, if_false]

end

/-- Settles O48: the event has no step while the entry is held, and takes the entry when it is free. -/
theorem acquireWaitsForTheLock : Obligations.AcquireWaitsForTheLock := by
  intro s u k ts x w j d hturns hx hj hp hfl hk hpart hns
  rw [step_event hturns hx, eventTurn_work k hj hp]
  constructor
  · intro hheld
    rw [workEvent_wait (s := { s with turns := ts }) hfl hk hpart hns hheld]
    exact congrArg Host.Outcome.next (State.noticeAll_self { s with turns := ts } _)
  · intro hfree
    rw [workEvent_acquire (s := { s with turns := ts }) hfl hk hpart hns hfree]
    exact ⟨_, rfl, rfl, fun b => LockTable.holder_acquire s.lock w.base u b⟩

/-- When work has to wait (R72, R74, R75). -/
theorem mustWait_iff (w : Work) (t : LockTable) :
    w.mustWait t = true ↔ w.ns = false ∧ (∃ d ∈ w.todo, d.full = false) ∧ t.holder w.base ≠ none := by
  simp [Work.mustWait, Work.locks, Option.isSome_iff_ne_none, and_assoc]

/-- A busy unit's work leaves the state as it was only by waiting. -/
theorem perform_work_eq_self_iff {s : State} {x : UnitState} (w : Work) (hx : s.units[s.active]? = some x)
    (hbusy : x.busy = true) : s.perform x (.work w) = s ↔ w.mustWait s.lock = true := by
  have hmoves : ∀ (r : Word) (m : Memory) (c : Nat),
      ({ s.setUnit s.active (x.done w.ovl r) with mem := m, freeCtr := c } : State) ≠ s := by
    intro r m c h
    have hget : s.units[s.active]? = some (x.done w.ovl r) := by
      conv_lhs => rw [← h]
      exact State.setUnit_get s s.active _ x hx
    rw [hx] at hget
    rw [Option.some.inj hget, done_busy] at hbusy
    cases hbusy
  obtain ⟨hw, h⟩ | ⟨hw, -, h⟩ | ⟨hw, -, h⟩ := perform_work_cases s x w <;> rw [h, hw]
  · exact iff_of_true rfl rfl
  · exact iff_of_false (hmoves _ _ _) Bool.false_ne_true
  · exact iff_of_false (hmoves _ _ s.freeCtr) Bool.false_ne_true

/-- Settles O49: carrying out work changes nothing exactly when the work must wait. -/
theorem commandWaitsExactlyForAHeldLock : Obligations.CommandWaitsExactlyForAHeldLock := by
  intro s x i w hx hbusy hp
  rw [exec_eq_perform i s x hx, hp, Host.Outcome.next.injEq, perform_work_eq_self_iff w hx hbusy, mustWait_iff]

/-! ## Host writes -/

theorem step_hostWrite {s : State} {a : Nat} {v : Word} {ts : List Turn} (hturns : s.turns = .hostWrite a v :: ts)
    (ha : a < s.memWords) :
    step s = .next ({ s with turns := ts, mem := s.mem.writeWord a v }.noticeAll none s.mem) := by
  rw [step_cons s _ ts hturns, takeTurn, hostWriteTurn]
  exact if_pos ha

/-- A host write to a register of an existing unit passes without effect (R34, R35). -/
theorem withUnit_const {s : State} {u : Nat} (hu : u < s.units.length) : withUnit s u (fun _ => s) = .next s :=
  withUnit_eq s u _ _ (List.getElem?_eq_getElem hu)

/-- Settles O52: a host write is one `writeWord` that the units notice; the registers take no part. -/
theorem hostWritesReachMemoryAlone : Obligations.HostWritesReachMemoryAlone := by
  intro s ts v
  refine ⟨fun a hturns ha => ?_, fun u hu hturns => ?_, fun u hu hturns => ?_⟩
  · refine ⟨_, step_hostWrite hturns ha, ?_, fun c hc => ?_, rfl, State.noticeAll_length .., fun u x hx => ?_⟩
    · rw [State.noticeAll_mem, Memory.readWord_writeWord, if_pos rfl]
    · rw [State.noticeAll_mem, Memory.readWord_writeWord, if_neg hc]
    · refine ⟨_, noticeAll_get_other (s := s) nofun rfl hx, ?_⟩
      simp
  · rw [step_cons s _ ts hturns]
    exact withUnit_const hu
  · rw [step_cons s _ ts hturns]
    exact withUnit_const hu

end Sys2Proof.Machine
end

