-- ==== Sys2Proof/Proofs/CommandFrame.lean ====
section
/-! PROOFS. What a memory event of a running command does, in the two forms later proofs need, and the frame of every
command (`CommandFrame`, O41). -/

namespace Sys2Proof.Machine

/-! ## The two kinds of memory event -/

/-- What a memory event of unit `u`, running `j`, does: it writes no memory, and what it has read since is current; or it
writes one word of those still to be written, and that one is written then (R69, R73 to R76). -/
inductive EventEffect (s : State) (u : Nat) (x : UnitState) (j : Job) (t : State) : Prop
  /-- A wait, a read, an `ACQ` or a `REL`. -/
  | quiet (j' : Job) (hmem : t.mem = s.mem) (hunits : t.units = s.units.set u { x with job := some j' })
      (hplan : j'.plan = j.plan) (hfore : j'.foretold = j.foretold) (hpend : j'.pending.Perm j.pending)
      (hread : ∀ d old, j'.HasRead d old → j.HasRead d old ∨ old = s.mem.readWord d.addr)
  /-- The `W` of a full word, or of a word read before. -/
  | write (j' : Job) (d : Upd) (v : Word) (hmem : t.mem = s.mem.writeWord d.addr v)
      (hunits : t.units = s.units.set u { x with job := some j' }) (hplan : j'.plan = j.plan)
      (hfore : j'.foretold = j.foretold) (hpend : (d :: j'.pending).Perm j.pending)
      (hread : ∀ d old, j'.HasRead d old → j.HasRead d old)
      (hvalue : (d.full = true ∧ v = updValue s x d.val) ∨
        ∃ old, j.HasRead d old ∧ v = merge old d.mask (updValue s x d.val))

/-- Without the update at place `k`, just that update is no longer to be written. -/
theorem Job.pending_eraseIdx_perm {j : Job} {k : Nat} {p : Pending} (hf : j.flight = .between)
    (hk : j.todo[k]? = some p) : (p.upd :: ({ j with todo := j.todo.eraseIdx k } : Job).pending).Perm j.pending := by
  have hperm := Job.pending_acquire hf hk
  rwa [Job.pending_of_acquired (d := p.upd) (by rfl),
    ← Job.pending_of_between (j := { j with todo := j.todo.eraseIdx k }) (by exact hf)] at hperm

/-- Every memory event has one of the two effects. -/
theorem workEvent_effect {s : State} {u : Nat} {x : UnitState} {j : Job} (k : Nat) (w : Work)
    (hx : s.units[u]? = some x) (hj : x.job = some j) : EventEffect s u x j (workEvent s u k x w j) := by
  have herase : ∀ (fl : Flight) (d : Upd) (old : Word), (∀ e o, fl ≠ .fetched e o) →
      ({ j with todo := j.todo.eraseIdx k, flight := fl } : Job).HasRead d old → j.HasRead d old := by
    rintro fl d old hfl (hm | hm)
    · exact .inl (List.mem_of_mem_eraseIdx hm)
    · exact absurd hm (hfl _ _)
  obtain h | ⟨d, old, hf, hk, h⟩ | ⟨d, hf, hk, hfull, h⟩ | ⟨d, hf, hk, -, -, h⟩ | ⟨d, hf, hk, -, -, -, h⟩ |
    ⟨d, hf, h⟩ | ⟨d, old, hf, h⟩ | ⟨hf, h⟩ := workEvent_cases s u k x w j <;> rw [h]
  · refine .quiet j rfl ?_ rfl rfl (.refl _) (fun _ _ => .inl)
    rw [← hj]
    exact congrArg State.units (State.setUnit_self s u x hx).symm
  · exact .write _ d _ rfl rfl rfl rfl (Job.pending_eraseIdx_perm hf hk)
      (fun d' old' => herase _ d' old' (by simp [hf])) (.inr ⟨old, .inl (List.mem_of_getElem? hk), rfl⟩)
  · exact .write _ d _ rfl rfl rfl rfl (Job.pending_eraseIdx_perm hf hk)
      (fun d' old' => herase _ d' old' (by simp [hf])) (.inl ⟨hfull, rfl⟩)
  · refine .quiet _ rfl rfl rfl rfl (.of_eq (Job.pending_fetch _ hf hk)) ?_
    rintro d' old' (hm | hm)
    · obtain hm | hm := List.mem_or_eq_of_mem_set hm
      · exact .inl (.inl hm)
      · cases hm
        exact .inr rfl
    · exact .inl (.inr hm)
  · exact .quiet _ rfl rfl rfl rfl (Job.pending_acquire hf hk)
      (fun d' old' hr => .inl (herase (.acquired d) d' old' (by simp) hr))
  · refine .quiet _ rfl rfl rfl rfl (.of_eq (Job.pending_of_acquired hf).symm) ?_
    rintro d' old' (hm | hm)
    · exact .inl (.inl hm)
    · cases hm
      exact .inr rfl
  · refine .write _ d _ rfl rfl rfl rfl (.of_eq (Job.pending_of_fetched hf).symm) ?_ (.inr ⟨old, .inr hf, rfl⟩)
    rintro d' old' (hm | hm)
    · exact .inl hm
    · cases hm
  · refine .quiet _ rfl rfl rfl rfl (.of_eq (Job.pending_of_written hf).symm) ?_
    rintro d' old' (hm | hm)
    · exact .inl (.inl hm)
    · cases hm

/-- A memory event touches no lock entry but that of its command's base (R72). -/
theorem workEvent_holder_other {b : Nat} (s : State) (u k : Nat) (x : UnitState) (w : Work) (j : Job)
    (hb : b ≠ w.base) : (workEvent s u k x w j).lock.holder b = s.lock.holder b := by
  obtain h | ⟨_, _, _, _, h⟩ | ⟨_, _, _, _, h⟩ | ⟨_, _, _, _, _, h⟩ | ⟨_, _, _, _, _, _, h⟩ | ⟨_, _, h⟩ |
    ⟨_, _, _, h⟩ | ⟨_, h⟩ := workEvent_cases s u k x w j <;> rw [h]
  · rfl
  · rfl
  · rfl
  · exact (LockTable.holder_acquire s.lock w.base u b).trans (if_neg hb)
  · rfl
  · rfl
  · exact (LockTable.holder_release s.lock w.base b).trans (if_neg hb)

/-! ## The bits and words an event changes -/

section

variable {s t : State} {u : Nat} {x : UnitState} {i : Instr} {j : Job} {w : Work} {n : Nat} {m : Memory}

/-- A bit an event changes lies in the destination range, or becomes what the unit read there before (R74, R79). -/
theorem EventEffect.changed_bit (h : EventEffect s u x j t) (hp : planOf i n m = .work w)
    (hown : ∀ d ∈ j.pending, d ∈ w.todo) {a b : Nat} (hb : b < 64) (hne : t.mem.bit a b ≠ s.mem.bit a b) :
    InDest i a b ∨ ((∃ c, c < 64 ∧ InDest i a c) ∧
      ∃ d old, j.HasRead d old ∧ d.addr = a ∧ t.mem.bit a b = old.getLsbD b) := by
  cases h with
  | quiet j' hmem => exact absurd (by rw [hmem]) hne
  | write j' d v hmem hunits hplan hfore hpend hread hvalue =>
    rw [hmem, Memory.bit_writeWord] at hne ⊢
    have ha : d.addr = a := by
      by_contra hno
      rw [if_neg (Ne.symm hno)] at hne
      exact hne rfl
    subst ha
    have hd : d ∈ w.todo := hown d (hpend.subset List.mem_cons_self)
    rw [if_pos rfl] at hne ⊢
    obtain ⟨hfull, -⟩ | ⟨old, hr, rfl⟩ := hvalue
    · exact .inl (planOf_inDest_of_full hp hd hfull hb)
    · by_cases hmask : d.mask.getLsbD b = true
      · exact .inl ((planOf_mask_iff hp hd hb).1 hmask)
      · refine .inr ⟨(planOf_footprint hp).2 d hd, d, old, hr, rfl, ?_⟩
        rw [getLsbD_merge, if_neg hmask]

/-- An event writes at most one word, one still to be written, and it is not to be written again (R76). -/
theorem EventEffect.changed_word (h : EventEffect s u x j t)
    (hnodup : (j.pending.map Upd.addr).Nodup) :
    ∃ j', t.units = s.units.set u { x with job := some j' } ∧ (∀ d ∈ j'.pending, d ∈ j.pending) ∧
      (t.mem = s.mem ∨ ∃ d ∈ j.pending, d.addr ∉ j'.pending.map Upd.addr ∧
        ∀ a, a ≠ d.addr → t.mem.readWord a = s.mem.readWord a) := by
  cases h with
  | quiet j' hmem hunits hplan hfore hpend => exact ⟨j', hunits, fun d hd => hpend.subset hd, .inl hmem⟩
  | write j' d v hmem hunits hplan hfore hpend =>
    refine ⟨j', hunits, fun d hd => hpend.subset (List.mem_cons_of_mem _ hd),
      .inr ⟨d, hpend.subset List.mem_cons_self, ?_, fun a ha => ?_⟩⟩
    · exact (List.nodup_cons.1 ((hpend.map Upd.addr).nodup_iff.2 hnodup)).1
    · rw [hmem, Memory.readWord_writeWord, if_neg ha]

end

/-! ## The frame -/

/-- Noticing can change the mark of interference alone (R79). -/
theorem UnitState.notice_eq_mark (x : UnitState) (n : Nat) (m m' : Memory) :
    ∃ r, x.notice n m m' = { x with raced := r } := by
  unfold UnitState.notice
  split
  · exact ⟨true, rfl⟩
  · exact ⟨x.raced, rfl⟩

/-- Carrying out a command changes memory in its destination range alone (R76, R79, R322). -/
theorem perform_bit_outside {s : State} (x : UnitState) {i : Instr} {a b : Nat} (hb : b < 64) (hout : ¬ InDest i a b) :
    (s.perform x (planOf i s.memWords s.mem)).mem.bit a b = s.mem.bit a b := by
  cases hp : planOf i s.memWords s.mem with
  | fail e => rfl
  | early r => rfl
  | work w =>
    obtain ⟨-, h⟩ | ⟨-, -, h⟩ | ⟨-, -, h⟩ := perform_work_cases s x w <;> rw [h]
    · exact bit_applyUpds_outside hp (fun d hd => mem_freeUpds hd) s.mem hb hout
    · exact bit_applyUpds_outside hp (fun d hd => ⟨d, hd, rfl, rfl⟩) s.mem hb hout

/-- Carrying out a command keeps the acting unit's `CUR` and the host's waiting descriptors (log entries 16 and 14). -/
theorem perform_get_self {s : State} {x : UnitState} (p : Plan) (hx : s.units[s.active]? = some x) :
    ∃ y, (s.perform x p).units[s.active]? = some y ∧ y.cur = x.cur ∧ y.offered = x.offered := by
  have hset : ∀ y : UnitState, (s.units.set s.active y)[s.active]? = some y := fun y => State.setUnit_get s _ y x hx
  cases p with
  | fail e => exact ⟨_, hset _, rfl, rfl⟩
  | early r => exact ⟨_, hset _, rfl, rfl⟩
  | work w =>
    obtain ⟨-, h⟩ | ⟨-, -, h⟩ | ⟨-, -, h⟩ := perform_work_cases s x w <;> rw [h]
    · exact ⟨x, hx, rfl, rfl⟩
    · exact ⟨_, hset _, rfl, rfl⟩
    · exact ⟨_, hset _, rfl, rfl⟩

/-- A completion keeps its unit's `CUR` and the host's waiting descriptors (log entries 16 and 14). -/
theorem finishTurn_get_self {s : State} {u : Nat} {x : UnitState} (hx : s.units[u]? = some x) :
    ∃ y, (finishTurn s u x).units[u]? = some y ∧ y.cur = x.cur ∧ y.offered = x.offered := by
  have hset : ∀ y : UnitState, (s.units.set u y)[u]? = some y := fun y => State.setUnit_get s u y x hx
  obtain h | ⟨_, -, -, -, -, ⟨_, -, h⟩ | ⟨_, -, h⟩ | ⟨_, -, h⟩⟩ := finishTurn_cases s u x <;> rw [h]
  · exact ⟨x, hx, rfl, rfl⟩
  · exact ⟨_, hset _, rfl, rfl⟩
  · exact ⟨_, hset _, rfl, rfl⟩
  · exact ⟨_, hset _, rfl, rfl⟩

/-- What a step of one unit's running command leaves of the rest of the system: the clauses of the frame that hold of
events and completions alike (R329). -/
theorem step_frame {s t : State} {u : Nat} {e : Turn} {ts : List Turn} (hturns : s.turns = e :: ts)
    (he : e = .finish u ∨ ∃ k, e = .event u k) (h : step s = .next t) :
    t.memWords = s.memWords ∧ t.turns = ts ∧ t.units.length = s.units.length ∧
      ∀ (v : Nat) (z : UnitState), v ≠ u → s.units[v]? = some z → ∃ r, t.units[v]? = some { z with raced := r } := by
  rw [step_cons s e ts hturns] at h
  obtain ⟨hwords, hsched, hlen⟩ := takeTurn_frame h
  refine ⟨hwords, hsched, hlen, fun v z hv hz => ?_⟩
  obtain ⟨r, hr⟩ := z.notice_eq_mark s.memWords s.mem t.mem
  refine ⟨r, hr ▸ takeTurn_get_other (s := { s with turns := ts }) hz ?_ ?_ ?_ h⟩ <;>
    obtain rfl | ⟨k, rfl⟩ := he
  · exact fun hof => hv hof.symm
  · exact fun hof => hv hof.symm
  · nofun
  · nofun
  · nofun
  · nofun

/-- Settles O41: the atomic form by `perform`, a memory event by its two effects, a completion by what it cannot touch. -/
theorem commandFrame : Obligations.CommandFrame := by
  constructor
  · intro s t x i hx h
    rw [exec_eq_perform i s x hx] at h
    cases h
    obtain ⟨hwords, hlock, hsched, hactive, hlen⟩ := perform_frame s x (planOf i s.memWords s.mem)
    refine ⟨fun a b hb hne => ?_, hwords, hlock, hsched, hactive, hlen, fun v hv => perform_units_other _ _ _ _ hv,
      perform_get_self _ hx⟩
    by_contra hout
    exact hne (perform_bit_outside x hb hout)
  · intro s t u e ts x i j w hturns he hx hd hj hon hp hstep
    obtain ⟨⟨m, hplan⟩, hown, -⟩ := hon
    obtain ⟨hown, hnodup⟩ := hown w hp
    have hpi : planOf i s.memWords m = .work w := by
      rw [← hp, hplan, planDesc, hd]
    obtain ⟨hwords, hsched, hlen, hothers⟩ := step_frame hturns he hstep
    obtain rfl | ⟨k, rfl⟩ := he
    · rw [step_finish hturns hx] at hstep
      cases hstep
      have hsame := finishTurn_sameButUnit (s := { s with turns := ts }) hx
      have hmem := hsame.mem
      obtain ⟨-, -, hactive, -⟩ := (finishTurn_move (s := { s with turns := ts }) hx).frame
      refine ⟨fun a b _ hne => absurd (congrArg (Memory.bit · a b) hmem) hne, nofun, fun _ => ⟨hmem, hsame.lock⟩, hwords,
        hsched, hactive, hlen, fun b _ => congrArg (LockTable.holder · b) hsame.lock, hothers,
        finishTurn_get_self (s := { s with turns := ts }) hx⟩
    · rw [step_event hturns hx, eventTurn_work k hj hp] at hstep
      cases hstep
      have heff := workEvent_effect (s := { s with turns := ts }) k w hx hj
      obtain ⟨j', hunits, hpend, hmem⟩ := heff.changed_word hnodup
      have hself := State.setUnit_get s u { x with job := some j' } x hx
      rw [State.setUnit_units, ← hunits] at hself
      refine ⟨fun a b hb hne => heff.changed_bit hpi hown hb hne,
        fun k' hk' => ⟨{ x with job := some j' }, j', ?_, rfl, hpend, hmem⟩, nofun, hwords, hsched,
        (workEvent_schedule ..).2, hlen, fun b hb => workEvent_holder_other { s with turns := ts } u k x w j hb, hothers,
        { x with job := some j' }, ?_, rfl, rfl⟩
      · rw [State.noticeAll_get_self, hself]
      · rw [State.noticeAll_get_self, hself]

end Sys2Proof.Machine
end

