-- ==== Sys2Proof/Proofs/Undisturbed.lean ====
section
/-! PROOFS. A command that no other agent interferes with, in any form of execution: how its outcome as one atomic step is
reached by its own turns one at a time (R78). -/

namespace Sys2Proof.Machine

/-! ## The outcome of a plan -/

/-- Memory after the plan has been carried out as one step. -/
def Plan.memAfter (p : Plan) (m : Memory) : Memory :=
  match p with
  | .fail _ => m
  | .early _ => m
  | .work w => applyUpds m w.todo

/-- The unit after the plan has been carried out, undisturbed. -/
def Plan.unitAfter (p : Plan) (x : UnitState) : UnitState :=
  match p with
  | .fail e => x.raise e
  | .early r => x.done false r
  | .work w => x.done w.ovl w.res

section

variable (p : Plan) (x : UnitState)

theorem Plan.unitAfter_busy : (p.unitAfter x).busy = false := by
  cases p with
  | fail e => exact raise_busy x e
  | early r => exact done_busy x false r
  | work w => exact done_busy x w.ovl w.res

theorem Plan.unitAfter_job : (p.unitAfter x).job = none := by cases p <;> rfl

theorem Plan.unitAfter_raced : (p.unitAfter x).raced = false := by cases p <;> rfl

theorem Plan.unitAfter_cur : (p.unitAfter x).cur = x.cur := by cases p <;> rfl

/-- The progress of a command leaves no trace in its outcome (R40). -/
theorem Plan.unitAfter_progress (j : Option Job) : p.unitAfter { x with job := j } = p.unitAfter x := by cases p <;> rfl

/-- What a plan makes of a bit rests on that bit alone. -/
theorem Plan.memAfter_bit_congr {m m' : Memory} {a b : Nat} (h : m.bit a b = m'.bit a b) :
    (p.memAfter m).bit a b = (p.memAfter m').bit a b := by
  cases p with
  | fail e => exact h
  | early r => exact h
  | work w => exact bit_applyUpds_congr h

end

theorem Plan.memAfter_wf {p : Plan} {m : Memory} (h : m.wf = true) : (p.memAfter m).wf = true := by
  cases p with
  | fail e => exact h
  | early r => exact h
  | work w => exact wf_applyUpds _ _ h

/-- A plan of a command changes memory in the command's destination range alone (R76). -/
theorem Plan.memAfter_bit_outside {i : Instr} {n a b : Nat} {m₀ : Memory} (m : Memory) (hb : b < 64)
    (hout : ¬ InDest i a b) : ((planOf i n m₀).memAfter m).bit a b = m.bit a b := by
  cases hp : planOf i n m₀ with
  | fail e => rfl
  | early r => rfl
  | work w => exact bit_applyUpds_outside hp (fun d hd => ⟨d, hd, rfl, rfl⟩) m hb hout

/-- Carrying out a plan undisturbed and with no lock to wait for is its outcome (R78). -/
theorem perform_undisturbed {s : State} {x : UnitState} {p : Plan} (hr : x.raced = false)
    (hwait : ∀ w, p = .work w → w.mustWait s.lock = false) :
    s.perform x p = { s.setUnit s.active (p.unitAfter x) with mem := p.memAfter s.mem } := by
  cases p with
  | fail e => rfl
  | early r => rfl
  | work w => exact perform_work s x w (hwait w rfl) hr

/-- A command that no lock can hold up ends, undisturbed, in the outcome of its plan. -/
theorem exec_undisturbed {s : State} {x : UnitState} (i : Instr) (hx : s.units[s.active]? = some x)
    (hr : x.raced = false) (hlock : s.lock = []) :
    exec i s = .next { s.setUnit s.active ((planOf i s.memWords s.mem).unitAfter x) with
      mem := (planOf i s.memWords s.mem).memAfter s.mem } := by
  rw [exec_eq_perform i s x hx, perform_undisturbed hr]
  exact fun w _ => mustWait_eq_false w s.lock (.inr (by rw [hlock]; rfl))

/-! ## Plans that differ only where they write nothing -/

/-- The update with the bits of its value outside its mask, which it does not store (R73), cleared. -/
def Upd.masked (d : Upd) : Upd := { d with val := d.val &&& d.mask }

/-- The plan with all its updates masked: two plans of one masked form do the same. -/
def Plan.masked : Plan → Plan
  | .fail e => .fail e
  | .early r => .early r
  | .work w => .work { w with todo := w.todo.map Upd.masked }

theorem applyUpd_masked (m : Memory) (d : Upd) : applyUpd m d.masked = applyUpd m d := by
  have hval : d.val &&& d.mask &&& d.mask = d.val &&& d.mask := by rw [BitVec.and_assoc, BitVec.and_self]
  rw [applyUpd, applyUpd, merge, merge, Upd.masked]
  dsimp only
  rw [hval]

theorem applyUpds_masked (m : Memory) (us : List Upd) : applyUpds m (us.map Upd.masked) = applyUpds m us := by
  induction us generalizing m with
  | nil => rfl
  | cons d us ih => exact (congrArg (applyUpds · (us.map Upd.masked)) (applyUpd_masked m d)).trans (ih (applyUpd m d))

theorem Plan.memAfter_masked (p : Plan) (m : Memory) : p.masked.memAfter m = p.memAfter m := by
  cases p with
  | fail e => rfl
  | early r => rfl
  | work w => exact applyUpds_masked m w.todo

theorem Plan.unitAfter_masked (p : Plan) (x : UnitState) : p.masked.unitAfter x = p.unitAfter x := by
  cases p <;> rfl

section

variable {p q : Plan} (h : p.masked = q.masked)

include h

theorem Plan.memAfter_eq_of_masked (m : Memory) : p.memAfter m = q.memAfter m := by
  rw [← Plan.memAfter_masked p, h, Plan.memAfter_masked]

theorem Plan.unitAfter_eq_of_masked (x : UnitState) : p.unitAfter x = q.unitAfter x := by
  rw [← Plan.unitAfter_masked p, h, Plan.unitAfter_masked]

end

/-! ## The stages of an undisturbed command -/

/-- Memory after command `i` alone, carried out as one step on memory `m₀`. -/
def memAlone (i : Instr) (n : Nat) (m₀ : Memory) : Memory := (planOf i n m₀).memAfter m₀

/-- The running command `j` stands where command `i`, alone on memory `m₀`, can stand when memory is `m`: its plan does
what the plan on `m₀` does; what it has read is still current outside its destination range; and, if its values are its
own, its destination bits are final in the words it has written and untouched in the others. -/
structure Running (n : Nat) (m₀ : Memory) (i : Instr) (m : Memory) (j : Job) : Prop where
  plan : ∃ m', j.plan = planOf i n m'
  alike : j.plan.masked = (planOf i n m₀).masked
  own : ∀ w, j.plan = .work w → (∀ d ∈ j.pending, d ∈ w.todo) ∧ (j.pending.map Upd.addr).Nodup
  current : ∀ d old, j.HasRead d old → ∀ b, b < 64 → ¬ InDest i d.addr b → old.getLsbD b = m.bit d.addr b
  written : j.foretold = false → ∀ a b, b < 64 → InDest i a b →
    m.bit a b = if a ∈ j.pending.map Upd.addr then m₀.bit a b else (memAlone i n m₀).bit a b

/-- Where an undisturbed unit stands, submitted as `x₀` with memory at `m₀`, when memory is `m` (R140). -/
inductive Stage (n : Nat) (m₀ : Memory) (i : Instr) (x₀ : UnitState) (m : Memory) : UnitState → Prop
  /-- Its command has not begun. -/
  | submitted (hmem : ∀ a b, b < 64 → InDest i a b → m.bit a b = m₀.bit a b) : Stage n m₀ i x₀ m x₀
  /-- Its command is running. -/
  | running (j : Job) (hrun : Running n m₀ i m j) : Stage n m₀ i x₀ m { x₀ with job := some j }
  /-- Its command has completed as it does alone. -/
  | completed (hmem : ∀ a b, b < 64 → InDest i a b → m.bit a b = (memAlone i n m₀).bit a b) :
    Stage n m₀ i x₀ m ((planOf i n m₀).unitAfter x₀)

/-- What a unit has read is of an update still to be written. -/
theorem Job.HasRead.mem_pending {j : Job} {d : Upd} {old : Word} (h : j.HasRead d old) : d ∈ j.pending := by
  obtain hm | hf := h
  · have hd : d ∈ j.todo.map Pending.upd := List.mem_map.2 ⟨_, hm, rfl⟩
    unfold Job.pending
    split
    · exact hd
    · exact List.mem_cons_of_mem _ hd
    · exact List.mem_cons_of_mem _ hd
    · exact hd
  · rw [Job.pending_of_fetched hf]
    exact List.mem_cons_self

section

variable {n : Nat} {m₀ : Memory} {i : Instr}

/-- With everything written, memory is as after the command alone (R149). -/
theorem Running.written_all {m : Memory} {j : Job} (h : Running n m₀ i m j) (hfore : j.foretold = false)
    (htodo : j.todo = []) (hfl : j.flight = .between) {a b : Nat} (hb : b < 64) (hin : InDest i a b) :
    m.bit a b = (memAlone i n m₀).bit a b := by
  rw [h.written hfore a b hb hin, Job.pending_of_between hfl, htodo, if_neg (by simp)]

/-- A command begins with all of it still to be written (R141). -/
theorem Running.begun {m : Memory} (f : Bool) (halike : (planOf i n m).masked = (planOf i n m₀).masked)
    (hmem : ∀ a b, b < 64 → InDest i a b → m.bit a b = m₀.bit a b) :
    Running n m₀ i m ⟨planOf i n m, (planOf i n m).todo, .between, f⟩ := by
  have hpend : ∀ w, planOf i n m = .work w → (planOf i n m).todo.map Pending.upd = w.todo := by
    intro w hw
    rw [hw]
    simp [Plan.todo, Function.comp_def]
  refine ⟨⟨m, rfl⟩, halike, fun w hw => ?_, ?_, fun _ a b hb hin => ?_⟩
  · rw [Job.pending_between, hpend w hw]
    exact ⟨fun d hd => hd, (planOf_footprint hw).1⟩
  · rintro d old (hm | hf)
    · cases hp : planOf i n m with
      | fail e => rw [hp] at hm; cases hm
      | early r => rw [hp] at hm; cases hm
      | work w =>
        rw [hp] at hm
        obtain ⟨_, -, he⟩ := List.mem_map.1 hm
        cases he
    · cases hf
  · rw [hmem a b hb hin, Job.pending_between]
    split
    · rfl
    · next hnot =>
      rw [memAlone, ← Plan.memAfter_eq_of_masked halike]
      cases hp : planOf i n m with
      | fail e => rfl
      | early r => rfl
      | work w =>
        rw [hpend w hp] at hnot
        exact absurd ((planOf_mem_addr_iff hp a).2 ⟨b, hb, hin⟩) hnot

section

variable {s t : State} {u : Nat} {x : UnitState} {j : Job} {w : Work}

/-- A memory event of an undisturbed command: the command stands again where it can stand alone, and memory changes in its
destination range alone. -/
theorem Running.event (h : Running n m₀ i s.mem j) (hj : x.job = some j) (hr : x.raced = false)
    (hp : j.plan = .work w) (heff : EventEffect s u x j t) :
    (∃ j', t.units = s.units.set u { x with job := some j' } ∧ Running n m₀ i t.mem j') ∧
      ∀ a b, b < 64 → ¬ InDest i a b → t.mem.bit a b = s.mem.bit a b := by
  obtain ⟨⟨m', hplan⟩, halike, hown, hcurrent, hwritten⟩ := h
  obtain ⟨hown, hnodup⟩ := hown w hp
  have hpi : planOf i n m' = .work w := hplan ▸ hp
  cases heff with
  | quiet j' hmem hunits hplan' hfore hpend hread =>
    refine ⟨⟨j', hunits, ⟨m', hplan' ▸ hplan⟩, hplan' ▸ halike, fun w' hw' => ?_, fun d old hd b hb hout => ?_,
      fun hf a b hb hin => ?_⟩, fun a b _ _ => congrArg (Memory.bit · a b) hmem⟩
    · rw [hplan', hp] at hw'
      cases hw'
      exact ⟨fun d hd => hown d (hpend.subset hd), (hpend.map Upd.addr).nodup_iff.2 hnodup⟩
    · rw [hmem]
      obtain hd | rfl := hread d old hd
      · exact hcurrent d old hd b hb hout
      · rfl
    · simp only [hmem, (hpend.map Upd.addr).mem_iff]
      exact hwritten (hfore ▸ hf) a b hb hin
  | write j' d v hmem hunits hplan' hfore hpend hread hvalue =>
    have hd : d ∈ w.todo := hown d (hpend.subset List.mem_cons_self)
    have haddrs := hpend.map Upd.addr
    rw [List.map_cons] at haddrs
    obtain ⟨hfresh, hnodup'⟩ := List.nodup_cons.1 (haddrs.nodup_iff.2 hnodup)
    refine ⟨⟨j', hunits, ⟨m', hplan' ▸ hplan⟩, hplan' ▸ halike, fun w' hw' => ?_, fun e old he b hb hout => ?_,
      fun hf a b hb hin => ?_⟩, fun a b hb hout => ?_⟩
    · rw [hplan', hp] at hw'
      cases hw'
      exact ⟨fun e he => hown e (hpend.subset (List.mem_cons_of_mem _ he)), hnodup'⟩
    · have hne : e.addr ≠ d.addr := fun heq => hfresh (heq ▸ List.mem_map_of_mem he.mem_pending)
      rw [hmem, Memory.bit_writeWord, if_neg hne]
      exact hcurrent e old (hread e old he) b hb hout
    · rw [hmem, Memory.bit_writeWord]
      by_cases ha : a = d.addr
      · subst ha
        have hmask : d.mask.getLsbD b = true := (planOf_mask_iff hpi hd hb).2 hin
        have hval : v.getLsbD b = d.val.getLsbD b := by
          rw [(updValue_own x j s d.val hj (hfore ▸ hf) hr).1] at hvalue
          obtain ⟨-, rfl⟩ | ⟨old, -, rfl⟩ := hvalue
          · rfl
          · rw [getLsbD_merge, if_pos hmask]
        rw [if_pos rfl, if_neg hfresh, memAlone, ← Plan.memAfter_eq_of_masked halike, hp, Plan.memAfter, Memory.bit,
          readWord_applyUpds_mem _ _ d hd (planOf_footprint hpi).1, getLsbD_merge, if_pos hmask, hval]
      · have hiff : a ∈ j'.pending.map Upd.addr ↔ a ∈ j.pending.map Upd.addr := by
          rw [← haddrs.mem_iff, List.mem_cons]
          exact (or_iff_right ha).symm
        simp only [if_neg ha, hiff]
        exact hwritten (hfore ▸ hf) a b hb hin
    · rw [hmem, Memory.bit_writeWord]
      split
      · next ha =>
        subst ha
        obtain ⟨hfull, -⟩ | ⟨old, hread', rfl⟩ := hvalue
        · exact absurd (planOf_inDest_of_full hpi hd hfull hb) hout
        · rw [getLsbD_merge, if_neg (mt (planOf_mask_iff hpi hd hb).1 hout)]
          exact hcurrent d old hread' b hb hout
      · rfl

/-- A completion turn of an undisturbed command: it waits, or the unit ends in the outcome of its plan (R148, R149). -/
theorem finishTurn_undisturbed (s : State) (u : Nat) (hj : x.job = some j) (hr : x.raced = false) :
    finishTurn s u x = s ∨ (j.todo = [] ∧ j.flight = .between ∧ j.foretold = false ∧
      finishTurn s u x = s.setUnit u (j.plan.unitAfter x)) := by
  obtain h | ⟨j', hj', htodo, hfl, howed, h⟩ := finishTurn_cases s u x
  · exact .inl h
  · rw [hj] at hj'
    cases hj'
    have hfore : j.foretold = false := by simpa [UnitState.owed, hj, hr] using howed
    refine .inr ⟨htodo, hfl, hfore, ?_⟩
    obtain ⟨e, hp, h⟩ | ⟨r, hp, h⟩ | ⟨w, hp, h⟩ := h <;> rw [h, hp]
    · rfl
    · rfl
    · obtain ⟨hval, hctr⟩ := updValue_own x j s w.res hj hfore hr
      rw [hval, hctr]
      rfl

end

/-! ## The unit's own turns -/

section

variable {s t : State} {u : Nat} {x x₀ : UnitState}

/-- What the unit's own turns keep: it stands again where it can stand alone, and memory has changed in its destination
range alone. -/
def Advanced (n : Nat) (m₀ : Memory) (i : Instr) (x₀ : UnitState) (u : Nat) (s t : State) : Prop :=
  (∃ y, t.units[u]? = some y ∧ Stage n m₀ i x₀ t.mem y) ∧
    ∀ a b, b < 64 → ¬ InDest i a b → t.mem.bit a b = s.mem.bit a b

theorem Advanced.refl (hx : s.units[u]? = some x) (h : Stage n m₀ i x₀ s.mem x) : Advanced n m₀ i x₀ u s s :=
  ⟨⟨x, hx, h⟩, fun _ _ _ _ => rfl⟩

/-- A turn that changes only the unit itself advances it when the unit's new place is one it can have. -/
theorem Advanced.of_set {y : UnitState} (hx : s.units[u]? = some x) (h : Stage n m₀ i x₀ s.mem y) :
    Advanced n m₀ i x₀ u s (s.setUnit u y) :=
  ⟨⟨y, State.setUnit_get s u y x hx, h⟩, fun _ _ _ _ => rfl⟩

theorem Advanced.noticed (h : Advanced n m₀ i x₀ u s t) (m : Memory) :
    Advanced n m₀ i x₀ u s (t.noticeAll (some u) m) := by
  obtain ⟨⟨y, hy, hst⟩, hframe⟩ := h
  exact ⟨⟨y, by rw [State.noticeAll_get_self, hy], hst⟩, hframe⟩

/-- A unit that has been submitted `x₀` and stands somewhere on its way is not marked as raced. -/
theorem Stage.raced (h : Stage n m₀ i x₀ s.mem x) (hr : x₀.raced = false) : x.raced = false := by
  cases h with
  | submitted hmem => exact hr
  | running j hrun => exact hr
  | completed hmem => exact Plan.unitAfter_raced _ _

/-- A busy unit that has not begun its command is as it was submitted. -/
theorem Stage.eq_submitted (h : Stage n m₀ i x₀ s.mem x) (hbusy : x.busy = true) (hj : x.job = none) :
    x = x₀ ∧ ∀ a b, b < 64 → InDest i a b → s.mem.bit a b = m₀.bit a b := by
  cases h with
  | submitted hmem => exact ⟨rfl, hmem⟩
  | running j hrun => cases hj
  | completed hmem => rw [Plan.unitAfter_busy] at hbusy; cases hbusy

/-- A running command stands where it can. -/
theorem Stage.eq_running {j : Job} (h : Stage n m₀ i x₀ s.mem x) (hj₀ : x₀.job = none) (hj : x.job = some j) :
    x = { x₀ with job := some j } ∧ Running n m₀ i s.mem j := by
  cases h with
  | submitted hmem => rw [hj₀] at hj; cases hj
  | running j' hrun => cases hj; exact ⟨rfl, hrun⟩
  | completed hmem => rw [Plan.unitAfter_job] at hj; cases hj

variable (hx : s.units[u]? = some x) (hwords : s.memWords = n) (hst : Stage n m₀ i x₀ s.mem x)
  (hj₀ : x₀.job = none) (hr₀ : x₀.raced = false) (hd₀ : decode x₀.cur = .ok i)
  (halike : x.busy = true → x.job = none → (planOf i n s.mem).masked = (planOf i n m₀).masked)

include hx hst

include hwords hd₀ halike in
theorem startTurn_advanced (f : Bool) : Advanced n m₀ i x₀ u s (startTurn s u f x) := by
  subst hwords
  obtain ⟨-, h⟩ | ⟨hbusy, hj, h⟩ := startTurn_cases s u f x <;> rw [h]
  · exact .refl hx hst
  · obtain ⟨rfl, hmem⟩ := hst.eq_submitted hbusy hj
    have hplan : planDesc x.cur s.memWords s.mem = planOf i s.memWords s.mem := by rw [planDesc, hd₀]
    rw [hplan]
    exact .of_set hx (.running _ (.begun _ (halike hbusy hj) hmem))

include hj₀ hr₀ in
theorem eventTurn_advanced (k : Nat) : Advanced n m₀ i x₀ u s (eventTurn s u k x) := by
  obtain h | ⟨j, w, hj, hp, h⟩ := eventTurn_cases s u k x <;> rw [h]
  · exact .refl hx hst
  · obtain ⟨rfl, hrun⟩ := hst.eq_running hj₀ hj
    obtain ⟨⟨j', hunits, hrun'⟩, hframe⟩ := hrun.event hj hr₀ hp (workEvent_effect k w hx hj)
    refine ⟨⟨{ x₀ with job := some j' }, ?_, .running j' hrun'⟩, hframe⟩
    rw [hunits]
    exact State.setUnit_get s u _ _ hx

include hj₀ hr₀ in
theorem finishTurn_advanced : Advanced n m₀ i x₀ u s (finishTurn s u x) := by
  obtain h | ⟨j, hj, -⟩ := finishTurn_cases s u x
  · rw [h]
    exact .refl hx hst
  · obtain ⟨rfl, hrun⟩ := hst.eq_running hj₀ hj
    obtain h | ⟨htodo, hfl, hfore, h⟩ := finishTurn_undisturbed s u hj hr₀ <;> rw [h]
    · exact .refl hx hst
    · rw [Plan.unitAfter_progress, Plan.unitAfter_eq_of_masked hrun.alike]
      exact .of_set hx (.completed fun a b hb hin => hrun.written_all hfore htodo hfl hb hin)

include hwords hr₀ hd₀ halike in
theorem execTurn_advanced (h : execTurn s u = .next t) : Advanced n m₀ i x₀ u s t := by
  subst hwords
  obtain ⟨hnone, -⟩ | ⟨y, hy, hcases⟩ := execTurn_cases s u
  · rw [hx] at hnone; cases hnone
  rw [hx] at hy
  cases hy
  obtain ⟨-, heq⟩ | ⟨hbusy, hj, hcases⟩ := hcases
  · rw [heq] at h; cases h
    exact .refl hx hst
  obtain ⟨rfl, hmem⟩ := hst.eq_submitted hbusy hj
  obtain ⟨r, hd, -⟩ | ⟨i', hd, hex⟩ := hcases
  · rw [hd₀] at hd; cases hd
  rw [hd₀] at hd
  cases hd
  rw [hex, exec_eq_perform i { s with active := u } x hx] at h
  obtain ⟨t', ht', rfl⟩ := noticed_next _ _ _ _ h
  cases ht'
  refine Advanced.noticed ?_ _
  by_cases hwait : ∀ w, planOf i s.memWords s.mem = .work w → w.mustWait s.lock = false
  · have hperf := perform_undisturbed (s := { s with active := u }) hr₀ hwait
    refine ⟨⟨(planOf i s.memWords m₀).unitAfter x, ?_, .completed fun a b hb hin => ?_⟩,
      fun a b hb hout => perform_bit_outside (s := { s with active := u }) x hb hout⟩
    · rw [hperf, ← Plan.unitAfter_eq_of_masked (halike hbusy hj)]
      exact State.setUnit_get s u _ x hx
    · rw [hperf, memAlone, ← Plan.memAfter_eq_of_masked (halike hbusy hj)]
      exact Plan.memAfter_bit_congr _ (hmem a b hb hin)
  · simp only [not_forall] at hwait
    obtain ⟨w, hp, hw⟩ := hwait
    have hperf : State.perform { s with active := u } x (planOf i s.memWords s.mem) = { s with active := u } := by
      rw [hp]
      exact perform_wait _ x w (by simpa using hw)
    rw [hperf]
    exact .refl hx hst

include hwords hj₀ hr₀ hd₀ halike in
/-- The unit's own turns, of whatever kind, advance it as if it were alone. -/
theorem takeTurn_advanced {e : Turn} (hof : e.IsOf u) (h : takeTurn s e = .next t) : Advanced n m₀ i x₀ u s t := by
  cases e with
  | exec v =>
    obtain rfl : v = u := hof
    exact execTurn_advanced hx hwords hst hr₀ hd₀ halike h
  | start v f =>
    obtain rfl : v = u := hof
    rw [takeTurn, withUnit_eq s v _ x hx] at h
    cases h
    exact startTurn_advanced hx hwords hst hd₀ halike f
  | event v k =>
    obtain rfl : v = u := hof
    rw [takeTurn, withUnit_eq s v _ x hx] at h
    cases h
    exact (eventTurn_advanced hx hst hj₀ hr₀ k).noticed _
  | finish v =>
    obtain rfl : v = u := hof
    rw [takeTurn, withUnit_eq s v _ x hx] at h
    cases h
    exact finishTurn_advanced hx hst hj₀ hr₀
  | submit v => exact hof.elim
  | hostWrite a v => exact hof.elim
  | hostWriteStat v w => exact hof.elim
  | hostWriteRes v w => exact hof.elim
  | reset => exact hof.elim

end

end

end Sys2Proof.Machine
end

