-- ==== Sys2Proof/Proofs/AtomicRun.lean ====
section
/-! PROOFS. A command run alone event by event ends as the atomic command does (`EventRunEqualsAtomicRun`, O45). -/

namespace Sys2Proof.Machine

/-! ## Runs -/

/-- What every step from a state of which it holds keeps, and such a step goes on, holds after a run. -/
theorem run_next {P : State → Prop} (hstep : ∀ s, P s → ∃ t, step s = .next t ∧ P t) (k : Nat) {s : State} (hs : P s) :
    ∃ t, run k s = .next t ∧ P t := by
  induction k generalizing s with
  | zero => exact ⟨s, rfl, hs⟩
  | succ k ih =>
    obtain ⟨s', hs', hP⟩ := hstep s hs
    rw [run, hs']
    exact ih hP

theorem run_succ {s s' : State} (k : Nat) (h : step s = .next s') : run (k + 1) s = run k s' := by rw [run, h]

/-- The turns of an existing unit's own command never stop the machine (log entry 13). -/
theorem takeTurn_of_unit {s : State} {u : Nat} {x : UnitState} {e : Turn} (hx : s.units[u]? = some x) (hof : e.IsOf u) :
    ∃ t, takeTurn s e = .next t := by
  cases e with
  | exec v =>
    obtain rfl : v = u := hof
    obtain ⟨hnone, -⟩ | ⟨y, hy, ⟨-, h⟩ | ⟨-, -, ⟨_, -, h⟩ | ⟨i, -, h⟩⟩⟩ := execTurn_cases s v
    · rw [hx] at hnone; cases hnone
    · exact ⟨_, h⟩
    · exact ⟨_, h⟩
    · rw [exec_eq_perform i { s with active := v } y hy] at h
      exact ⟨_, h⟩
  | start v f =>
    obtain rfl : v = u := hof
    exact ⟨_, withUnit_eq s v _ x hx⟩
  | event v k =>
    obtain rfl : v = u := hof
    exact ⟨_, congrArg (noticed v s.mem) (withUnit_eq s v _ x hx)⟩
  | finish v =>
    obtain rfl : v = u := hof
    exact ⟨_, withUnit_eq s v _ x hx⟩
  | submit v => exact hof.elim
  | hostWrite a v => exact hof.elim
  | hostWriteStat v w => exact hof.elim
  | hostWriteRes v w => exact hof.elim
  | reset => exact hof.elim

theorem Turn.IsEventOf.isOf {e : Turn} {u : Nat} (h : e.IsEventOf u) : e.IsOf u := by
  cases e with
  | event v k => exact h
  | _ => exact h.elim

/-! ## Locks of units that stand outside a locked update -/

/-- With no lock held and no command in progress the lock table is sound. -/
theorem State.locksSound_of_no_job {s : State} (hlock : s.lock = []) (hjob : ∀ x ∈ s.units, x.job = none) :
    s.LocksSound := by
  refine ⟨by rw [hlock]; rfl, fun b u => ⟨fun h => ?_, ?_⟩, fun x hx j hj => ?_⟩
  · rw [hlock] at h; cases h
  · rintro ⟨x, hx, hb⟩
    rw [UnitState.holds_idle (hjob x (List.mem_of_getElem? hx))] at hb
    cases hb
  · rw [hjob x hx] at hj; cases hj

/-- In a sound table a running command is where its own discipline allows (R73, R74, R322). -/
theorem State.LocksSound.job_sound {s : State} {u : Nat} {x : UnitState} {j : Job} (h : s.LocksSound)
    (hx : s.units[u]? = some x) (hj : x.job = some j) : j.Sound := by
  obtain ⟨-, -, hjobs⟩ := h
  exact (hjobs x (List.mem_of_getElem? hx) j hj).2

/-- When no unit stands inside a locked update, no entry of a sound table is held (R73). -/
theorem State.LocksSound.holder_eq_none {s : State} (h : s.LocksSound) (hrest : ∀ x ∈ s.units, x.holds = none)
    (b : Nat) : s.lock.holder b = none := by
  obtain ⟨-, hheld, -⟩ := h
  rw [Option.eq_none_iff_forall_ne_some]
  intro u hu
  obtain ⟨x, hx, hb⟩ := (hheld b u).1 hu
  rw [hrest x (List.mem_of_getElem? hx)] at hb
  cases hb

/-- A lock table of which no entry is held is empty. -/
theorem LockTable.eq_nil_of_free {t : LockTable} (h : ∀ b, t.holder b = none) : t = [] := by
  cases t with
  | nil => rfl
  | cons e t =>
    obtain ⟨b, u⟩ := e
    have hb := h b
    rw [LockTable.holder, if_pos rfl] at hb
    cases hb

/-! ## One unit alone -/

/-- The system has one unit, submitted as `x₀` in state `s₀`, which nobody has interfered with. -/
structure Solo (s₀ : State) (x₀ : UnitState) (i : Instr) (s : State) : Prop where
  stage : ∃ x, s.units = [x] ∧ Stage s₀.memWords s₀.mem i x₀ s.mem x
  words : s.memWords = s₀.memWords
  outside : ∀ a b, b < 64 → ¬ InDest i a b → s.mem.bit a b = s₀.mem.bit a b
  canonical : s.MemCanonical
  locks : s.LocksSound

/-- Canonical memories that agree bit by bit are equal. -/
theorem Memory.eq_of_bit_eq {m m' : Memory} (h : m.wf = true) (h' : m'.wf = true)
    (hbit : ∀ a b, b < 64 → m.bit a b = m'.bit a b) : m = m' :=
  Memory.eq_of_readWord_eq m m' h h' fun a => BitVec.eq_of_getLsbD_eq fun b hb => hbit a b hb

section

variable {s₀ : State} {x₀ : UnitState} {i : Instr}

theorem eq_singleton_of_getElem? {l : List UnitState} {y : UnitState} (hlen : l.length = 1) (hy : l[0]? = some y) :
    l = [y] := by
  obtain ⟨z, rfl⟩ := List.length_eq_one_iff.1 hlen
  cases hy
  rfl

/-- A step of the unit's own command leaves it undisturbed. -/
theorem Solo.keeps {s : State} {e : Turn} {ts : List Turn} (h : Solo s₀ x₀ i s) (hwf : s₀.mem.wf = true)
    (hj₀ : x₀.job = none) (hr₀ : x₀.raced = false) (hd₀ : decode x₀.cur = .ok i) (hturns : s.turns = e :: ts)
    (hof : e.IsOf 0) : ∃ t, step s = .next t ∧ Solo s₀ x₀ i t ∧ t.turns = ts := by
  obtain ⟨⟨x, hunits, hst⟩, hwords, hout, hcanon, hlocks⟩ := h
  have hx : s.units[0]? = some x := by rw [hunits]; rfl
  obtain ⟨t, ht⟩ := takeTurn_of_unit (s := { s with turns := ts }) hx hof
  have hstep : step s = .next t := by rw [step_cons s e ts hturns, ht]
  have halike : x.busy = true → x.job = none →
      (planOf i s₀.memWords s.mem).masked = (planOf i s₀.memWords s₀.mem).masked := by
    intro hbusy hj
    obtain ⟨-, hin⟩ := hst.eq_submitted hbusy hj
    have hmem : s.mem = s₀.mem := Memory.eq_of_bit_eq hcanon hwf fun a b hb => by
      by_cases hd : InDest i a b
      · exact hin a b hb hd
      · exact hout a b hb hd
    rw [hmem]
  obtain ⟨⟨y, hy, hst'⟩, hframe⟩ :=
    takeTurn_advanced (s := { s with turns := ts }) hx hwords hst hj₀ hr₀ hd₀ halike hof ht
  obtain ⟨hwords', hsched, hlen⟩ := takeTurn_frame ht
  have hone : t.units.length = 1 := hlen.trans (congrArg List.length hunits)
  exact ⟨t, hstep, ⟨⟨y, eq_singleton_of_getElem? hone hy, hst'⟩, hwords'.trans hwords,
    fun a b hb hd => (hframe a b hb hd).trans (hout a b hb hd), stepKeepsMemoryCanonical s t hcanon hstep,
    stepKeepsLocksSound s t hlocks hstep⟩, hsched⟩

/-- A run of the unit's own turns goes on and leaves it undisturbed. -/
theorem Solo.run {s : State} (k : Nat) (h : Solo s₀ x₀ i s) (hwf : s₀.mem.wf = true) (hj₀ : x₀.job = none)
    (hr₀ : x₀.raced = false) (hd₀ : decode x₀.cur = .ok i) (hof : ∀ e ∈ s.turns, e.IsOf 0) :
    ∃ t, Machine.run k s = .next t ∧ Solo s₀ x₀ i t := by
  obtain ⟨t, ht, hsolo, -⟩ := run_next (P := fun s => Solo s₀ x₀ i s ∧ ∀ e ∈ s.turns, e.IsOf 0) (fun s hs => by
    obtain ⟨hsolo, hof⟩ := hs
    cases hturns : s.turns with
    | nil => exact ⟨s, step_nil s hturns, hsolo, hof⟩
    | cons e ts =>
      rw [hturns] at hof
      obtain ⟨he, hts⟩ := List.forall_mem_cons.1 hof
      obtain ⟨t, hstep, hsolo', rfl⟩ := hsolo.keeps hwf hj₀ hr₀ hd₀ hturns he
      exact ⟨t, hstep, hsolo', hts⟩) k ⟨h, hof⟩
  exact ⟨t, ht, hsolo⟩

/-- Once the unit is idle, the system is as the atomic command leaves it. -/
theorem Solo.outcome {s : State} {y : UnitState} (h : Solo s₀ x₀ i s) (hwf : s₀.mem.wf = true) (hb₀ : x₀.busy = true)
    (hy : s.units = [y]) (hidle : y.busy = false) :
    s.mem = memAlone i s₀.memWords s₀.mem ∧ y = (planOf i s₀.memWords s₀.mem).unitAfter x₀ ∧ s.lock = [] := by
  obtain ⟨⟨x, hunits, hst⟩, -, hout, hcanon, hlocks⟩ := h
  rw [hunits] at hy
  cases hy
  cases hst with
  | submitted => rw [hb₀] at hidle; cases hidle
  | running j hrun => rw [show UnitState.busy { x₀ with job := some j } = x₀.busy from rfl, hb₀] at hidle; cases hidle
  | completed hin =>
    refine ⟨Memory.eq_of_bit_eq hcanon (Plan.memAfter_wf hwf) fun a b hb => ?_, rfl,
      LockTable.eq_nil_of_free fun b => ?_⟩
    · by_cases hd : InDest i a b
      · exact hin a b hb hd
      · rw [hout a b hb hd, memAlone, Plan.memAfter_bit_outside _ hb hd]
    · refine hlocks.holder_eq_none (fun z hz => ?_) b
      rw [hunits, List.mem_singleton] at hz
      rw [hz, UnitState.holds_idle (Plan.unitAfter_job _ _)]

/-- The submitted unit, before its first turn. -/
theorem Solo.begin {s : State} (hunits : s.units = [x₀]) (hlock : s.lock = []) (hwf : s.mem.wf = true)
    (hj₀ : x₀.job = none) (ts : List Turn) : Solo s x₀ i { s with turns := ts } :=
  ⟨⟨x₀, hunits, .submitted fun _ _ _ _ => rfl⟩, rfl, fun _ _ _ _ => rfl, hwf,
    State.locksSound_of_no_job hlock fun x hx => by
      obtain rfl := List.mem_singleton.1 (hunits ▸ hx : x ∈ [x₀])
      exact hj₀⟩

end

/-! ## A run that completes -/

/-- How many events an update can still need: four when nothing of it is done, and `W` after an `R` without the lock (R73,
R74). -/
def Pending.eventsLeft : Pending → Nat
  | .waiting _ => 4
  | .fetched _ _ => 1

/-- How many events the locked update in flight still needs (R73). -/
def Flight.eventsLeft : Flight → Nat
  | .between => 0
  | .acquired _ => 3
  | .fetched _ _ => 2
  | .written => 1

/-- How many memory events a running command can still need. -/
def Job.eventsLeft (j : Job) : Nat := j.flight.eventsLeft + (j.todo.map Pending.eventsLeft).sum

/-- A command that needs no more events has made all its updates. -/
theorem Job.eventsLeft_eq_zero {j : Job} (h : j.eventsLeft = 0) : j.todo = [] ∧ j.flight = .between := by
  obtain ⟨p, todo, fl, f⟩ := j
  obtain ⟨hfl, htodo⟩ := Nat.add_eq_zero_iff.1 h
  constructor
  · cases todo with
    | nil => rfl
    | cons q qs => cases q <;> simp [Pending.eventsLeft] at htodo
  · cases fl <;> simp_all [Flight.eventsLeft]

section

variable {s : State} {u : Nat} {x : UnitState} {j : Job}

/-- The next memory event, taken of the first update when none is in flight, is progress, as long as the unit does not
find the lock held. -/
theorem workEvent_progress {w : Work} (hx : s.units[u]? = some x) (hj : x.job = some j)
    (hfree : j.flight = .between → s.lock.holder w.base = none) :
    ∃ j', (workEvent s u 0 x w j).units = s.units.set u { x with job := some j' } ∧ j'.foretold = j.foretold ∧
      j'.eventsLeft ≤ j.eventsLeft - 1 := by
  obtain ⟨p, todo, fl, f⟩ := j
  cases fl with
  | acquired d => exact ⟨_, rfl, rfl, by grind [Job.eventsLeft, Flight.eventsLeft, Pending.eventsLeft]⟩
  | fetched d old => exact ⟨_, rfl, rfl, by grind [Job.eventsLeft, Flight.eventsLeft, Pending.eventsLeft]⟩
  | written => exact ⟨_, rfl, rfl, by grind [Job.eventsLeft, Flight.eventsLeft, Pending.eventsLeft]⟩
  | between =>
    cases todo with
    | nil =>
      refine ⟨⟨p, [], .between, f⟩, ?_, rfl, Nat.le_refl 0⟩
      rw [← hj]
      exact congrArg State.units (State.setUnit_self s u x hx).symm
    | cons q qs =>
      cases q with
      | fetched d old =>
        exact ⟨⟨p, qs, .between, f⟩, rfl, rfl, by grind [Job.eventsLeft, Flight.eventsLeft, Pending.eventsLeft]⟩
      | waiting d =>
        cases hfull : d.full with
        | true =>
          refine ⟨⟨p, qs, .between, f⟩, ?_, rfl, by grind [Job.eventsLeft, Flight.eventsLeft, Pending.eventsLeft]⟩
          simp [workEvent, hfull, writeEvent]
        | false =>
          cases hns : w.ns with
          | true =>
            refine ⟨⟨p, .fetched d (s.mem.readWord d.addr) :: qs, .between, f⟩, ?_, rfl,
              by grind [Job.eventsLeft, Flight.eventsLeft, Pending.eventsLeft]⟩
            simp [workEvent, hfull, hns]
          | false =>
            refine ⟨⟨p, qs, .acquired d, f⟩, ?_, rfl,
              by grind [Job.eventsLeft, Flight.eventsLeft, Pending.eventsLeft]⟩
            rw [workEvent_acquire rfl (by rfl) hfull hns (hfree rfl)]
            rfl

theorem eventTurn_progress (hx : s.units[u]? = some x) (hj : x.job = some j) (hsound : j.Sound)
    (hfree : j.flight = .between → ∀ b, s.lock.holder b = none) :
    ∃ j', (eventTurn s u 0 x).units = s.units.set u { x with job := some j' } ∧ j'.foretold = j.foretold ∧
      j'.eventsLeft ≤ j.eventsLeft - 1 := by
  have hended : j.todo = [] ∧ j.flight = .between → eventTurn s u 0 x = s →
      ∃ j', (eventTurn s u 0 x).units = s.units.set u { x with job := some j' } ∧ j'.foretold = j.foretold ∧
        j'.eventsLeft ≤ j.eventsLeft - 1 := by
    rintro ⟨htodo, hfl⟩ h
    refine ⟨j, ?_, rfl, ?_⟩
    · rw [h, ← hj]
      exact congrArg State.units (State.setUnit_self s u x hx).symm
    · simp [Job.eventsLeft, htodo, hfl, Flight.eventsLeft]
  unfold Job.Sound at hsound
  split at hsound
  · next w hp =>
    rw [eventTurn_work 0 hj hp]
    exact workEvent_progress hx hj fun hfl => hfree hfl w.base
  · next e hp => exact hended hsound (by rw [eventTurn, hj]; dsimp only; rw [hp])
  · next r hp => exact hended hsound (by rw [eventTurn, hj]; dsimp only; rw [hp])

/-- The unit completes when every update is made and nothing is owed to it (R149). -/
theorem finishTurn_completes (hj : x.job = some j) (htodo : j.todo = []) (hfl : j.flight = .between)
    (howed : x.owed = false) : ∃ y, (finishTurn s u x).units = s.units.set u y ∧ y.busy = false := by
  cases hp : j.plan with
  | work w =>
    rw [finishTurn_work hj hp htodo hfl howed]
    exact ⟨_, rfl, done_busy _ _ _⟩
  | fail e =>
    refine ⟨x.raise e, ?_, raise_busy x e⟩
    rw [finishTurn, hj]
    simp [htodo, hfl, howed, hp]
  | early r =>
    refine ⟨x.done false r, ?_, done_busy x false r⟩
    rw [finishTurn, hj]
    simp [htodo, hfl, howed, hp]

end

/-- The rest of a schedule that gives unit 0 so many more events and then its completion. -/
def eventsThenFinish (k : Nat) : List Turn := List.replicate k (.event 0 0) ++ [.finish 0]

/-- One unit alone completes its running command when it is given as many events as it can need. -/
theorem run_events_completes (k : Nat) {s : State} {x : UnitState} {j : Job} (hunits : s.units = [x])
    (hlocks : s.LocksSound) (hj : x.job = some j) (hr : x.raced = false) (hfore : j.foretold = false)
    (hk : j.eventsLeft ≤ k) (hturns : s.turns = eventsThenFinish k) :
    ∃ t y, run (k + 1) s = .next t ∧ t.units = [y] ∧ y.busy = false := by
  induction k generalizing s x j with
  | zero =>
    have hx : s.units[0]? = some x := by rw [hunits]; rfl
    obtain ⟨htodo, hfl⟩ := Job.eventsLeft_eq_zero (Nat.le_zero.1 hk)
    obtain ⟨y, hy, hidle⟩ := finishTurn_completes (s := { s with turns := [] }) (u := 0) hj htodo hfl
      (by simp [UnitState.owed, hj, hfore])
    refine ⟨_, y, run_succ 0 (step_finish hturns hx), ?_, hidle⟩
    rw [hy, hunits]
    rfl
  | succ k ih =>
    have hx : s.units[0]? = some x := by rw [hunits]; rfl
    have hfree : j.flight = .between → ∀ b, s.lock.holder b = none := by
      refine fun hfl => hlocks.holder_eq_none fun z hz => ?_
      rw [hunits, List.mem_singleton] at hz
      rw [hz, UnitState.holds_between hj hfl]
    have hstep := step_event (ts := eventsThenFinish k) hturns hx
    obtain ⟨j', hu, hfore', hleft⟩ := eventTurn_progress (s := { s with turns := eventsThenFinish k }) hx hj
      (hlocks.job_sound hx hj) hfree
    rw [run_succ (k + 1) hstep]
    refine ih (x := { x with job := some j' }) (j := j') ?_ (stepKeepsLocksSound _ _ hlocks hstep) rfl hr
      (hfore'.trans hfore) (by omega) ?_
    · refine eq_singleton_of_getElem? ?_ ?_
      · rw [State.noticeAll_length, hu, List.length_set]
        exact congrArg List.length hunits
      · rw [State.noticeAll_get_self, hu]
        exact State.setUnit_get s 0 _ x hx
    · obtain ⟨-, hsched, -⟩ := (eventTurn_move (s := { s with turns := eventsThenFinish k }) 0 hx).frame
      exact hsched

theorem step_start {s : State} {u : Nat} {f : Bool} {ts : List Turn} {x : UnitState}
    (hturns : s.turns = .start u f :: ts) (hx : s.units[u]? = some x) :
    step s = .next (startTurn { s with turns := ts } u f x) := by
  rw [step_cons s _ ts hturns, takeTurn]
  exact withUnit_eq { s with turns := ts } u _ x hx

/-- A command that has just begun, of which no interference is foretold: nothing of it is done (R141). -/
def Job.fresh (p : Plan) : Job := ⟨p, p.todo, .between, false⟩

/-- A submitted command, of which no interference is foretold, begins with its plan and nothing of it done (R141). -/
theorem startTurn_begins {s : State} {u : Nat} {x : UnitState} (hbusy : x.busy = true) (hj : x.job = none) :
    startTurn s u false x = s.setUnit u { x with job := some (.fresh (planDesc x.cur s.memWords s.mem)) } := by
  obtain ⟨hno | hno, -⟩ | ⟨-, -, h⟩ := startTurn_cases s u false x
  · rw [hbusy] at hno; cases hno
  · exact absurd hj hno
  · exact h

/-- One unit alone has a run of memory events that completes its submitted command. -/
theorem run_alone_completes {s : State} {x : UnitState} (hunits : s.units = [x]) (hlock : s.lock = [])
    (hbusy : x.busy = true) (hj : x.job = none) (hr : x.raced = false) :
    ∃ k t y, run (k + 2) { s with turns := .start 0 false :: eventsThenFinish k } = .next t ∧
      t.units = [y] ∧ y.busy = false := by
  have hx : s.units[0]? = some x := by rw [hunits]; rfl
  have hlocks : ∀ ts, ({ s with turns := ts } : State).LocksSound := fun ts =>
    State.locksSound_of_no_job hlock fun z hz => by
      obtain rfl := List.mem_singleton.1 (hunits ▸ hz : z ∈ [x])
      exact hj
  obtain ⟨j, hfresh⟩ : ∃ j, j = Job.fresh (planDesc x.cur s.memWords s.mem) := ⟨_, rfl⟩
  have hstep : step { s with turns := .start 0 false :: eventsThenFinish j.eventsLeft } =
      .next ({ s with turns := eventsThenFinish j.eventsLeft }.setUnit 0 { x with job := some j }) := by
    rw [step_start (s := { s with turns := _ :: _ }) rfl hx, startTurn_begins hbusy hj, hfresh]
  refine ⟨j.eventsLeft, ?_⟩
  rw [run_succ _ hstep]
  exact run_events_completes j.eventsLeft (x := { x with job := some j }) (j := j) (by simp [hunits])
    (stepKeepsLocksSound _ _ (hlocks _) hstep) rfl hr (by rw [hfresh]; rfl) (Nat.le_refl _) rfl

/-- Settles O45: the unit stays undisturbed whatever the order of its events, so it can end only as it does alone; and
giving it every event it needs is a run that completes. -/
theorem eventRunEqualsAtomicRun : Obligations.EventRunEqualsAtomicRun := by
  intro s t x i hunits hactive hlock hwf hbusy hj hr hd hexec
  have hx : s.units[s.active]? = some x := by rw [hactive, hunits]; rfl
  rw [exec_undisturbed i hx hr hlock] at hexec
  cases hexec
  constructor
  · intro f evs hevs
    have hof : ∀ e ∈ (.start 0 f :: evs ++ [.finish 0] : List Turn), e.IsOf 0 := by
      intro e he
      simp only [List.cons_append, List.mem_cons, List.mem_append, List.not_mem_nil, or_false] at he
      obtain rfl | he | rfl := he
      · rfl
      · exact (hevs e he).isOf
      · rfl
    obtain ⟨t', hrun, hsolo⟩ := (Solo.begin (i := i) hunits hlock hwf hj _).run (evs.length + 2) hwf hj hr hd hof
    obtain ⟨y, hy, -⟩ := hsolo.stage
    refine ⟨t', y, hrun, hy, fun hidle => ?_⟩
    obtain ⟨hmem, rfl, hlock'⟩ := hsolo.outcome hwf hbusy hy hidle
    refine ⟨hmem, ?_, hlock'.trans hlock.symm⟩
    rw [hy, State.setUnit_units, hactive, hunits]
    rfl
  · obtain ⟨k, t', y, hrun, hy, hidle⟩ := run_alone_completes hunits hlock hbusy hj hr
    refine ⟨List.replicate k (.event 0 0), fun e he => ?_, t', y, ?_, hy, hidle⟩
    · rw [List.eq_of_mem_replicate he]
      rfl
    · rw [List.length_replicate]
      exact hrun

end Sys2Proof.Machine
end

