-- ==== Sys2Proof/Proofs/PlanReads.lean ====
section
/-! PROOFS. What the plan of a command that writes rests on: the windows deliver source bits (R153, R271), so two memories that
agree on the command's source and destination ranges give plans that do the same. -/

namespace Sys2Proof.Machine

/-! ## The windows, bit by bit -/

/-- A word of a buffer as the barrel shifter reads it (R153). -/
theorem sourceWord_inside (m : Memory) (b : Buf) {j : Int} {k : Nat} (hj : j = k) (hk : k < b.len.toNat) :
    sourceWord m b j = m.readWord (b.base.toNat + k) := by
  subst hj
  rw [sourceWord, if_pos ⟨Int.natCast_nonneg k, Int.ofNat_lt.2 hk⟩, Int.toNat_natCast]

/-- `win(w)` delivers to each destination bit of a range its source bit (R153). -/
theorem getLsbD_window (m : Memory) {b : Buf} {apos bpos n w k : Nat} (hb : b.Holds bpos n) (hk : k < 64)
    (hlo : apos ≤ 64 * w + k) (hhi : 64 * w + k < apos + n) :
    (window m b apos bpos w).getLsbD k = m.bufBit b.base.toNat (bpos + (64 * w + k - apos)) := by
  unfold Buf.Holds at hb
  obtain ⟨p, hp⟩ : ∃ p, p = bpos + (64 * w + k - apos) := ⟨_, rfl⟩
  obtain ⟨sh, hsh⟩ : ∃ sh, sh = (((bpos : Int) - apos) % 64).toNat := ⟨_, rfl⟩
  rw [← hp, bufBit_eq, Memory.bit, window]
  rw [← hsh]
  by_cases hcross : sh + k < 64
  · have hlow : sourceWord m b ((w : Int) + ((bpos : Int) - apos) / 64) = m.readWord (b.base.toNat + p / 64) :=
      sourceWord_inside m b (by omega) (by omega)
    have hpos : p % 64 = sh + k := by omega
    rw [hlow, hpos]
    split
    · next hz => rw [hz, Nat.zero_add]
    · next hz =>
      have hk' : k < 64 - sh := by omega
      rw [BitVec.getLsbD_or, BitVec.getLsbD_ushiftRight, BitVec.getLsbD_shiftLeft]
      simp [hk']
  · have hhigh : sourceWord m b ((w : Int) + ((bpos : Int) - apos) / 64 + 1) = m.readWord (b.base.toNat + p / 64) :=
      sourceWord_inside m b (by omega) (by omega)
    have hpos : p % 64 = k - (64 - sh) := by omega
    have hk' : ¬ k < 64 - sh := by omega
    rw [if_neg (by omega), hhigh, hpos, BitVec.getLsbD_or, BitVec.getLsbD_ushiftRight, BitVec.getLsbD_shiftLeft,
      BitVec.getLsbD_of_ge _ (sh + k) (by omega)]
    simp [hk, hk']

/-- `rwin(w)` delivers to each destination bit of a range its source bit, counted from the other end (R271). -/
theorem getLsbD_revWindow (m : Memory) {b : Buf} {apos bpos n w k : Nat} (hb : b.Holds bpos n) (hk : k < 64)
    (hlo : apos ≤ 64 * w + k) (hhi : 64 * w + k < apos + n) :
    (revWindow m b apos bpos n w).getLsbD k = m.bufBit b.base.toNat (bpos + n - 1 + apos - 64 * w - k) := by
  unfold Buf.Holds at hb
  obtain ⟨u, hu⟩ : ∃ u, u = bpos + n - 1 + apos - 64 * w := ⟨_, rfl⟩
  rw [bufBit_eq, Memory.bit, revWindow]
  rw [← hu, BitVec.getLsbD_or, BitVec.getLsbD_ushiftRight, getLsbD_rev64]
  by_cases hlow : k ≤ u % 64
  · have hword : sourceWord m b ((u / 64 : Nat) : Int) = m.readWord (b.base.toNat + (u - k) / 64) :=
      sourceWord_inside m b (by omega) (by omega)
    have hpos : 63 - (63 - u % 64 + k) = (u - k) % 64 := by omega
    have hin : 63 - u % 64 + k < 64 := by omega
    have hright : (if u % 64 = 63 then (0 : Word)
        else rev64 (sourceWord m b (((u / 64 : Nat) : Int) - 1)) <<< (u % 64 + 1)).getLsbD k = false := by
      split
      · simp
      · rw [BitVec.getLsbD_shiftLeft, decide_eq_true (show k < u % 64 + 1 by omega)]
        simp
    rw [hword, hpos, hright, decide_eq_true hin, Bool.true_and, Bool.or_false]
  · have hword : sourceWord m b (((u / 64 : Nat) : Int) - 1) = m.readWord (b.base.toNat + (u - k) / 64) :=
      sourceWord_inside m b (by omega) (by omega)
    have hpos : 63 - (k - (u % 64 + 1)) = (u - k) % 64 := by omega
    have hin : k - (u % 64 + 1) < 64 := by omega
    have hsh : ¬ k < u % 64 + 1 := by omega
    have hleft : ¬ 63 - u % 64 + k < 64 := by omega
    rw [if_neg (by omega), BitVec.getLsbD_shiftLeft, getLsbD_rev64, hword, hpos, decide_eq_true hk, decide_eq_false hsh,
      decide_eq_false hleft, decide_eq_true hin]
    simp

/-! ## Memories that agree on a range -/

/-- The memories agree on every bit of the range. -/
def AgreeOn (m m' : Memory) (base pos n : Nat) : Prop :=
  ∀ a b, b < 64 → InRange base pos n a b → m.bit a b = m'.bit a b

namespace AgreeOn

variable {m m' : Memory} {base pos n : Nat}

theorem bufBit (h : AgreeOn m m' base pos n) {p : Nat} (hlo : pos ≤ p) (hhi : p < pos + n) :
    m.bufBit base p = m'.bufBit base p :=
  h _ _ (Nat.mod_lt _ (by omega)) (by unfold InRange; omega)

theorem getLsbD_readWord (h : AgreeOn m m' base pos n) {w b : Nat} (hb : b < 64) (hlo : pos ≤ 64 * w + b)
    (hhi : 64 * w + b < pos + n) : (m.readWord (base + w)).getLsbD b = (m'.readWord (base + w)).getLsbD b :=
  h (base + w) b hb (by unfold InRange; omega)

variable {s : Buf} {apos bpos w b : Nat} (h : AgreeOn m m' s.base.toNat bpos n) (hs : s.Holds bpos n) (hb : b < 64)
  (hlo : apos ≤ 64 * w + b) (hhi : 64 * w + b < apos + n)

include h hs hb hlo hhi

theorem window : (window m s apos bpos w).getLsbD b = (Machine.window m' s apos bpos w).getLsbD b := by
  rw [getLsbD_window m hs hb hlo hhi, getLsbD_window m' hs hb hlo hhi]
  exact h.bufBit (by omega) (by omega)

theorem revWindow :
    (revWindow m s apos bpos n w).getLsbD b = (Machine.revWindow m' s apos bpos n w).getLsbD b := by
  rw [getLsbD_revWindow m hs hb hlo hhi, getLsbD_revWindow m' hs hb hlo hhi]
  exact h.bufBit (by omega) (by omega)

end AgreeOn

/-! ## Plans on memories that agree -/

/-- Updates of a range whose values agree on the range's bits have one masked form. -/
theorem rangeUpdates_masked_congr {m m' : Memory} {base pos n : Nat} {v v' : Nat → Word → Word}
    (hv : ∀ w b, b < 64 → pos ≤ 64 * w + b → 64 * w + b < pos + n →
      (v w (m.readWord (base + w))).getLsbD b = (v' w (m'.readWord (base + w))).getLsbD b) :
    (rangeUpdates m base pos n v).map Upd.masked = (rangeUpdates m' base pos n v').map Upd.masked := by
  rw [rangeUpdates, rangeUpdates, List.map_map, List.map_map]
  refine List.map_congr_left fun w _ => ?_
  simp only [Function.comp_apply, Upd.masked, Upd.mk.injEq, true_and]
  refine BitVec.eq_of_getLsbD_eq fun b hb => ?_
  rw [BitVec.getLsbD_and, BitVec.getLsbD_and, getLsbD_wordMask]
  by_cases hin : b < 64 ∧ pos ≤ 64 * w + b ∧ 64 * w + b < pos + n
  · rw [hv w b hb hin.2.1 hin.2.2]
  · rw [decide_eq_false hin, Bool.and_false, Bool.and_false]

/-- Two works behind the same checks give plans of one masked form when the works that execute do. -/
theorem checkSequence_masked_congr {bad bus rng al ns ovl : Bool} {empty : Option Word} {a : Buf} {us us' : List Upd}
    (h : rng = false → us.map Upd.masked = us'.map Upd.masked) :
    (checkSequence bad empty bus rng al (fun _ => writing ns ovl a us)).masked =
      (checkSequence bad empty bus rng al (fun _ => writing ns ovl a us')).masked := by
  cases bad with
  | true => rfl
  | false =>
    cases empty with
    | some r => rfl
    | none =>
      cases bus with
      | true => rfl
      | false =>
        cases rng with
        | true => rfl
        | false =>
          cases al with
          | true => rfl
          | false => simp [checkSequence, Plan.masked, writing, h rfl]

section

variable {n : Nat} {m m' : Memory} {ns : Bool} {a b : Buf} {apos bpos cnt : Word}

/-- `NOT` and `FILL` read their destination range alone (R241, R247). -/
theorem planUnary_masked_congr {v : Word → Word}
    (hv : ∀ r r' : Word, ∀ c, c < 64 → r.getLsbD c = r'.getLsbD c → (v r).getLsbD c = (v r').getLsbD c)
    (hd : AgreeOn m m' a.base.toNat apos.toNat cnt.toNat) :
    (planUnary v ns a apos cnt n m).masked = (planUnary v ns a apos cnt n m').masked :=
  checkSequence_masked_congr fun _ => rangeUpdates_masked_congr fun _ c hc hlo hhi =>
    hv _ _ c hc (hd.getLsbD_readWord hc hlo hhi)

/-- The binary logical commands read both ranges (R240). -/
theorem planBinary_masked_congr {op : Word → Word → Word}
    (hop : ∀ r r' x x' : Word, ∀ c, c < 64 → r.getLsbD c = r'.getLsbD c → x.getLsbD c = x'.getLsbD c →
      (op r x).getLsbD c = (op r' x').getLsbD c)
    (hd : AgreeOn m m' a.base.toNat apos.toNat cnt.toNat) (hs : AgreeOn m m' b.base.toNat bpos.toNat cnt.toNat) :
    (planBinary op ns a apos b bpos cnt n m).masked = (planBinary op ns a apos b bpos cnt n m').masked :=
  checkSequence_masked_congr fun hrng => rangeUpdates_masked_congr fun _ c hc hlo hhi =>
    hop _ _ _ _ c hc (hd.getLsbD_readWord hc hlo hhi)
      (hs.window ((offBuffer2_eq_false ..).1 hrng).2 hc hlo hhi)

/-- `COPY` reads its source range (R220). -/
theorem planCopy_masked_congr (hs : AgreeOn m m' b.base.toNat bpos.toNat cnt.toNat) :
    (planCopy ns a apos b bpos cnt n m).masked = (planCopy ns a apos b bpos cnt n m').masked :=
  checkSequence_masked_congr fun hrng => rangeUpdates_masked_congr fun _ _ hc hlo hhi =>
    hs.window ((offBuffer2_eq_false ..).1 hrng).2 hc hlo hhi

/-- `REV` reads its source range (R270). -/
theorem planRev_masked_congr (hs : AgreeOn m m' b.base.toNat bpos.toNat cnt.toNat) :
    (planRev ns a apos b bpos cnt n m).masked = (planRev ns a apos b bpos cnt n m').masked :=
  checkSequence_masked_congr fun hrng => rangeUpdates_masked_congr fun _ _ hc hlo hhi =>
    hs.revWindow ((offBuffer2_eq_false ..).1 hrng).2 hc hlo hhi

end

/-- A command that writes does the same on memories that agree on its source and destination ranges (R78). -/
theorem planOf_masked_congr {i : Instr} {n : Nat} {m m' : Memory} (hwrites : destRange i ≠ none)
    (h : ∀ a b, b < 64 → InSource i a b ∨ InDest i a b → m.bit a b = m'.bit a b) :
    (planOf i n m).masked = (planOf i n m').masked := by
  have hdest : ∀ {base pos k}, destRange i = some (base, pos, k) → AgreeOn m m' base pos k :=
    fun hd a b hb hin => h a b hb (.inr ⟨_, _, _, hd, hin⟩)
  have hsource : ∀ {base pos k}, (base, pos, k) ∈ sourceRanges i → AgreeOn m m' base pos k :=
    fun hr a b hb hin => h a b hb (.inl ⟨_, hr, hin⟩)
  cases i
  case plen | ulen | getbit | getbits | iszero | indexof | lastindexof | card | eqb => exact absurd rfl hwrites
  case setbit | setbits => rfl
  case copy => exact planCopy_masked_congr (hsource (List.mem_singleton_self _))
  case rev => exact planRev_masked_congr (hsource (List.mem_singleton_self _))
  case notb =>
    exact planUnary_masked_congr (fun r r' c hc he => by simp [he]) (hdest rfl)
  case fill => exact planUnary_masked_congr (fun _ _ _ _ _ => rfl) (hdest rfl)
  case andb | orb | xorb | andnot | ornot =>
    simp only [planOf, planAnd, planOr, planXor, planAndnot, planOrnot]
    exact planBinary_masked_congr (fun r r' x x' c hc hr hx => by simp [hr, hx]) (hdest rfl)
      (hsource (List.mem_singleton_self _))

/-! ## The lock discipline of a command -/

/-- The header flag `NS` of a command, for one that writes; a read-only command makes no update (R101, R76). -/
def lockFree : Instr → Bool
  | .setbit ns _ _ _ => ns
  | .setbits ns _ _ _ _ => ns
  | .copy ns _ _ _ _ _ => ns
  | .notb ns _ _ _ => ns
  | .andb ns _ _ _ _ _ => ns
  | .orb ns _ _ _ _ _ => ns
  | .xorb ns _ _ _ _ _ => ns
  | .andnot ns _ _ _ _ _ => ns
  | .ornot ns _ _ _ _ _ => ns
  | .fill ns _ _ _ _ => ns
  | .rev ns _ _ _ _ _ => ns
  | _ => true

theorem checkSequence_writing_ns {bad bus rng al ns ovl : Bool} {empty : Option Word} {a : Buf} {us : List Upd}
    {w : Work} (h : checkSequence bad empty bus rng al (fun _ => writing ns ovl a us) = .work w) : w.ns = ns := by
  obtain ⟨-, -, -, -, -, rfl⟩ := (checkSequence_eq_work ..).1 h
  rfl

/-- The work of a command that writes is of the form its flag says (R73, R74). -/
theorem planOf_ns {i : Instr} {n : Nat} {m : Memory} {w : Work} (h : planOf i n m = .work w)
    (hwrites : destRange i ≠ none) : w.ns = lockFree i := by
  cases i
  case plen | ulen | getbit | getbits | iszero | indexof | lastindexof | card | eqb => exact absurd rfl hwrites
  case setbit | setbits | copy | notb | andb | orb | xorb | andnot | ornot | fill | rev =>
    simp only [planOf, planSetbit, planSetbits, planCopy, planNot, planFill, planUnary, planAnd, planOr, planXor,
      planAndnot, planOrnot, planBinary, planRev] at h
    exact checkSequence_writing_ns h

/-- The flag of a decoded command that writes is header bit `NS` (R101). -/
theorem lockFree_of_decode {d : Desc} {i : Instr} (h : decode d = .ok i) (hwrites : destRange i ≠ none) :
    lockFree i = d.ns := by
  unfold decode at h
  split at h
  · next r _ =>
    cases h
    cases hop : r.op <;> rw [hop] at hwrites
    case plen | ulen | getbit | getbits | iszero | indexof | lastindexof | card | eqb => exact absurd rfl hwrites
    case setbit | setbits | copy | notb | andb | orb | xorb | andnot | ornot | fill | rev => rfl
  · cases h

end Sys2Proof.Machine
end

