-- ==== Sys2Proof/Proofs/SharedBuffer.lean ====
section
/-! PROOFS. The sharing guarantee (R81): locked commands of several units on disjoint ranges of one buffer leave each other
undisturbed under any schedule (`LockedCommandsAllTakeEffect`, O46). -/

namespace Sys2Proof.Machine

/-! ## Turns of a unit's own command -/

theorem Turn.IsOf.unique {e : Turn} {u v : Nat} (h : e.IsOf u) (h' : e.IsOf v) : u = v := by
  cases e with
  | exec w | start w f | event w k | finish w => exact h.symm.trans h'
  | _ => exact h.elim

/-- A turn of a unit's own command is of the unit's turn kinds: no submission and no reset. -/
theorem Turn.IsOf.ne_reset {e : Turn} {u : Nat} (h : e.IsOf u) : e ≠ .reset := by
  rintro rfl; exact h

theorem Turn.IsOf.ne_submit {e : Turn} {u v : Nat} (h : e.IsOf u) : e ≠ .submit v := by
  rintro rfl; exact h

/-- A turn that goes on is of a unit that exists (R329). -/
theorem unit_of_takeTurn {s t : State} {u : Nat} {e : Turn} (hof : e.IsOf u) (h : takeTurn s e = .next t) :
    ∃ x, s.units[u]? = some x := by
  cases e with
  | exec v =>
    obtain rfl : v = u := hof
    obtain ⟨-, hf⟩ | ⟨x, hx, -⟩ := execTurn_cases s v
    · rw [takeTurn, hf] at h; cases h
    · exact ⟨x, hx⟩
  | start v f =>
    obtain rfl : v = u := hof
    obtain ⟨x, hx, -⟩ := withUnit_next _ _ _ _ h
    exact ⟨x, hx⟩
  | event v k =>
    obtain rfl : v = u := hof
    obtain ⟨t', ht', -⟩ := noticed_next _ _ _ _ h
    obtain ⟨x, hx, -⟩ := withUnit_next _ _ _ _ ht'
    exact ⟨x, hx⟩
  | finish v =>
    obtain rfl : v = u := hof
    obtain ⟨x, hx, -⟩ := withUnit_next _ _ _ _ h
    exact ⟨x, hx⟩
  | _ => exact hof.elim

/-- What every step keeps holds after a run. -/
theorem run_keeps {P : State → Prop} (hstep : ∀ s t, P s → step s = .next t → P t) (k : Nat) {s t : State} (hs : P s)
    (h : run k s = .next t) : P t := by
  induction k generalizing s with
  | zero => cases h; exact hs
  | succ k ih =>
    rw [run] at h
    split at h
    · next s' hs' => exact ih (hstep s s' hs hs') h
    · cases h
    · cases h

/-! ## What a held lock keeps out -/

/-- The command updates partial words only under the lock of the buffer at `base` (R73). -/
def LocksAt (i : Instr) (base : Nat) : Prop := ∀ n m w, planOf i n m = .work w → w.ns = false ∧ w.base = base

theorem locksAt_of_decode {d : Desc} {i : Instr} {base pos k : Nat} (hd : decode d = .ok i) (hns : d.ns = false)
    (hdest : destRange i = some (base, pos, k)) : LocksAt i base := by
  have hwrites : destRange i ≠ none := by rw [hdest]; nofun
  intro n m w hp
  exact ⟨(planOf_ns hp hwrites).trans ((lockFree_of_decode hd hwrites).trans hns), (planOf_writesRange hp hdest).1⟩

section

variable {s t : State} {u v base n : Nat} {m₀ : Memory} {i : Instr} {x₀ x : UnitState} {a b : Nat}

/-- Only work reads memory (R322). -/
theorem Job.HasRead.work {j : Job} {d : Upd} {old : Word} (h : j.HasRead d old) (hsound : j.Sound) :
    ∃ w, j.plan = .work w := by
  have hended : ¬ (j.todo = [] ∧ j.flight = .between) := by
    rintro ⟨htodo, hfl⟩
    simp [Job.HasRead, htodo, hfl] at h
  cases hp : j.plan with
  | work w => exact ⟨w, rfl⟩
  | fail e => rw [Job.Sound, hp] at hsound; exact absurd hsound hended
  | early r => rw [Job.Sound, hp] at hsound; exact absurd hsound hended

/-- What a unit of the locked form has read and not written yet it has read under the lock, which it still holds (R73). -/
theorem inFlight_of_hasRead {j : Job} {w : Work} {d : Upd} {old : Word} (hns : w.ns = false) (hp : j.plan = .work w)
    (hsound : j.Sound) (hread : j.HasRead d old) : j.flight = .fetched d old := by
  obtain hm | hf := hread
  · obtain ⟨-, hfree⟩ := (Job.sound_work hp).1 hsound
    rw [hfree d old hm] at hns
    cases hns
  · exact hf

/-- A memory event of a locked command, while another unit holds the lock, changes only words that lie in its destination
range as a whole: it can write no partial word then (R73, R75). -/
theorem eventTurn_changes_whole_words (k : Nat) (hx : s.units[u]? = some x) (hlocks : s.LocksSound)
    (hst : Stage n m₀ i x₀ s.mem x) (hj₀ : x₀.job = none) (hlocked : LocksAt i base) (hne : v ≠ u)
    (hheld : s.lock.holder base = some v) (hchange : (eventTurn s u k x).mem.bit a b ≠ s.mem.bit a b) {c : Nat}
    (hc : c < 64) : InDest i a c := by
  obtain h | ⟨j, w, hj, hp, h⟩ := eventTurn_cases s u k x
  · rw [h] at hchange; exact absurd rfl hchange
  rw [h] at hchange
  obtain ⟨-, ⟨m', hplan⟩, -, hown, -, -⟩ := hst.eq_running hj₀ hj
  have hpi : planOf i n m' = .work w := hplan ▸ hp
  obtain ⟨hns, hbase⟩ := hlocked _ _ _ hpi
  have heff := workEvent_effect k w hx hj
  generalize workEvent s u k x w j = t at heff hchange
  cases heff with
  | quiet j' hmem => rw [hmem] at hchange; exact absurd rfl hchange
  | write j' d val hmem hunits hplan' hfore hpend hread hvalue =>
    have hd : d ∈ w.todo := (hown w hp).1 d (hpend.subset List.mem_cons_self)
    have ha : a = d.addr := by
      by_contra hno
      rw [hmem, Memory.bit_writeWord, if_neg hno] at hchange
      exact hchange rfl
    subst ha
    obtain ⟨hfull, -⟩ | ⟨old, hread', -⟩ := hvalue
    · exact planOf_inDest_of_full hpi hd hfull hc
    · have hfl := inFlight_of_hasRead hns hp (hlocks.job_sound hx hj) hread'
      have hholds : x.holds = some base := hbase ▸ UnitState.holds_inFlight hj hp (by simp [hfl])
      rw [(hlocks.holder_iff hx base).2 hholds] at hheld
      exact absurd (Option.some.inj hheld).symm hne

/-- The same of the whole command as one step: it waits when it has a partial word to update (R72, R75). -/
theorem perform_changes_whole_words (x : UnitState) (hlocked : LocksAt i base) (hheld : s.lock.holder base = some v)
    (hb : b < 64) (hchange : (s.perform x (planOf i s.memWords s.mem)).mem.bit a b ≠ s.mem.bit a b) {c : Nat}
    (hc : c < 64) : InDest i a c := by
  have hin : InDest i a b := by
    by_contra hout
    exact hchange (perform_bit_outside x hb hout)
  cases hp : planOf i s.memWords s.mem with
  | fail e => rw [hp] at hchange; exact absurd rfl hchange
  | early r => rw [hp] at hchange; exact absurd rfl hchange
  | work w =>
    obtain ⟨hns, hbase⟩ := hlocked _ _ _ hp
    obtain ⟨d, hd, rfl⟩ := List.mem_map.1 ((planOf_mem_addr_iff hp a).2 ⟨b, hb, hin⟩)
    have hfull : d.full = true := by
      by_contra hpart
      have hwait : w.mustWait s.lock = true :=
        (mustWait_iff w s.lock).2 ⟨hns, ⟨d, hd, by simpa using hpart⟩, by rw [hbase, hheld]; nofun⟩
      rw [hp, perform_wait s x w hwait] at hchange
      exact hchange rfl
    exact planOf_inDest_of_full hp hd hfull hc

/-- While another unit holds the lock of the buffer, no turn of a locked command changes a word that does not lie in the
command's destination range as a whole (R73, R75). -/
theorem takeTurn_changes_whole_words {e : Turn} (hx : s.units[u]? = some x) (hof : e.IsOf u) (hlocks : s.LocksSound)
    (hst : Stage n m₀ i x₀ s.mem x) (hj₀ : x₀.job = none) (hd₀ : decode x₀.cur = .ok i) (hlocked : LocksAt i base)
    (hne : v ≠ u) (hheld : s.lock.holder base = some v) (h : takeTurn s e = .next t) (hb : b < 64)
    (hchange : t.mem.bit a b ≠ s.mem.bit a b) {c : Nat} (hc : c < 64) : InDest i a c := by
  cases e with
  | exec w =>
    obtain rfl : w = u := hof
    obtain ⟨hnone, -⟩ | ⟨y, hy, ⟨-, heq⟩ | ⟨hbusy, hj, ⟨r, -, heq⟩ | ⟨i', hd, heq⟩⟩⟩ := execTurn_cases s w
    · rw [hx] at hnone; cases hnone
    · rw [takeTurn, heq] at h
      cases h
      exact absurd rfl hchange
    · rw [takeTurn, heq] at h
      cases h
      exact absurd rfl hchange
    · rw [hx] at hy
      cases hy
      obtain ⟨rfl, -⟩ := hst.eq_submitted hbusy hj
      rw [hd₀] at hd
      cases hd
      rw [takeTurn, heq, exec_eq_perform i { s with active := w } x hx] at h
      cases h
      exact perform_changes_whole_words (s := { s with active := w }) x hlocked hheld hb hchange hc
  | start w f =>
    obtain rfl : w = u := hof
    rw [takeTurn, withUnit_eq s w _ x hx] at h
    cases h
    rw [(startTurn_sameButUnit f hx).mem] at hchange
    exact absurd rfl hchange
  | event w k =>
    obtain rfl : w = u := hof
    rw [takeTurn, withUnit_eq s w _ x hx] at h
    cases h
    exact eventTurn_changes_whole_words k hx hlocks hst hj₀ hlocked hne hheld hchange hc
  | finish w =>
    obtain rfl : w = u := hof
    rw [takeTurn, withUnit_eq s w _ x hx] at h
    cases h
    rw [(finishTurn_sameButUnit hx).mem] at hchange
    exact absurd rfl hchange
  | _ => exact hof.elim

theorem Stage.cur {m : Memory} (h : Stage n m₀ i x₀ m x) : x.cur = x₀.cur := by
  cases h with
  | submitted => rfl
  | running => rfl
  | completed => exact Plan.unitAfter_cur _ _

/-- A unit's place in its command is untouched when memory changes neither in its destination range nor in the words it has
read and not written yet. -/
theorem Stage.of_other {m m' : Memory} (h : Stage n m₀ i x₀ m x)
    (hdest : ∀ a b, b < 64 → InDest i a b → m'.bit a b = m.bit a b)
    (hread : ∀ j d old, x.job = some j → Running n m₀ i m j → j.HasRead d old → ∀ b, b < 64 →
      m'.bit d.addr b = m.bit d.addr b) : Stage n m₀ i x₀ m' x := by
  cases h with
  | submitted hmem => exact .submitted fun a b hb hin => (hdest a b hb hin).trans (hmem a b hb hin)
  | running j hrun =>
    have hkept := hread j
    obtain ⟨hplan, halike, hown, hcurrent, hwritten⟩ := hrun
    refine .running j ⟨hplan, halike, hown, fun d old hr b hb hout => ?_, fun hf a b hb hin => ?_⟩
    · rw [hkept d old rfl ⟨hplan, halike, hown, hcurrent, hwritten⟩ hr b hb]
      exact hcurrent d old hr b hb hout
    · rw [hdest a b hb hin]
      exact hwritten hf a b hb hin
  | completed hmem => exact .completed fun a b hb hin => (hdest a b hb hin).trans (hmem a b hb hin)

end

/-! ## Several units -/

/-- The premises of R81: every unit has been submitted a writing command with `NS = 0` on the buffer at `base`, and no
command's destination range meets another's ranges. -/
structure Sharing (s : State) (base : Nat) (cmds : List Instr) : Prop where
  length : s.units.length = cmds.length
  submitted : ∀ (u : Nat) (x : UnitState) (i : Instr), s.units[u]? = some x → cmds[u]? = some i →
    x.busy = true ∧ x.job = none ∧ x.raced = false ∧ decode x.cur = .ok i ∧ x.cur.ns = false ∧
    ∃ pos n, destRange i = some (base, pos, n)
  apart : ∀ (u v : Nat) (i k : Instr), u ≠ v → cmds[u]? = some i → cmds[v]? = some k →
    ∀ a b, b < 64 → InDest i a b → ¬ InDest k a b ∧ ¬ InSource k a b

/-- Every unit submitted in `s₀` stands where it can stand alone, and nothing else of memory has changed. -/
structure Undisturbed (s₀ : State) (cmds : List Instr) (s : State) : Prop where
  length : s.units.length = cmds.length
  words : s.memWords = s₀.memWords
  locks : s.LocksSound
  stage : ∀ (u : Nat) (x : UnitState) (i : Instr), s.units[u]? = some x → cmds[u]? = some i →
    ∃ x₀, s₀.units[u]? = some x₀ ∧ Stage s₀.memWords s₀.mem i x₀ s.mem x
  outside : ∀ a b, b < 64 → (∀ i ∈ cmds, ¬ InDest i a b) → s.mem.bit a b = s₀.mem.bit a b

section

variable {s₀ s t : State} {base u v : Nat} {cmds : List Instr} {i k : Instr} {x x₀ : UnitState}

theorem exists_getElem?_of_length {α β : Type} {l : List α} {l' : List β} (hlen : l.length = l'.length) {u : Nat} {x : α}
    (hx : l[u]? = some x) : ∃ y, l'[u]? = some y := by
  obtain ⟨hu, -⟩ := List.getElem?_eq_some_iff.1 hx
  exact ⟨_, List.getElem?_eq_getElem (hlen ▸ hu)⟩

/-- A source bit of one command is in no other command's destination range, so it is as at the beginning as long as the
command itself has written nothing. -/
theorem Undisturbed.plan_masked (h : Undisturbed s₀ cmds s) (hset : Sharing s₀ base cmds) (hi : cmds[u]? = some i)
    (hwrites : destRange i ≠ none) (hdest : ∀ a b, b < 64 → InDest i a b → s.mem.bit a b = s₀.mem.bit a b) :
    (planOf i s₀.memWords s.mem).masked = (planOf i s₀.memWords s₀.mem).masked := by
  refine planOf_masked_congr hwrites fun a b hb hin => ?_
  by_cases hown : InDest i a b
  · exact hdest a b hb hown
  refine h.outside a b hb fun k hk hother => ?_
  obtain ⟨v, hv⟩ := List.mem_iff_getElem?.1 hk
  by_cases huv : v = u
  · subst huv
    rw [hi] at hv
    cases hv
    exact hown hother
  · obtain ⟨-, hnot⟩ := hset.apart v u k i huv hv hi a b hb hother
    exact hnot (hin.resolve_right hown)

/-- A turn of one unit's command leaves another unit as it was, where it was (R81). -/
theorem Undisturbed.other_stage (h : Undisturbed s₀ cmds s) (hset : Sharing s₀ base cmds) (hx : s.units[u]? = some x)
    (hi : cmds[u]? = some i) {e : Turn} (hof : e.IsOf u) (ht : takeTurn s e = .next t)
    (hframe : ∀ a b, b < 64 → ¬ InDest i a b → t.mem.bit a b = s.mem.bit a b) (hne : v ≠ u) {z : UnitState}
    (hz : s.units[v]? = some z) (hk : cmds[v]? = some k) :
    t.units[v]? = some z ∧ ∃ z₀, s₀.units[v]? = some z₀ ∧ Stage s₀.memWords s₀.mem k z₀ t.mem z := by
  obtain ⟨x₀, hx₀, hst⟩ := h.stage u x i hx hi
  obtain ⟨z₀, hz₀, hstz⟩ := h.stage v z k hz hk
  obtain ⟨-, hj₀, -, hd₀, hns, _, _, hdest⟩ := hset.submitted u x₀ i hx₀ hi
  obtain ⟨-, hjz, -, hdz, hnsz, _, _, hdestz⟩ := hset.submitted v z₀ k hz₀ hk
  have happart : ∀ a b, b < 64 → InDest k a b ∨ InSource k a b → t.mem.bit a b = s.mem.bit a b := by
    intro a b hb hin
    refine hframe a b hb fun hd => ?_
    obtain ⟨hnd, hns⟩ := hset.apart u v i k (Ne.symm hne) hi hk a b hb hd
    exact hin.elim hnd hns
  constructor
  · rw [takeTurn_get_other hz (fun hof' => hne (hof'.unique hof)) hof.ne_reset (fun he => absurd he hof.ne_submit) ht,
      UnitState.notice_eq_self (by rw [hstz.cur]; exact hdz) fun a b hb hdep => ?_]
    exact happart a b hb (hdep.elim .inr fun hd => .inl hd.1)
  · refine ⟨z₀, hz₀, hstz.of_other (fun a b hb hin => happart a b hb (.inl hin)) fun j d old hj hrun hread b hb => ?_⟩
    by_contra hchange
    obtain ⟨⟨m', hplan⟩, -, hown, -, -⟩ := hrun
    have hsound := h.locks.job_sound hz hj
    obtain ⟨w, hp⟩ := hread.work hsound
    have hpk : planOf k s₀.memWords m' = .work w := hplan ▸ hp
    obtain ⟨hnsw, hbase⟩ := locksAt_of_decode hdz hnsz hdestz _ _ _ hpk
    have hfl := inFlight_of_hasRead hnsw hp hsound hread
    have hheld : s.lock.holder base = some v :=
      (h.locks.holder_iff hz base).2 (hbase ▸ UnitState.holds_inFlight hj hp (by simp [hfl]))
    obtain ⟨c, hc, hin⟩ := (planOf_footprint hpk).2 d ((hown w hp).1 d hread.mem_pending)
    have hwhole := takeTurn_changes_whole_words hx hof h.locks hst hj₀ hd₀ (locksAt_of_decode hd₀ hns hdest) hne hheld ht
      hb hchange hc
    exact (hset.apart u v i k (Ne.symm hne) hi hk d.addr c hc hwhole).1 hin

/-- Every turn of the units' commands leaves all of them undisturbed (R81). -/
theorem Undisturbed.step (h : Undisturbed s₀ cmds s) (hset : Sharing s₀ base cmds) {e : Turn} {ts : List Turn}
    (hturns : s.turns = e :: ts) (hof : e.IsOf u) (hstep : Machine.step s = .next t) : Undisturbed s₀ cmds t := by
  have hlocks := stepKeepsLocksSound s t h.locks hstep
  rw [step_cons s e ts hturns] at hstep
  have hs : Undisturbed s₀ cmds { s with turns := ts } := ⟨h.length, h.words, h.locks, h.stage, h.outside⟩
  obtain ⟨x, hx⟩ := unit_of_takeTurn hof hstep
  obtain ⟨i, hi⟩ := exists_getElem?_of_length hs.length hx
  obtain ⟨x₀, hx₀, hst⟩ := hs.stage u x i hx hi
  obtain ⟨-, hj₀, hr₀, hd₀, -, _, _, hdest⟩ := hset.submitted u x₀ i hx₀ hi
  have hwrites : destRange i ≠ none := by rw [hdest]; nofun
  obtain ⟨⟨y, hy, hsty⟩, hframe⟩ := takeTurn_advanced hx hs.words hst hj₀ hr₀ hd₀
    (fun hbusy hj => hs.plan_masked hset hi hwrites (hst.eq_submitted hbusy hj).2) hof hstep
  obtain ⟨hwords, -, hlen⟩ := takeTurn_frame hstep
  refine ⟨hlen.trans hs.length, hwords.trans hs.words, hlocks, fun v z k hz hk => ?_, fun a b hb hout => ?_⟩
  · by_cases hvu : v = u
    · subst hvu
      rw [hy] at hz
      rw [hi] at hk
      cases hz
      cases hk
      exact ⟨x₀, hx₀, hsty⟩
    · obtain ⟨z', hz'⟩ := exists_getElem?_of_length hlen hz
      obtain ⟨hget, hstage⟩ := hs.other_stage hset hx hi hof hstep hframe hvu hz' hk
      rw [hget] at hz
      cases hz
      exact hstage
  · rw [hframe a b hb (hout i (List.mem_of_getElem? hi))]
    exact hs.outside a b hb hout

theorem Undisturbed.run (n : Nat) (h : Undisturbed s₀ cmds s) (hset : Sharing s₀ base cmds)
    (hof : ∀ e ∈ s.turns, ∃ u, e.IsOf u) (hrun : Machine.run n s = .next t) : Undisturbed s₀ cmds t := by
  refine (run_keeps (P := fun s => Undisturbed s₀ cmds s ∧ ∀ e ∈ s.turns, ∃ u, e.IsOf u) (fun s t hs hstep => ?_) n
    ⟨h, hof⟩ hrun).1
  obtain ⟨h, hof⟩ := hs
  cases hturns : s.turns with
  | nil =>
    rw [step_nil s hturns] at hstep
    cases hstep
    exact ⟨h, hof⟩
  | cons e ts =>
    rw [hturns] at hof
    obtain ⟨⟨u, he⟩, hts⟩ := List.forall_mem_cons.1 hof
    refine ⟨h.step hset hturns he hstep, ?_⟩
    rw [step_cons s e ts hturns] at hstep
    rw [(takeTurn_frame hstep).2.1]
    exact hts

/-- The submitted commands, before the first turn. -/
theorem Sharing.undisturbed (hset : Sharing s₀ base cmds) (hlock : s₀.lock = []) : Undisturbed s₀ cmds s₀ := by
  refine ⟨hset.length, rfl, State.locksSound_of_no_job hlock fun x hx => ?_,
    fun u x i hx hi => ⟨x, hx, .submitted fun _ _ _ _ => rfl⟩, fun _ _ _ _ => rfl⟩
  obtain ⟨u, hu⟩ := List.mem_iff_getElem?.1 hx
  obtain ⟨i, hi⟩ := exists_getElem?_of_length hset.length hu
  obtain ⟨-, hj, -⟩ := hset.submitted u x i hu hi
  exact hj

/-- An idle unit has completed as it does alone. -/
theorem Undisturbed.outcome (h : Undisturbed s₀ cmds s) (hset : Sharing s₀ base cmds) (hi : cmds[u]? = some i)
    (hx : s.units[u]? = some x) (hidle : x.busy = false) :
    ∃ x₀, s₀.units[u]? = some x₀ ∧ x₀.raced = false ∧ x = (planOf i s₀.memWords s₀.mem).unitAfter x₀ ∧
      ∀ a b, b < 64 → InDest i a b → s.mem.bit a b = (memAlone i s₀.memWords s₀.mem).bit a b := by
  obtain ⟨x₀, hx₀, hst⟩ := h.stage u x i hx hi
  obtain ⟨hb₀, -, hr₀, -⟩ := hset.submitted u x₀ i hx₀ hi
  refine ⟨x₀, hx₀, hr₀, ?_⟩
  cases hst with
  | submitted => rw [hb₀] at hidle; cases hidle
  | running j hrun => rw [show UnitState.busy { x₀ with job := some j } = x₀.busy from rfl, hb₀] at hidle; cases hidle
  | completed hmem => exact ⟨rfl, hmem⟩

end

/-- Settles O46: no turn of one command disturbs another, since it changes only its own destination bits, and, while another
unit stands between a locked read and its write, no word of which that unit has a bit. -/
theorem lockedCommandsAllTakeEffect : Obligations.LockedCommandsAllTakeEffect := by
  intro s t base cmds hlen hlock hsubmitted hapart hof hrun hidle
  have hset : Sharing s base cmds := ⟨hlen, hsubmitted, hapart⟩
  have hend := (hset.undisturbed hlock).run s.turns.length hset hof hrun
  refine ⟨fun u i hi => ?_, hend.outside⟩
  obtain ⟨x, hx⟩ := exists_getElem?_of_length hend.length.symm hi
  obtain ⟨x₀, hx₀, hr₀, rfl, hmem⟩ := hend.outcome hset hi hx (hidle x (List.mem_of_getElem? hx))
  refine ⟨_, exec_undisturbed (s := { s with active := u }) i hx₀ hr₀ hlock, ?_, hmem⟩
  rw [hx]
  exact (State.setUnit_get s u _ x₀ hx₀).symm

end Sys2Proof.Machine
end

