-- ==== Sys2Proof/Proofs/Encoding.lean ====
section
/-! PROOFS. The descriptor encoding (`30_encoding.md`): what a header word is made of, which headers a row of the opcode map
selects (R103, R107, R109), and from both the round trips of decoder and encoder (O1, O2, O6), the illegal descriptors (O3,
O4) and the descriptors written out (O5). -/

namespace Sys2Proof

/-! ## Header words -/

/-- A header word is its opcode byte, its four flags and its reserved bits (R101). -/
theorem header_word_ext_iff {w w' : Word} :
    w = w' ↔ w >>> 12 = w' >>> 12 ∧ w.extractLsb' 0 8 = w'.extractLsb' 0 8 ∧ w.getLsbD 8 = w'.getLsbD 8 ∧
      w.getLsbD 9 = w'.getLsbD 9 ∧ w.getLsbD 10 = w'.getLsbD 10 ∧ w.getLsbD 11 = w'.getLsbD 11 := by
  constructor
  · rintro rfl
    simp
  · rintro ⟨hres, hopc, hns, hv, han, hbn⟩
    apply BitVec.eq_of_getLsbD_eq
    intro i hi
    by_cases hlow : i < 8
    · simpa [hlow] using congrArg (BitVec.getLsbD · i) hopc
    by_cases hhigh : 12 ≤ i
    · simpa [Nat.add_sub_cancel' hhigh] using congrArg (BitVec.getLsbD · (i - 12)) hres
    · obtain rfl | rfl | rfl | rfl : i = 8 ∨ i = 9 ∨ i = 10 ∨ i = 11 := by omega
      exacts [hns, hv, han, hbn]

/-- The header the encoder writes, bit by bit (R101). -/
theorem getElem_header (opc : Word) (ns v an bn : Bool) {i : Nat} (hi : i < 64) :
    (header opc ns v an bn)[i] =
      (opc[i] || ns && decide (8 = i) || v && decide (9 = i) || an && decide (10 = i) || bn && decide (11 = i)) := by
  have hflag (b : Bool) (k : Nat) (hk : k < 64) : (if b then BitVec.twoPow 64 k else 0)[i] = (b && decide (k = i)) := by
    cases b <;> simp [BitVec.getElem_twoPow, eq_comm]
  have h8 := hflag ns 8 (by decide)
  have h9 := hflag v 9 (by decide)
  have h10 := hflag an 10 (by decide)
  have h11 := hflag bn 11 (by decide)
  rw [← h8, ← h9, ← h10, ← h11, ← BitVec.getElem_or, ← BitVec.getElem_or, ← BitVec.getElem_or, ← BitVec.getElem_or]
  rfl

/-- No flag reaches into the opcode byte or the reserved bits. -/
theorem getElem_header_of_not_flag (opc : Word) (ns v an bn : Bool) {i : Nat} (hi : i < 64) (hflag : i < 8 ∨ 12 ≤ i) :
    (header opc ns v an bn)[i] = opc[i] := by
  have h8 : 8 ≠ i := by omega
  have h9 : 9 ≠ i := by omega
  have h10 : 10 ≠ i := by omega
  have h11 : 11 ≠ i := by omega
  simp [getElem_header, h8, h9, h10, h11]

theorem header_opcode (opc : Word) (ns v an bn : Bool) :
    (header opc ns v an bn).extractLsb' 0 8 = opc.extractLsb' 0 8 := by
  apply BitVec.eq_of_getLsbD_eq
  intro i hi
  simp [hi, hi.trans (by decide : 8 < 64), getElem_header_of_not_flag]

/-! ## Legal headers, opcode by opcode -/

/-- The header of `d` is a legal one of `op` (R103, R107): its opcode, no reserved bit, only flags it allows. -/
def Desc.HeaderFor (d : Desc) (op : Op) : Prop :=
  d.hdr >>> 12 = 0 ∧ d.opc = op.code ∧ (d.ns = true → op.allowsNs = true) ∧ (d.v = true → op.allowsV = true) ∧
    (d.an = true → op.allowsAbsent = true) ∧ (d.bn = true → op.allowsAbsent = true)

theorem Desc.legalHeader_iff (d : Desc) : d.LegalHeader ↔ ∃ op, d.HeaderFor op := exists_and_left.symm

theorem Desc.HeaderFor.congr {d d' : Desc} {op : Op} (h : d.HeaderFor op) (hhdr : d.hdr = d'.hdr) : d'.HeaderFor op := by
  unfold Desc.HeaderFor Desc.opc Desc.ns Desc.v Desc.an Desc.bn at *
  rwa [← hhdr]

theorem Desc.HeaderFor.opc_eq {d : Desc} {op : Op} (h : d.HeaderFor op) : d.opc = op.code := h.2.1

theorem Op.code_range (op : Op) : 1 ≤ op.code ∧ op.code ≤ 0x14 := by cases op <;> decide

/-- Two legal headers of one opcode are equal when they agree on the flags it allows. -/
theorem Desc.HeaderFor.hdr_eq_iff {d d' : Desc} {op : Op} (h : d.HeaderFor op) (h' : d'.HeaderFor op) :
    d.hdr = d'.hdr ↔ (op.allowsNs = true → d.ns = d'.ns) ∧ (op.allowsV = true → d.v = d'.v) ∧
      (op.allowsAbsent = true → d.an = d'.an ∧ d.bn = d'.bn) := by
  obtain ⟨hres, hopc, hns, hv, han, hbn⟩ := h
  obtain ⟨hres', hopc', hns', hv', han', hbn'⟩ := h'
  have hbyte : d.hdr.extractLsb' 0 8 = d'.hdr.extractLsb' 0 8 := BitVec.eq_of_toNat_eq (hopc.trans hopc'.symm)
  have hflag {b b' allowed : Bool} (hb : b = true → allowed = true) (hb' : b' = true → allowed = true)
      (hsame : allowed = true → b = b') : b = b' := by
    cases allowed with
    | true => exact hsame rfl
    | false => simp_all
  constructor
  · intro hhdr
    simp only [Desc.ns, Desc.v, Desc.an, Desc.bn, hhdr, implies_true, and_self]
  · rintro ⟨hns₂, hv₂, habsent⟩
    exact header_word_ext_iff.2 ⟨hres.trans hres'.symm, hbyte, hflag hns hns' hns₂, hflag hv hv' hv₂,
      hflag han han' fun hop => (habsent hop).1, hflag hbn hbn' fun hop => (habsent hop).2⟩

/-! ## The opcode map -/

/-- The row of R103 whose mask leaves out the flags the opcode allows. -/
def Op.row (op : Op) : Row :=
  ⟨op, BitVec.ofNat 64 op.code, ~~~ header 0 op.allowsNs op.allowsV op.allowsAbsent op.allowsAbsent⟩

/-- The opcode map lists the rows in the order of the opcodes, and the masks that R103 prints are those of its "flags
allowed" column. -/
theorem getElem?_opcodeMap (op : Op) : opcodeMap[op.code - 1]? = some op.row := by cases op <;> rfl

theorem mem_opcodeMap_iff (r : Row) : r ∈ opcodeMap ↔ ∃ op : Op, r = op.row := by
  have hrows : ∀ r ∈ opcodeMap, r = r.op.row := by decide
  constructor
  · exact fun hr => ⟨r.op, hrows r hr⟩
  · rintro ⟨op, rfl⟩
    exact List.mem_of_getElem? (getElem?_opcodeMap op)

/-- No opcode stands in two rows of R103. -/
theorem Op.code_injective {op op' : Op} (h : op.code = op'.code) : op = op' := by
  have hrow : some op.row = some op'.row := by rw [← getElem?_opcodeMap, ← getElem?_opcodeMap, h]
  exact congrArg Row.op (Option.some.inj hrow)

theorem Desc.HeaderFor.op_unique {d : Desc} {op op' : Op} (h : d.HeaderFor op) (h' : d.HeaderFor op') : op = op' :=
  Op.code_injective (h.opc_eq.symm.trans h'.opc_eq)

theorem Op.getLsbD_mask (op : Op) {i : Nat} (hi : i < 64) :
    op.row.mask.getLsbD i = !(op.allowsNs && decide (8 = i) || op.allowsV && decide (9 = i) ||
      op.allowsAbsent && decide (10 = i) || op.allowsAbsent && decide (11 = i)) := by
  simp [Op.row, getElem_header, hi]

/-- A mask leaves out no bit of the opcode byte and no reserved bit. -/
theorem Op.getLsbD_mask_of_not_flag (op : Op) {i : Nat} (hi : i < 64) (hflag : i < 8 ∨ 12 ≤ i) :
    op.row.mask.getLsbD i = true := by
  simp [Op.row, hi, getElem_header_of_not_flag _ _ _ _ _ hi hflag]

/-- A pattern is an opcode byte with no flag and no reserved bit. -/
theorem Op.pattern_fields (op : Op) :
    op.row.pattern >>> 12 = 0 ∧ op.row.pattern.extractLsb' 0 8 = BitVec.ofNat 8 op.code ∧
      op.row.pattern.getLsbD 8 = false ∧ op.row.pattern.getLsbD 9 = false ∧ op.row.pattern.getLsbD 10 = false ∧
      op.row.pattern.getLsbD 11 = false := by
  cases op <;> decide

theorem Desc.opc_eq_code_iff (d : Desc) (op : Op) : d.opc = op.code ↔ d.hdr.extractLsb' 0 8 = BitVec.ofNat 8 op.code := by
  obtain ⟨-, hcode⟩ := op.code_range
  rw [← BitVec.toNat_inj, BitVec.toNat_ofNat, Nat.mod_eq_of_lt (by omega), Desc.opc]

/-- A descriptor selects the row of an opcode exactly when its header is a legal one of that opcode (R107). -/
theorem Op.selects_row_iff (op : Op) (d : Desc) : d.hdr &&& op.row.mask = op.row.pattern ↔ d.HeaderFor op := by
  have hopc : (d.hdr &&& op.row.mask).extractLsb' 0 8 = d.hdr.extractLsb' 0 8 := by
    apply BitVec.eq_of_getLsbD_eq
    intro i hi
    simp [hi, op.getLsbD_mask_of_not_flag (i := i) (by omega) (.inl hi)]
  have hres : (d.hdr &&& op.row.mask) >>> 12 = d.hdr >>> 12 := by
    apply BitVec.eq_of_getLsbD_eq
    intro i hi
    rw [BitVec.getLsbD_ushiftRight, BitVec.getLsbD_ushiftRight, BitVec.getLsbD_and]
    by_cases hin : 12 + i < 64
    · rw [op.getLsbD_mask_of_not_flag hin (.inr (by omega)), Bool.and_true]
    · rw [BitVec.getLsbD_of_ge d.hdr _ (by omega), Bool.false_and]
  obtain ⟨hpres, hpopc, hp8, hp9, hp10, hp11⟩ := op.pattern_fields
  have hand (b allowed : Bool) : (b && !allowed) = false ↔ (b = true → allowed = true) := by
    cases b <;> cases allowed <;> decide
  rw [header_word_ext_iff, hopc, hres, hpres, hpopc, hp8, hp9, hp10, hp11, ← d.opc_eq_code_iff]
  simp only [BitVec.getLsbD_and, op.getLsbD_mask (show 8 < 64 by decide), op.getLsbD_mask (show 9 < 64 by decide),
    op.getLsbD_mask (show 10 < 64 by decide), op.getLsbD_mask (show 11 < 64 by decide)]
  simp [hand, Desc.HeaderFor, Desc.ns, Desc.v, Desc.an, Desc.bn]

/-! ## The decoder -/

theorem decode_eq_ok_iff (d : Desc) (i : Instr) : decode d = .ok i ↔ ∃ op, d.HeaderFor op ∧ i = op.build d := by
  have hselects (r : Row) (hr : r ∈ opcodeMap) (hsel : Row.selects d.hdr r = true) : d.HeaderFor r.op := by
    obtain ⟨op, rfl⟩ := (mem_opcodeMap_iff r).1 hr
    exact (op.selects_row_iff d).1 (beq_iff_eq.1 hsel)
  cases hfind : opcodeMap.find? (Row.selects d.hdr) with
  | some r =>
    have hfor := hselects r (List.mem_of_find?_eq_some hfind) (List.find?_some hfind)
    rw [decode, hfind]
    constructor
    · rintro ⟨⟩
      exact ⟨r.op, hfor, rfl⟩
    · rintro ⟨op, hop, rfl⟩
      rw [hop.op_unique hfor]
  | none =>
    rw [decode, hfind]
    constructor
    · nofun
    · rintro ⟨op, hop, -⟩
      have hmem := (mem_opcodeMap_iff op.row).2 ⟨op, rfl⟩
      exact absurd (beq_iff_eq.2 ((op.selects_row_iff d).2 hop)) (List.find?_eq_none.1 hfind _ hmem)

/-- A descriptor decodes exactly when its header is legal (R107, R109). -/
theorem decode_ok_iff_legalHeader (d : Desc) : (∃ i, decode d = .ok i) ↔ d.LegalHeader := by
  rw [d.legalHeader_iff]
  constructor
  · rintro ⟨i, hi⟩
    obtain ⟨op, hop, -⟩ := (decode_eq_ok_iff d i).1 hi
    exact ⟨op, hop⟩
  · rintro ⟨op, hop⟩
    exact ⟨_, (decode_eq_ok_iff d _).2 ⟨op, hop, rfl⟩⟩

/-- No legal header has a reserved opcode (R106). -/
theorem not_legalHeader_of_reserved {d : Desc} (h : d.opc = 0 ∨ 0x15 ≤ d.opc) : ¬ d.LegalHeader := by
  rintro ⟨-, op, hopc, -⟩
  have hrange := op.code_range
  omega

theorem exists_decode_eq_error {d : Desc} (h : ¬ d.LegalHeader) : ∃ r, decode d = .error r := by
  cases hd : decode d with
  | error r => exact ⟨r, rfl⟩
  | ok i => exact absurd ((decode_ok_iff_legalHeader d).1 ⟨i, hd⟩) h

/-- Settles O3: the rows of the opcode map are those of `Op.row`, and a header is a legal one of at most one opcode. -/
theorem decodeAcceptsExactlyLegalHeaders : Obligations.DecodeAcceptsExactlyLegalHeaders := by
  intro d
  refine ⟨decode_ok_iff_legalHeader d, ?_, fun r hr r' hr' hsel hsel' => ?_⟩
  · rw [decode_ok_iff_legalHeader, d.legalHeader_iff]
    constructor
    · rintro ⟨op, hop⟩
      exact ⟨op.row, (mem_opcodeMap_iff _).2 ⟨op, rfl⟩, (op.selects_row_iff d).2 hop⟩
    · rintro ⟨r, hr, hsel⟩
      obtain ⟨op, rfl⟩ := (mem_opcodeMap_iff r).1 hr
      exact ⟨op, (op.selects_row_iff d).1 hsel⟩
  · obtain ⟨op, rfl⟩ := (mem_opcodeMap_iff r).1 hr
    obtain ⟨op', rfl⟩ := (mem_opcodeMap_iff r').1 hr'
    rw [((op.selects_row_iff d).1 hsel).op_unique ((op'.selects_row_iff d).1 hsel')]

/-! ## The encoder -/

/-- The row of R103 a command belongs to. -/
def Instr.op : Instr → Op
  | .plen .. => .plen
  | .ulen .. => .ulen
  | .getbit .. => .getbit
  | .setbit .. => .setbit
  | .getbits .. => .getbits
  | .setbits .. => .setbits
  | .copy .. => .copy
  | .notb .. => .notb
  | .andb .. => .andb
  | .orb .. => .orb
  | .xorb .. => .xorb
  | .andnot .. => .andnot
  | .ornot .. => .ornot
  | .fill .. => .fill
  | .iszero .. => .iszero
  | .rev .. => .rev
  | .indexof .. => .indexof
  | .lastindexof .. => .lastindexof
  | .card .. => .card
  | .eqb .. => .eqb

theorem op_build (op : Op) (d : Desc) : (op.build d).op = op := by cases op <;> rfl

open Laws in
/-- The encoder writes legal headers alone (R107). -/
theorem encode_legalHeader : ∀ i : Instr, (encode i).LegalHeader
  | .plen cnt => EncodesLegalHeader.plen cnt
  | .ulen cnt => EncodesLegalHeader.ulen cnt
  | .getbit a apos => EncodesLegalHeader.getbit a apos
  | .setbit ns v a apos => EncodesLegalHeader.setbit ns v a apos
  | .getbits a apos cnt => EncodesLegalHeader.getbits a apos cnt
  | .setbits ns a apos cnt val => EncodesLegalHeader.setbits ns a apos cnt val
  | .copy ns a apos b bpos cnt => EncodesLegalHeader.copy ns a apos b bpos cnt
  | .notb ns a apos cnt => EncodesLegalHeader.notb ns a apos cnt
  | .andb ns a apos b bpos cnt => EncodesLegalHeader.andb ns a apos b bpos cnt
  | .orb ns a apos b bpos cnt => EncodesLegalHeader.orb ns a apos b bpos cnt
  | .xorb ns a apos b bpos cnt => EncodesLegalHeader.xorb ns a apos b bpos cnt
  | .andnot ns a apos b bpos cnt => EncodesLegalHeader.andnot ns a apos b bpos cnt
  | .ornot ns a apos b bpos cnt => EncodesLegalHeader.ornot ns a apos b bpos cnt
  | .fill ns v a apos cnt => EncodesLegalHeader.fill ns v a apos cnt
  | .iszero a apos cnt => EncodesLegalHeader.iszero a apos cnt
  | .rev ns a apos b bpos cnt => EncodesLegalHeader.rev ns a apos b bpos cnt
  | .indexof v a apos cnt => EncodesLegalHeader.indexof v a apos cnt
  | .lastindexof v a apos cnt => EncodesLegalHeader.lastindexof v a apos cnt
  | .card a apos cnt => EncodesLegalHeader.card a apos cnt
  | .eqb a apos b bpos cnt => EncodesLegalHeader.eqb a apos b bpos cnt

/-- The opcode byte the encoder writes is the command's own (R103). -/
theorem encode_opc (i : Instr) : (encode i).opc = i.op.code := by
  cases i <;> simp [Desc.opc, encode, desc1, desc2, header_opcode, Instr.op, Op.code]

theorem encode_headerFor (i : Instr) : (encode i).HeaderFor i.op := by
  obtain ⟨op, hop⟩ := (encode i).legalHeader_iff.1 (encode_legalHeader i)
  rwa [← Op.code_injective (hop.opc_eq.symm.trans (encode_opc i))]

/-- The encoder writes every flag and operand word where the command's row reads it (R101, R104). -/
theorem build_encode (i : Instr) : i.op.build (encode i) = i := by
  cases i with
  | eqb a apos b bpos cnt =>
    cases a <;> cases b <;>
      simp [Instr.op, Op.build, encode, desc2, bufOrZero, Desc.an, Desc.bn, Desc.bufA, Desc.bufB, getElem_header]
  | _ => simp [Instr.op, Op.build, encode, desc1, desc2, Desc.ns, Desc.v, Desc.bufA, Desc.bufB, getElem_header]

/-- Settles O1: the row the decoder finds is the command's own, and reads back what the encoder wrote. -/
theorem decodeInvertsEncode : Obligations.DecodeInvertsEncode := fun i =>
  (decode_eq_ok_iff _ i).2 ⟨i.op, encode_headerFor i, (build_encode i).symm⟩

/-! ## What a descriptor means -/

open Machine (SameOperands)

/-- An optional buffer is the same when its flag is, and its words are where it is there (R101). -/
theorem optBuf_eq_iff (p q : Bool) (a b : Buf) :
    (if p then none else some a) = (if q then none else some b) ↔ p = q ∧ ((if p then none else some a) ≠ none → a = b) := by
  cases p <;> cases q <;> simp

/-- Two descriptors with legal headers of one opcode are the same command exactly when they agree on the header and on the
operand words R104 marks: the row reads these and nothing else. -/
theorem build_eq_iff {d d' : Desc} {op : Op} (h : d.HeaderFor op) (h' : d'.HeaderFor op) :
    op.build d = op.build d' ↔ d.hdr = d'.hdr ∧ SameOperands d d' (op.build d) := by
  rw [h.hdr_eq_iff h']
  cases op with
  | eqb =>
    simp only [Op.build, SameOperands, Op.allowsNs, Op.allowsV, Op.allowsAbsent, Instr.eqb.injEq, optBuf_eq_iff]
    tauto
  | _ => simp [Op.build, SameOperands, Op.allowsNs, Op.allowsV, Op.allowsAbsent, and_assoc]

/-- All descriptors that mean the command `d` means (R104, R105). -/
theorem decode_eq_ok_iff_of_decode {d d' : Desc} {i : Instr} (h : decode d = .ok i) :
    decode d' = .ok i ↔ d'.hdr = d.hdr ∧ SameOperands d d' i := by
  obtain ⟨op, hop, rfl⟩ := (decode_eq_ok_iff d i).1 h
  rw [decode_eq_ok_iff]
  constructor
  · rintro ⟨op', hop', hbuild⟩
    obtain rfl : op = op' := by rw [← op_build op d, hbuild, op_build]
    obtain ⟨hhdr, hsame⟩ := (build_eq_iff hop hop').1 hbuild
    exact ⟨hhdr.symm, hsame⟩
  · rintro ⟨hhdr, hsame⟩
    have hop' := hop.congr hhdr.symm
    exact ⟨op, hop', (build_eq_iff hop hop').2 ⟨hhdr.symm, hsame⟩⟩

/-- Settles O6: agreeing on the header and the used words suffices. -/
theorem ignoredWordsHaveNoEffect : Obligations.IgnoredWordsHaveNoEffect :=
  fun _ _ _ hd hhdr hsame => (decode_eq_ok_iff_of_decode hd).2 ⟨hhdr, hsame⟩

/-- Settles O2: by the round trip O1 the encoder's words are a descriptor with the same meaning, so they agree. -/
theorem encodeRecoversUsedWords : Obligations.EncodeRecoversUsedWords :=
  fun _ i hd => (decode_eq_ok_iff_of_decode hd).1 (decodeInvertsEncode i)

/-- Settles O5: the decoder evaluated on each of the seven. -/
theorem writtenOutDescriptorsDecode : Obligations.WrittenOutDescriptorsDecode := by
  unfold Obligations.WrittenOutDescriptorsDecode
  decide

end Sys2Proof

namespace Sys2Proof.Machine

/-! ## Illegal descriptors -/

/-- The turn of a submitted command that does not decode ends it with the error (R106, R311). -/
theorem execTurn_of_decode_error {s : State} {u : Nat} {x : UnitState} {r : Illegal} (hx : s.units[u]? = some x)
    (hbusy : x.busy = true) (hjob : x.job = none) (hd : decode x.cur = .error r) :
    execTurn s u = .next (s.setUnit u (x.raise .illegal)) := by
  simp only [execTurn, hx, hbusy, hjob, hd]

/-- Settles O4: all three kinds of header are illegal, an illegal one does not decode, and `raise` writes `STAT` and `RES`
alone. -/
theorem illegalDescriptorCompletesWithIllegal : Obligations.IllegalDescriptorCompletesWithIllegal := by
  intro s u ts x hturns hx hbusy hjob hill
  have hlegal : ¬ x.cur.LegalHeader := by
    obtain hzero | hhigh | hill := hill
    · exact not_legalHeader_of_reserved (.inl hzero)
    · exact not_legalHeader_of_reserved (.inr hhigh)
    · exact hill
  obtain ⟨r, hd⟩ := exists_decode_eq_error hlegal
  calc step s = execTurn { s with turns := ts } u := step_cons s _ ts hturns
    _ = .next (({ s with turns := ts } : State).setUnit u (x.raise .illegal)) :=
      execTurn_of_decode_error hx hbusy hjob hd

end Sys2Proof.Machine
end

