-- ==== Sys2Proof/Proofs/CheckSequence.lean ====
section
/-! PROOFS. The check sequence of every command, said once over its operands (R141 to R147, R320): with which error a command
ends, and when its range is empty. From it the statements about each error (O33 to O36), about the empty range (O32), and
that memory has no part in an error (O37). -/

namespace Sys2Proof.Machine

/-! ## The error a command ends with -/

/-- The command comes to steps 7 to 9 of R141: its operands are legal, its range is not empty, and it is not `EQ` of a
buffer with itself at one position. -/
def ReachesRangeChecks (i : Instr) : Prop :=
  i.wellFormed = true ∧ (∃ n, bitCount i = some n ∧ 0 < n) ∧ ¬ sameBufferAndPosition i

/-- Step 7 is passed: every used buffer lies in memory (R145). -/
def BuffersInMemory (i : Instr) (memWords : Nat) : Prop := ∀ p ∈ bufPositions i, p.1.InMemory memWords

/-- Step 8 is passed: every range ends inside its buffer, or the command tolerates that it does not (R146). -/
def RangesInBuffers (i : Instr) : Prop :=
  toleratesOverrun i = true ∨ ∀ n, bitCount i = some n → ∀ p ∈ bufPositions i, p.1.Holds p.2 n

/-- `ULEN` whose product is above the index type (R181). -/
def Overflows : Instr → Prop
  | .ulen cnt => 2 ^ 57 ≤ cnt.toNat
  | _ => False

/-- `EQ` with exactly one buffer absent (R300). -/
def OneBufferAbsent : Instr → Prop
  | .eqb none _ (some _) _ _ => True
  | .eqb (some _) _ none _ _ => True
  | _ => False

/-- The command ends with the error, on a memory of `memWords` words. It has no argument for what memory holds (R148). -/
def FailsWith (i : Instr) (memWords : Nat) : Err → Prop
  | .illegal => False
  | .invalidArg => i.wellFormed = false
  | .overflow => i.wellFormed = true ∧ Overflows i
  | .nullBuf => i.wellFormed = true ∧ OneBufferAbsent i
  | .bus => ReachesRangeChecks i ∧ ¬ BuffersInMemory i memWords
  | .range => ReachesRangeChecks i ∧ BuffersInMemory i memWords ∧ ¬ RangesInBuffers i
  | .aliasing => ReachesRangeChecks i ∧ BuffersInMemory i memWords ∧ RangesInBuffers i ∧ ForbiddenAlias i

/-- A command with an illegal operand ends with `InvalidArg`, whatever its other operands are (R142). -/
theorem failsWith_of_illFormed {i : Instr} (k : Nat) (e : Err) (hwf : i.wellFormed = false) :
    FailsWith i k e ↔ e = .invalidArg := by
  cases e <;> simp [FailsWith, ReachesRangeChecks, hwf]

/-- A command with legal operands and no range ends with `Overflow` or `NullBuf` if with any error (R181, R300). -/
theorem failsWith_of_no_range {i : Instr} (k : Nat) (e : Err) (hwf : i.wellFormed = true) (hn : bitCount i = none) :
    FailsWith i k e ↔ (e = .overflow ∧ Overflows i) ∨ (e = .nullBuf ∧ OneBufferAbsent i) := by
  cases e <;> simp [FailsWith, ReachesRangeChecks, hwf, hn]

theorem not_overflows_of_range {i : Instr} {n : Nat} (hn : bitCount i = some n) : ¬ Overflows i := by
  unfold Overflows
  split
  · cases hn
  · exact id

theorem not_oneBufferAbsent_of_range {i : Instr} {n : Nat} (hn : bitCount i = some n) : ¬ OneBufferAbsent i := by
  unfold OneBufferAbsent
  split
  · cases hn
  · cases hn
  · exact id

/-! ## The checks of a command with a range -/

/-- The plan `p` is a check sequence whose checks are those of the command: steps 2 and 6 on its operands and its `n` bits,
and steps 7 to 9 as `BuffersInMemory`, `RangesInBuffers` and `ForbiddenAlias` have them. -/
def IsCheckedBy (i : Instr) (n memWords : Nat) (p : Plan) : Prop :=
  ∃ bus range al w, p = checkSequence (!i.wellFormed) (emptyResult n (emptyRangeResult i)) bus range al w ∧
    (bus = false ↔ BuffersInMemory i memWords) ∧ (range = false ↔ RangesInBuffers i) ∧ (al = true ↔ ForbiddenAlias i)

section

variable {i : Instr} {n k p q : Nat} {a b : Buf} {al : Bool} {w : Unit → Work}

/-- The checks of a one-buffer command. -/
theorem isCheckedBy_oneBuf (hn : bitCount i = some n) (hbuf : bufPositions i = [(a, p)])
    (htol : toleratesOverrun i = false) (hal : ¬ ForbiddenAlias i) :
    IsCheckedBy i n k
      (checkSequence (!i.wellFormed) (emptyResult n (emptyRangeResult i)) (offMemory k a) (offBuffer a p n) false w) := by
  refine ⟨_, _, _, _, rfl, ?_, ?_, ?_⟩
  · simp [BuffersInMemory, hbuf, offMemory_eq_false]
  · simp [RangesInBuffers, hn, htol, hbuf, offBuffer_eq_false]
  · simp [hal]

/-- The checks of a scalar transfer, which tolerates an overrun (R146). -/
theorem isCheckedBy_scalar (hbuf : bufPositions i = [(a, p)]) (htol : toleratesOverrun i = true)
    (hal : ¬ ForbiddenAlias i) :
    IsCheckedBy i n k
      (checkSequence (!i.wellFormed) (emptyResult n (emptyRangeResult i)) (offMemory k a) false false w) := by
  refine ⟨_, _, _, _, rfl, ?_, ?_, ?_⟩
  · simp [BuffersInMemory, hbuf, offMemory_eq_false]
  · simp [RangesInBuffers, htol]
  · simp [hal]

/-- The checks of a two-buffer command. -/
theorem isCheckedBy_twoBuf (hn : bitCount i = some n) (hbuf : bufPositions i = [(a, p), (b, q)])
    (htol : toleratesOverrun i = false) (hal : al = true ↔ ForbiddenAlias i) :
    IsCheckedBy i n k
      (checkSequence (!i.wellFormed) (emptyResult n (emptyRangeResult i)) (offMemory2 k a b) (offBuffer2 a p b q n) al w) := by
  refine ⟨_, _, _, _, rfl, ?_, ?_, hal⟩
  · simp [BuffersInMemory, hbuf, offMemory2_eq_false]
  · simp [RangesInBuffers, hn, htol, hbuf, offBuffer2_eq_false]

end

/-- Step 2 for the commands with one position and no count. -/
theorem isNeg_or_badBuf_eq (a : Buf) (apos : Word) : (isNeg apos || badBuf a) = !(a.wellFormed && apos.isIndex) := by
  rw [isNeg_eq, badBuf_eq, Bool.not_and, Bool.or_comm]

/-- Step 2 of `EQ`, whose buffers may be absent. -/
theorem badEq_eq (a : Option Buf) (apos : Word) (b : Option Buf) (bpos cnt : Word) :
    (isNeg apos || isNeg bpos || isNeg cnt || badOptBuf a || badOptBuf b) =
      !(Instr.eqb a apos b bpos cnt).wellFormed := by
  rw [isNeg_eq, isNeg_eq, isNeg_eq, badOptBuf_eq, badOptBuf_eq, Instr.wellFormed]
  simp only [Bool.not_and]
  ac_rfl

/-- An illegal operand of `EQ` is reported before anything else (R141 step 2). -/
theorem planEq_of_illFormed {a b : Option Buf} {apos bpos cnt : Word} (k : Nat) (m : Memory)
    (h : (Instr.eqb a apos b bpos cnt).wellFormed = false) : planEq a apos b bpos cnt k m = .fail .invalidArg := by
  rw [planEq.eq_def, badEq_eq, h]
  rfl

/-- `EQ` of two present buffers is a check sequence, unless they are one at one position (R300). -/
theorem planEq_present {a b : Buf} {apos bpos cnt : Word} (k : Nat) (m : Memory) (h : ¬ (a.base = b.base ∧ apos = bpos)) :
    planEq (some a) apos (some b) bpos cnt k m =
      checkSequence (!(Instr.eqb (some a) apos (some b) bpos cnt).wellFormed) (emptyResult cnt.toNat 1) (offMemory2 k a b)
        (offBuffer2 a apos.toNat b bpos.toNat cnt.toNat) false
        (fun _ => readOnly (boolWord (rangesEqual m a apos.toNat b bpos.toNat cnt.toNat))) := by
  cases hwf : (Instr.eqb (some a) apos (some b) bpos cnt).wellFormed with
  | false => exact planEq_of_illFormed k m hwf
  | true =>
    rw [planEq, badEq_eq, hwf, planEqPresent, if_neg h]
    rfl

/-- A command with a range is carried out from its check sequence (R141). -/
theorem planOf_isCheckedBy {i : Instr} {n : Nat} (k : Nat) (m : Memory) (hn : bitCount i = some n)
    (hsame : ¬ sameBufferAndPosition i) : IsCheckedBy i n k (planOf i k m) := by
  cases i
  case plen | ulen => cases hn
  case getbit | setbit =>
    cases hn
    simp only [planOf, planGetbit, planSetbit, isNeg_or_badBuf_eq]
    exact isCheckedBy_oneBuf rfl rfl rfl id
  case getbits | setbits =>
    cases hn
    simp only [planOf, planGetbits, planSetbits, badScalar_eq]
    exact isCheckedBy_scalar rfl rfl id
  case notb | fill | iszero =>
    cases hn
    simp only [planOf, planNot, planFill, planUnary, planIszero, badOneBuf_eq]
    exact isCheckedBy_oneBuf rfl rfl rfl id
  case indexof | lastindexof | card =>
    cases hn
    simp only [planOf, planIndexof, planLastindexof, planCard, checkSearch, badEnd_eq]
    exact isCheckedBy_oneBuf rfl rfl rfl id
  case copy a _ b _ _ =>
    cases hn
    simp only [planOf, planCopy, badTwoBuf_eq]
    exact isCheckedBy_twoBuf rfl rfl rfl (aliasCopy_iff a b)
  case andb | orb | xorb | andnot | ornot =>
    cases hn
    simp only [planOf, planAnd, planOr, planXor, planAndnot, planOrnot, planBinary, badTwoBuf_eq]
    exact isCheckedBy_twoBuf rfl rfl rfl (aliasLogic_iff ..)
  case rev a _ b _ _ =>
    cases hn
    simp only [planOf, planRev, badTwoBuf_eq]
    exact isCheckedBy_twoBuf rfl rfl rfl (aliasRev_iff a b)
  case eqb a _ b _ _ =>
    cases a <;> cases b <;> cases hn
    rw [planOf, planEq_present k m hsame]
    exact isCheckedBy_twoBuf rfl rfl rfl (iff_of_false nofun id)

/-- `EQ` of a buffer with itself at one position ends before steps 6 to 9 (R141 step 5). -/
theorem planOf_of_same {i : Instr} (k : Nat) (m : Memory) (hwf : i.wellFormed = true) (h : sameBufferAndPosition i) :
    planOf i k m = .early (emptyRangeResult i) := by
  unfold sameBufferAndPosition at h
  split at h
  · rw [planOf, planEq, badEq_eq, hwf, planEqPresent, if_pos h]
    rfl
  · exact h.elim

/-! ## The error of every command -/

/-- An illegal operand is reported before anything else (R142). -/
theorem planOf_of_illFormed {i : Instr} (k : Nat) (m : Memory) (hwf : i.wellFormed = false) :
    planOf i k m = .fail .invalidArg := by
  by_cases h : (∃ n, bitCount i = some n) ∧ ¬ sameBufferAndPosition i
  · obtain ⟨⟨n, hn⟩, hsame⟩ := h
    obtain ⟨bus, range, al, w, hp, -⟩ := planOf_isCheckedBy k m hn hsame
    rw [hp, hwf]
    rfl
  · cases i
    case plen cnt | ulen cnt =>
      simp [planOf, planPlen, planUlen, isNeg_eq, show cnt.isIndex = false from hwf]
    case eqb => exact planEq_of_illFormed k m hwf
    all_goals exact absurd ⟨⟨_, rfl⟩, id⟩ h

/-- A command with no range has no use for memory: its error is one of its operands (R180, R181, R300). -/
theorem planOf_eq_fail_iff_of_no_range {i : Instr} (k : Nat) (m : Memory) (e : Err) (hwf : i.wellFormed = true)
    (hn : bitCount i = none) : planOf i k m = .fail e ↔ FailsWith i k e := by
  rw [failsWith_of_no_range k e hwf hn]
  cases i
  case plen cnt =>
    rw [planOf, planPlen, isNeg_eq, show cnt.isIndex = true from hwf]
    simp [Overflows, OneBufferAbsent]
  case ulen cnt =>
    rw [planOf, planUlen, isNeg_eq, show cnt.isIndex = true from hwf, if_neg (by simp)]
    split
    · next h =>
      have hover : Overflows (.ulen cnt) := by unfold Overflows; omega
      simp [hover, OneBufferAbsent, @eq_comm _ e]
    · next h =>
      have hfits : ¬ Overflows (.ulen cnt) := by unfold Overflows; omega
      simp [hfits, OneBufferAbsent]
  case eqb a apos b bpos cnt =>
    rw [planOf, planEq.eq_def, badEq_eq, hwf]
    cases a <;> cases b
    case some.some => cases hn
    all_goals simp [Overflows, OneBufferAbsent, @eq_comm _ e]
  all_goals cases hn

/-- A plan with the command's checks fails as the command does: the first check that fails gives the error (R141, R320). -/
theorem IsCheckedBy.eq_fail_iff {i : Instr} {n k : Nat} {p : Plan} (h : IsCheckedBy i n k p) (e : Err)
    (hwf : i.wellFormed = true) (hn : bitCount i = some n) (hsame : ¬ sameBufferAndPosition i) :
    p = .fail e ↔ FailsWith i k e := by
  obtain ⟨bus, range, al, w, rfl, hbus, hrange, hal⟩ := h
  rw [checkSequence_eq_fail]
  cases e <;> simp [FailsWith, ReachesRangeChecks, hwf, hn, hsame, emptyResult_eq_none, ← hbus, ← hrange, ← hal,
    not_overflows_of_range hn, not_oneBufferAbsent_of_range hn]

/-- The error of every command (R141, R148): it rests on the operands and `MEMWORDS` alone. -/
theorem planOf_eq_fail_iff (i : Instr) (k : Nat) (m : Memory) (e : Err) : planOf i k m = .fail e ↔ FailsWith i k e := by
  cases hwf : i.wellFormed with
  | false => rw [planOf_of_illFormed k m hwf, failsWith_of_illFormed k e hwf, Plan.fail.injEq, eq_comm]
  | true =>
    cases hn : bitCount i with
    | none => exact planOf_eq_fail_iff_of_no_range k m e hwf hn
    | some n =>
      by_cases hsame : sameBufferAndPosition i
      · rw [planOf_of_same k m hwf hsame]
        cases e <;> simp [FailsWith, ReachesRangeChecks, hwf, hsame, not_overflows_of_range hn,
          not_oneBufferAbsent_of_range hn]
      · exact (planOf_isCheckedBy k m hn hsame).eq_fail_iff e hwf hn hsame

/-- A command with legal operands and an empty range ends early (R144). -/
theorem planOf_of_empty {i : Instr} (k : Nat) (m : Memory) (hwf : i.wellFormed = true) (hn : bitCount i = some 0) :
    planOf i k m = .early (emptyRangeResult i) := by
  by_cases hsame : sameBufferAndPosition i
  · exact planOf_of_same k m hwf hsame
  · obtain ⟨bus, range, al, w, hp, -⟩ := planOf_isCheckedBy k m hn hsame
    rw [hp, hwf]
    rfl

/-! ## The obligations -/

section

variable {s : State} {x : UnitState} {i : Instr} (e : Err) (hx : s.units[s.active]? = some x)

include hx

/-- A command that fails ends with its error (R148). -/
theorem exec_of_failsWith (h : FailsWith i s.memWords e) : exec i s = .next (s.setUnit s.active (x.raise e)) := by
  rw [exec_eq_perform i s x hx, (planOf_eq_fail_iff i s.memWords s.mem e).2 h, perform_fail]

/-- A busy unit's command ends with an error exactly when it fails with it (R148). -/
theorem exec_eq_raise_iff_failsWith (hbusy : x.busy = true) :
    exec i s = .next (s.setUnit s.active (x.raise e)) ↔ FailsWith i s.memWords e := by
  rw [exec_eq_raise_iff s x i e hx hbusy, planOf_eq_fail_iff]

end

/-- Settles O32: steps 7 to 9 are not reached. -/
theorem emptyRangeGivesTheNeutralResult : Obligations.EmptyRangeGivesTheNeutralResult := by
  intro s x i hx hwf hn
  rw [exec_eq_perform i s x hx, planOf_of_empty s.memWords s.mem hwf hn, perform_early]

/-- Settles O33: `FailsWith` has ill-formedness as its `InvalidArg`. -/
theorem invalidArgExactlyWhenIllFormed : Obligations.InvalidArgExactlyWhenIllFormed :=
  fun _ _ _ hx hbusy => exec_eq_raise_iff_failsWith .invalidArg hx hbusy

/-- A command without a range uses no buffer that is checked (R143). -/
theorem bufPositions_of_no_range {i : Instr} (hn : bitCount i = none) : bufPositions i = [] := by
  cases i
  case plen | ulen => rfl
  case eqb a _ b _ _ =>
    cases a <;> cases b
    case some.some => cases hn
    all_goals rfl
  all_goals cases hn

/-- Settles O34: a command with a used buffer has a range, and step 7 is the first of the range checks. -/
theorem busErrorWhenExtentLeavesMemory : Obligations.BusErrorWhenExtentLeavesMemory := by
  intro s x i hx hwf hn hsame
  constructor
  · rintro ⟨p, hp, hout⟩
    cases hcount : bitCount i with
    | none => rw [bufPositions_of_no_range hcount] at hp; cases hp
    | some n =>
      have hpos : 0 < n := Nat.pos_of_ne_zero fun h => hn (h ▸ hcount)
      exact exec_of_failsWith .bus hx ⟨⟨hwf, ⟨n, hcount, hpos⟩, hsame⟩, fun hin => hout (hin p hp)⟩
  · intro hin hbusy h
    obtain ⟨-, hout⟩ := (exec_eq_raise_iff_failsWith .bus hx hbusy).1 h
    exact hout hin

/-- Step 8 fails exactly when the command does not tolerate an overrun and one of its ranges overruns (R146). -/
theorem not_rangesInBuffers_iff {i : Instr} {n : Nat} (hn : bitCount i = some n) :
    ¬ RangesInBuffers i ↔ toleratesOverrun i = false ∧ ∃ p ∈ bufPositions i, ¬ p.1.Holds p.2 n := by
  simp [RangesInBuffers, hn]

/-- Settles O35: step 8 is the check after the one the premise passes. -/
theorem rangeErrorWhenRangeLeavesBuffer : Obligations.RangeErrorWhenRangeLeavesBuffer := by
  intro s x i n hx hbusy hwf hn hpos hsame hin
  rw [exec_eq_raise_iff_failsWith .range hx hbusy, ← not_rangesInBuffers_iff hn]
  exact ⟨fun ⟨_, _, hout⟩ => hout, fun hout => ⟨⟨hwf, ⟨n, hn, hpos⟩, hsame⟩, hin, hout⟩⟩

/-- `EQ` is not a command whose operands can clash (R147 (d)). -/
theorem not_same_of_forbiddenAlias {i : Instr} (h : ForbiddenAlias i) : ¬ sameBufferAndPosition i := by
  cases i
  case eqb => exact h.elim
  all_goals exact id

/-- Settles O36: step 9 is the check after those the premises pass; a command whose operands clash is no `EQ`. -/
theorem aliasErrorExactlyWhenForbidden : Obligations.AliasErrorExactlyWhenForbidden := by
  intro s x i n hx hbusy hwf hn hpos hpass
  rw [exec_eq_raise_iff_failsWith .aliasing hx hbusy]
  constructor
  · rintro ⟨-, -, -, hal⟩
    exact hal
  · intro hal
    have hin : RangesInBuffers i := by
      refine .inr fun n' hn' p hp => ?_
      obtain rfl := Option.some.inj (hn.symm.trans hn')
      exact (hpass p hp).2
    exact ⟨⟨hwf, ⟨n, hn, hpos⟩, not_same_of_forbiddenAlias hal⟩, fun p hp => (hpass p hp).1, hin, hal⟩

/-- Settles O37: `FailsWith` has only the command and `MEMWORDS` as arguments. -/
theorem errorsDependOnDescriptorAlone : Obligations.ErrorsDependOnDescriptorAlone := by
  intro s s' x x' i e hx hbusy h hwords hx'
  exact exec_of_failsWith e hx' (hwords ▸ (exec_eq_raise_iff_failsWith e hx hbusy).1 h)

end Sys2Proof.Machine
end

