-- ==== Sys2Proof/Proofs/CommandLife.lean ====
section
/-! PROOFS. The life of a command (R140): its submission (O8), the turn that carries it out (O7), its completion (O9, O40); and
what the barrel shifter delivers to it (O44). -/

namespace Sys2Proof.Machine

/-! ## Submission -/

/-- Latching a descriptor changes `STAT` in bit 0 alone (R34, R140). -/
theorem getLsbD_setBusy (w : Word) (k : Nat) : (setBusy w).getLsbD k = (w.getLsbD k || decide (k = 0)) := by
  rw [setBusy, BitVec.getLsbD_or]
  cases k <;> simp

/-- A unit that has accepted a descriptor (R140): busy, with the overlap flag and the error code it had. -/
theorem accept_status (x : UnitState) (d : Desc) :
    (x.accept d).busy = true ∧ (x.accept d).ovl = x.ovl ∧ (x.accept d).err = x.err := by
  have herr : (setBusy x.stat).extractLsb' 4 4 = x.stat.extractLsb' 4 4 := by
    refine BitVec.eq_of_getLsbD_eq fun k _ => ?_
    have hne : 4 + k ≠ 0 := by omega
    rw [BitVec.getLsbD_extractLsb', BitVec.getLsbD_extractLsb', getLsbD_setBusy, decide_eq_false hne, Bool.or_false]
  refine ⟨?_, ?_, ?_⟩
  · rw [UnitState.busy, UnitState.accept_stat, getLsbD_setBusy]
    simp
  · rw [UnitState.ovl, UnitState.accept_stat, getLsbD_setBusy]
    simp [UnitState.ovl]
  · rw [UnitState.err, UnitState.accept_stat, herr, UnitState.err]

section

variable {s : State} {u : Nat} {ts : List Turn} {x : UnitState}

theorem submitTurn_idle {d : Desc} {ds : List Desc} (hidle : x.busy = false) (hoffer : x.offered = d :: ds) :
    submitTurn s u x = s.setUnit u { x.accept d with offered := ds } := by
  simp only [submitTurn, hidle, hoffer]

/-- The host waits at a busy unit, its descriptor kept (R362). -/
theorem submitTurn_busy (hbusy : x.busy = true) : submitTurn s u x = s := by
  simp only [submitTurn, hbusy]

theorem step_submit (hturns : s.turns = .submit u :: ts) (hx : s.units[u]? = some x) :
    step s = .next (submitTurn { s with turns := ts } u x) := by
  rw [step_cons s _ ts hturns, takeTurn]
  exact withUnit_eq { s with turns := ts } u _ x hx

end

/-- Settles O8: an accepted descriptor changes `STAT` in `BUSY` alone, and a busy unit accepts none. -/
theorem submissionLatchesOrWaits : Obligations.SubmissionLatchesOrWaits := by
  intro s u ts x d ds hturns hx hoffer
  rw [step_submit hturns hx]
  constructor
  · intro hidle
    obtain ⟨hbusy, hovl, herr⟩ := accept_status x d
    exact ⟨_, congrArg _ (submitTurn_idle hidle hoffer), rfl, hbusy, hovl, herr, rfl, rfl, rfl⟩
  · intro hbusy
    rw [submitTurn_busy hbusy]

/-! ## The turn that carries a command out -/

/-- The turn of a submitted command that decodes carries it out (R78, R140). -/
theorem execTurn_of_decode {s : State} {u : Nat} {x : UnitState} {i : Instr} (hx : s.units[u]? = some x)
    (hbusy : x.busy = true) (hjob : x.job = none) (hd : decode x.cur = .ok i) :
    execTurn s u = noticed u s.mem (exec i { s with active := u }) := by
  simp only [execTurn, hx, hbusy, hjob, hd]

/-- Settles O7: the first turn of the schedule is taken, and it carries out the decoded command. -/
theorem stepRunsDecodedCommand : Obligations.StepRunsDecodedCommand := by
  intro s u ts x i hturns hx hbusy hjob hd
  calc step s = execTurn { s with turns := ts } u := step_cons s _ ts hturns
    _ = noticed u s.mem (exec i { s with turns := ts, active := u }) :=
      execTurn_of_decode (s := { s with turns := ts }) hx hbusy hjob hd

/-! ## Completion -/

/-- A unit after an error has the error's code (R148, R310) and no overlap output. -/
theorem raise_status (x : UnitState) (e : Err) : (x.raise e).ovl = false ∧ (x.raise e).err = e.code :=
  ⟨statWord_ovl false false e.code, statWord_err false e.code e.code_range.2⟩

/-- Settles O9: a completion writes the `STAT` word made of its fields, and the fields read back. -/
theorem completionWritesStatusAndResult : Obligations.CompletionWritesStatusAndResult := by
  intro x ovl r
  obtain ⟨hidle, herr, hovl⟩ := done_status x ovl r
  have hcode : ∀ e, (x.raise e).err = e.code := fun e => (raise_status x e).2
  exact ⟨⟨hidle, hovl, herr, rfl, rfl⟩, fun e => ⟨raise_busy x e, (raise_status x e).1, rfl, rfl⟩,
    hcode .illegal, hcode .invalidArg, hcode .range, hcode .aliasing, hcode .overflow, hcode .nullBuf, hcode .bus⟩

/-- Carrying out a plan ends with the unit idle when no lock is held: only a held lock makes it wait (R72, R148, R149). -/
theorem perform_completes {s : State} {x : UnitState} (p : Plan) (hx : s.units[s.active]? = some x) (hlock : s.lock = []) :
    ∃ y, (s.perform x p).units[s.active]? = some y ∧ y.busy = false := by
  have hset : ∀ y : UnitState, (s.units.set s.active y)[s.active]? = some y := fun y => State.setUnit_get s _ y x hx
  cases p with
  | fail e => exact ⟨_, hset _, raise_busy x e⟩
  | early r => exact ⟨_, hset _, done_busy x false r⟩
  | work w =>
    have hfree : w.mustWait s.lock = false := mustWait_eq_false w s.lock (.inr (by rw [hlock]; rfl))
    obtain ⟨hwait, -⟩ | ⟨-, -, h⟩ | ⟨-, -, h⟩ := perform_work_cases s x w
    · rw [hfree] at hwait; cases hwait
    · rw [h]; exact ⟨_, hset _, done_busy ..⟩
    · rw [h]; exact ⟨_, hset _, done_busy ..⟩

/-- Settles O40: `exec` carries out the command's plan, which waits for nothing but a lock. -/
theorem everyCommandCompletesWhenLocksAreFree : Obligations.EveryCommandCompletesWhenLocksAreFree := by
  intro s x i hx
  have hexec := exec_eq_perform i s x hx
  refine ⟨⟨_, hexec⟩, fun hlock => ?_⟩
  obtain ⟨y, hy, hidle⟩ := perform_completes (planOf i s.memWords s.mem) hx hlock
  exact ⟨_, y, hexec, hy, hidle⟩

/-! ## The barrel shifter -/

/-- Settles O44: each window bit by bit, on a range inside the source buffer. -/
theorem windowsDeliverTheSourceBits : Obligations.WindowsDeliverTheSourceBits :=
  fun m _ _ _ _ _ _ hb hk hlo hhi => ⟨getLsbD_window m hb hk hlo hhi, getLsbD_revWindow m hb hk hlo hhi⟩

end Sys2Proof.Machine
end

