-- ==== Sys2Proof/Proofs/Addressing.lean ====
section
/-! PROOFS. The addressing primitives: `PLEN` and `ULEN`, which end before any work (O10, O11), `GETBIT` (O12) and `SETBIT`
(O13), which pass the same checks; and the update that a lock-free `SETBIT` can lose (O47). -/

namespace Sys2Proof.Machine

/-! ## What a command leaves, from its plan -/

section

variable {s : State} {x : UnitState} {i : Instr}

/-- A command that ends early changes nothing but its unit's completion (R144). -/
theorem exec_of_early {r : Word} (hx : s.units[s.active]? = some x) (h : planOf i s.memWords s.mem = .early r) :
    exec i s = .next (s.setUnit s.active (x.done false r)) := by
  rw [exec_eq_perform i s x hx, h, perform_early]

/-- An undisturbed command that only reads changes nothing but its unit's completion (R76, R78). -/
theorem exec_of_readOnly {r : Word} (hq : s.Quiet x) (h : planOf i s.memWords s.mem = .work (readOnly r)) :
    exec i s = .next (s.setUnit s.active (x.done false r)) := by
  obtain ⟨hx, hquiet⟩ := hq
  rw [exec_eq_perform i s x hx, h, perform_work s x _ (readOnly_mustWait r s.lock) hquiet]
  rfl

/-- A bit under the mask of an update gets the update's value (R73, R76). -/
theorem bit_applyUpds_of_masked {us : List Upd} {d : Upd} {b : Nat} (m : Memory) (hnodup : (us.map Upd.addr).Nodup)
    (hd : d ∈ us) (hmask : d.mask.getLsbD b = true) : (applyUpds m us).bit d.addr b = d.val.getLsbD b := by
  rw [Memory.bit, readWord_applyUpds_mem us m d hd hnodup, getLsbD_merge, if_pos hmask]

/-- What an undisturbed writing command that need not wait leaves (R149, R151, R155), from what its updates hold: `bit k` is
the value for bit `pos + k`. -/
theorem exec_writes_of_writing {ns ovl : Bool} {a : Buf} {us : List Upd} {pos n : Nat} {bit : Nat → Bool}
    (hq : s.Quiet x) (h : planOf i s.memWords s.mem = .work (writing ns ovl a us))
    (hdest : destRange i = some (a.base.toNat, pos, n)) (hfree : (writing ns ovl a us).mustWait s.lock = false)
    (hval : ∀ d ∈ us, ∀ b, b < 64 → InRange a.base.toNat pos n d.addr b →
      d.val.getLsbD b = bit (64 * d.addr + b - (64 * a.base.toNat + pos))) :
    ∃ t, exec i s = .next t ∧ s.Writes t x ovl a.base.toNat pos n bit := by
  obtain ⟨hx, hquiet⟩ := hq
  obtain ⟨-, hcovers, hmask⟩ := planOf_writesRange h hdest
  refine ⟨_, exec_eq_perform i s x hx, ?_⟩
  rw [h, perform_work s x _ hfree hquiet]
  refine ⟨rfl, fun k hk => ?_, fun c b hb hout => ?_⟩
  · have hin : InRange a.base.toNat pos n (a.base.toNat + (pos + k) / 64) ((pos + k) % 64) := by unfold InRange; omega
    obtain ⟨d, hd, haddr⟩ := List.mem_map.1 (hcovers _ _ (Nat.mod_lt _ (by decide)) hin)
    rw [← haddr] at hin
    calc (applyUpds s.mem us).bufBit a.base.toNat (pos + k)
        = d.val.getLsbD ((pos + k) % 64) := by
          rw [bufBit_eq, ← haddr]
          exact bit_applyUpds_of_masked s.mem (planOf_footprint h).1 hd ((hmask d hd _ (Nat.mod_lt _ (by decide))).2 hin)
      _ = bit k := by
          rw [hval d hd _ (Nat.mod_lt _ (by decide)) hin, haddr]
          congr 1
          omega
  · refine bit_applyUpds_of_unmasked s.mem fun d hd haddr => ?_
    rw [← Bool.not_eq_true, hmask d hd b hb, haddr]
    exact hout

end

/-! ## `PLEN` and `ULEN` -/

theorem isIndex_iff (w : Word) : w.isIndex = true ↔ w.toNat < 2 ^ 63 := decide_eq_true_iff

theorem isIndex_eq_false_iff (w : Word) : w.isIndex = false ↔ 2 ^ 63 ≤ w.toNat := by
  rw [← Bool.not_eq_true, isIndex_iff, Nat.not_lt]

/-- The plan of `PLEN` on a legal argument (R180). -/
theorem planPlen_of_isIndex {cnt : Word} (h : cnt.isIndex = true) :
    planPlen cnt = .early (natWord ((cnt.toNat + 63) / 64)) := by
  rw [planPlen, isNeg_eq, h]
  rfl

/-- The plan of `ULEN` on a legal argument whose product fits the index type (R181). -/
theorem planUlen_of_fits {cnt : Word} (h : cnt.toNat < 2 ^ 57) : planUlen cnt = .early (natWord (64 * cnt.toNat)) := by
  have hindex : cnt.isIndex = true := (isIndex_iff cnt).2 (by omega)
  rw [planUlen, isNeg_eq, hindex, if_neg (by decide), if_neg (by omega)]

/-- Settles O10: the true sum of a legal argument, and the argument check. -/
theorem plenGivesWordCount : Obligations.PlenGivesWordCount := fun _ _ cnt hx =>
  ⟨fun h => exec_of_early hx (planPlen_of_isIndex ((isIndex_iff cnt).2 h)),
    fun h => exec_of_failsWith .invalidArg hx ((isIndex_eq_false_iff cnt).2 h)⟩

/-- Settles O11: the product fits the index type exactly below 2^57. -/
theorem ulenGivesBitLengthOrOverflows : Obligations.UlenGivesBitLengthOrOverflows := fun _ _ cnt hx =>
  ⟨fun h => exec_of_early hx (planUlen_of_fits h),
    fun hover h => exec_of_failsWith .overflow hx ⟨(isIndex_iff cnt).2 h, hover⟩,
    fun h => exec_of_failsWith .invalidArg hx ((isIndex_eq_false_iff cnt).2 h)⟩

/-! ## `GETBIT` and `SETBIT` -/

section

variable {a : Buf} {apos : Word} {n : Nat} (hwf : (a.wellFormed && apos.isIndex) = true) (hmem : a.InMemory n)
  (hholds : a.Holds apos.toNat 1)

include hwf hmem hholds

/-- The checks of the one-bit commands pass on legal operands in memory and in the buffer (R142, R145, R146). -/
theorem checkSequence_oneBit (w : Unit → Work) :
    checkSequence (isNeg apos || badBuf a) none (offMemory n a) (offBuffer a apos.toNat 1) false w = .work (w ()) := by
  rw [isNeg_or_badBuf_eq, hwf, (offMemory_eq_false n a).2 hmem, (offBuffer_eq_false a _ 1).2 hholds]
  rfl

/-- The work of `GETBIT` (R182). -/
theorem planOf_getbit (m : Memory) : planOf (.getbit a apos) n m =
    .work (readOnly (if m.bit (a.base.toNat + apos.toNat / 64) (apos.toNat % 64) then 1 else 0)) := by
  rw [planOf, planGetbit, checkSequence_oneBit hwf hmem hholds]
  rfl

/-- The work of `SETBIT` (R183). -/
theorem planOf_setbit (ns v : Bool) (m : Memory) : planOf (.setbit ns v a apos) n m =
    .work (writing ns false a
      [⟨a.base.toNat + apos.toNat / 64, 1 <<< (apos.toNat % 64), if v then allOnes else 0⟩]) := by
  rw [planOf, planSetbit, checkSequence_oneBit hwf hmem hholds]

end

/-- Settles O12: a read of one bit, for which no lock is taken. -/
theorem getbitReadsTheBit : Obligations.GetbitReadsTheBit :=
  fun s _ _ _ hq hwf hmem hholds => exec_of_readOnly hq (planOf_getbit hwf hmem hholds s.mem)

/-- One bit is never a whole word, so only the lock-free form or a free entry opens the lock to it (R72, R74, R75). -/
theorem State.LockOpen.of_oneBit {s : State} {ns : Bool} {base : Word} {pos : Nat} (h : s.LockOpen ns base pos 1) :
    ns = true ∨ s.lock.holder base.toNat = none := by
  obtain h | h | h | ⟨-, h⟩ := h
  · exact .inl h
  · exact .inr h
  · cases h
  · cases h

/-- A value of all ones or all zeros has the one bit at every position. -/
theorem getLsbD_ite_allOnes (v : Bool) {b : Nat} (hb : b < 64) : (if v then allOnes else 0 : Word).getLsbD b = v := by
  cases v
  · exact BitVec.getLsbD_zero
  · rw [if_pos rfl, getLsbD_allOnes, decide_eq_true hb]

/-- Settles O13: one update, whose value is `V` in every bit and whose mask is the one bit. -/
theorem setbitWritesTheBit : Obligations.SetbitWritesTheBit := by
  intro s x ns v a apos hq hwf hmem hholds hlock
  refine exec_writes_of_writing hq (planOf_setbit hwf hmem hholds ns v s.mem) rfl
    (mustWait_eq_false _ _ hlock.of_oneBit) fun d hd b hb _ => ?_
  obtain rfl := List.mem_singleton.1 hd
  exact getLsbD_ite_allOnes v hb

/-! ## A lost update -/

/-- A unit to which a command has been submitted after reset (R140). -/
def submitted (i : Instr) : UnitState := UnitState.reset.accept (encode i)

/-- The lock-free `SETBIT` that sets bit `p` of the buffer of one word at address 0. -/
def setBitLockFree (p : Word) : Instr := .setbit true true ⟨0, 1⟩ p

/-- Two units with such a command each, for bits 0 and 1 of one word that holds 0, and a schedule in which both read the
word before either writes it. -/
def lostUpdate : State :=
  { memWords := 1
    mem := []
    lock := []
    units := [submitted (setBitLockFree 0), submitted (setBitLockFree 1)]
    active := 0
    turns := [.start 0 false, .start 1 false, .event 0 0, .event 1 0, .event 0 0, .finish 0, .event 1 0, .finish 1]
    freeCtr := 0 }

/-- The unit has begun its command and has read the word, which was 0; its one update, under the given mask, is not written
yet. -/
def hasReadZero (p mask : Word) : UnitState :=
  { submitted (setBitLockFree p) with
    job := some ⟨.work (writing true false ⟨0, 1⟩ [⟨0, mask, allOnes⟩]), [.fetched ⟨0, mask, allOnes⟩ 0], .between, false⟩ }

/-- Half way: both units hold the old word 0, and memory is as it was. -/
def bothHaveRead : State :=
  { lostUpdate with
    units := [hasReadZero 0 1, hasReadZero 1 2]
    turns := [.event 0 0, .finish 0, .event 1 0, .finish 1] }

/-- The end: the second write has put back the 0 in bit 0. -/
def updateLost : State :=
  { lostUpdate with
    mem := [(0, 2)]
    units := [(submitted (setBitLockFree 0)).done false 0, (submitted (setBitLockFree 1)).done false 0]
    turns := [] }

/-- Both units read the word before either writes it (R70, R74). -/
theorem run_lostUpdate (n : Nat) : run (n + 4) lostUpdate = run n bothHaveRead := rfl

/-- Each unit writes the word it read with its own bit set, the second over the first. -/
theorem run_bothHaveRead : run 4 bothHaveRead = .next updateLost := rfl

theorem submitted_busy (i : Instr) : (submitted i).busy = true := (accept_status UnitState.reset (encode i)).1

theorem decode_submitted (i : Instr) : decode (submitted i).cur = .ok i := decodeInvertsEncode i

/-- Settles O47: the run of `lostUpdate`, which ends with bit 0 lost. -/
theorem unlockedSetbitCanBeLost : Obligations.UnlockedSetbitCanBeLost := by
  have hrun : run lostUpdate.turns.length lostUpdate = .next updateLost :=
    (run_lostUpdate 4).trans run_bothHaveRead
  have hturns : ∀ e ∈ lostUpdate.turns, e.IsOf 0 ∨ e.IsOf 1 := by simp [lostUpdate, Turn.IsOf]
  obtain ⟨hidle₀, herr₀, -⟩ := done_status (submitted (setBitLockFree 0)) false 0
  obtain ⟨hidle₁, herr₁, -⟩ := done_status (submitted (setBitLockFree 1)) false 0
  exact ⟨lostUpdate, updateLost, _, _, _, _, rfl, rfl, rfl, rfl,
    submitted_busy _, rfl, rfl, decode_submitted _, submitted_busy _, rfl, rfl, decode_submitted _,
    hturns, hrun, rfl, hidle₀, hidle₁, herr₀, herr₁, by decide, by decide⟩

end Sys2Proof.Machine
end

