-- ==== Sys2Proof/Proofs/WordTransfer.lean ====
section
/-! PROOFS. The multi-bit word transfer: `GETBITS` (O14) and `SETBITS` (O15), bit by bit and whether or not their range stays
inside the buffer, and that the two are inverses when it does (O16). -/

namespace Sys2Proof.Machine

/-! ## When the lock is open to a command -/

/-- A command to whose destination range the lock is open does not wait: in a range of whole words every update is a full
word (R72, R74, R75). -/
theorem planOf_mustWait_of_lockOpen {s : State} {i : Instr} {n pos k : Nat} {base : Word} {m : Memory} {w : Work}
    (h : planOf i n m = .work w) (hdest : destRange i = some (base.toNat, pos, k)) (hlock : s.LockOpen w.ns base pos k) :
    w.mustWait s.lock = false := by
  obtain ⟨hbase, -⟩ := planOf_writesRange h hdest
  obtain ⟨-, hreach⟩ := planOf_footprint h
  obtain hns | hfree | hwhole := hlock
  · exact mustWait_eq_false w s.lock (.inl hns)
  · exact mustWait_eq_false w s.lock (.inr (hbase ▸ hfree))
  · refine mustWait_of_full w s.lock fun d hd => (Upd.full_iff d).2 fun c hc => ?_
    obtain ⟨b, hb, hin⟩ := hreach d hd
    rw [inDest_iff _ _ hdest] at hin
    rw [planOf_mask_iff h hd hc, inDest_iff _ _ hdest]
    unfold InRange at hin ⊢
    omega

/-! ## What a command that writes leaves, read back -/

section

variable {s t : State} {x : UnitState} {ovl : Bool} {base pos n : Nat} {bit : Nat → Bool}

/-- A bit of a range, by its position in the buffer and by its word (R60). -/
theorem InRange.bufBit {a b : Nat} (hin : InRange base pos n a b) (hb : b < 64) (m : Memory) :
    m.bufBit base (pos + (64 * a + b - (64 * base + pos))) = m.bit a b := by
  obtain ⟨hlo, -⟩ := hin
  have hword : base + (pos + (64 * a + b - (64 * base + pos))) / 64 = a := by omega
  have hplace : (pos + (64 * a + b - (64 * base + pos))) % 64 = b := by omega
  rw [bufBit_eq, hword, hplace]

theorem InRange.sub_lt {a b : Nat} (hin : InRange base pos n a b) : 64 * a + b - (64 * base + pos) < n := by
  obtain ⟨hlo, hhi⟩ := hin
  omega

/-- Each bit of the range has been given its value. -/
theorem State.Writes.bit_inRange (h : s.Writes t x ovl base pos n bit) {a b : Nat} (hb : b < 64)
    (hin : InRange base pos n a b) : t.mem.bit a b = bit (64 * a + b - (64 * base + pos)) := by
  obtain ⟨-, hrange, -⟩ := h
  rw [← hin.bufBit hb, hrange _ hin.sub_lt]

/-- Writing to a range the bits it holds leaves every word of memory as it was. -/
theorem State.Writes.readWord_of_same (h : s.Writes t x ovl base pos n bit)
    (hsame : ∀ k, k < n → bit k = s.mem.bufBit base (pos + k)) (w : Nat) : t.mem.readWord w = s.mem.readWord w := by
  refine BitVec.eq_of_getLsbD_eq fun b hb => ?_
  change t.mem.bit w b = s.mem.bit w b
  by_cases hin : InRange base pos n w b
  · rw [h.bit_inRange hb hin, hsame _ hin.sub_lt, hin.bufBit hb]
  · obtain ⟨-, -, hout⟩ := h
    exact hout w b hb hin

/-- The acting unit after a command that writes has completed, and nothing has interfered with it. -/
theorem State.Writes.quiet (h : s.Writes t x ovl base pos n bit) (hx : s.units[s.active]? = some x) :
    t.Quiet (x.done ovl 0) := by
  obtain ⟨ht, -⟩ := h
  rw [ht]
  exact ⟨State.setUnit_get s s.active _ x hx, rfl⟩

theorem State.Writes.memWords_eq (h : s.Writes t x ovl base pos n bit) : t.memWords = s.memWords := by
  obtain ⟨ht, -⟩ := h
  rw [ht]
  rfl

end

/-! ## The checks of the two commands -/

section

variable {a : Buf} {apos cnt : Word} {n : Nat} (hwf : (Instr.getbits a apos cnt).wellFormed = true)

include hwf

theorem cnt_le_of_getbits_wellFormed : cnt.toNat ≤ 64 := of_decide_eq_true (Bool.and_eq_true_iff.1 hwf).2

variable (hmem : a.InMemory n) (hpos : 0 < cnt.toNat)

include hmem hpos

/-- The checks pass on legal operands in memory, unless the range is empty (R142, R144, R145). -/
theorem checkSequence_scalar_passes (w : Unit → Work) :
    checkSequence (badScalar a apos cnt) (emptyResult cnt.toNat 0) (offMemory n a) false false w = .work (w ()) := by
  have hlegal : badScalar a apos cnt = false := by rw [badScalar_eq]; exact congrArg not hwf
  exact (checkSequence_eq_work ..).2
    ⟨hlegal, (emptyResult_eq_none _ _).2 hpos, (offMemory_eq_false n a).2 hmem, rfl, rfl, rfl⟩

/-- The work of `GETBITS` (R200). -/
theorem planOf_getbits (m : Memory) :
    planOf (.getbits a apos cnt) n m = .work (readOnly (extractBits m a apos.toNat cnt.toNat)) := by
  rw [planOf, planGetbits, checkSequence_scalar_passes hwf hmem hpos]

/-- The work of `SETBITS`, whose legal operands are those of `GETBITS` (R201). -/
theorem planOf_setbits (ns : Bool) (val : Word) (m : Memory) :
    planOf (.setbits ns a apos cnt val) n m = .work (writing ns false a (insertUpdates a apos.toNat cnt.toNat val)) := by
  rw [planOf, planSetbits, checkSequence_scalar_passes hwf hmem hpos]

end

/-! ## `GETBITS` -/

/-- The word that holds bit `p` of a buffer, where words outside the buffer are 0 and not read (R200). -/
theorem getLsbD_wordInside (m : Memory) (a : Buf) (p : Nat) :
    (if p / 64 < a.len.toNat then m.readWord (a.base.toNat + p / 64) else 0 : Word).getLsbD (p % 64) =
      (decide (p < 64 * a.len.toNat) && m.bufBit a.base.toNat p) := by
  by_cases hin : p < 64 * a.len.toNat
  · rw [if_pos (by omega), decide_eq_true hin, Bool.true_and]
    rfl
  · rw [if_neg (by omega), decide_eq_false hin, Bool.false_and]
    exact BitVec.getLsbD_zero

/-- The word form of `GETBITS`, bit by bit: bit `j` comes from the first word or, past its end, from the second (R200). -/
theorem getLsbD_extractBits (m : Memory) (a : Buf) (pos n : Nat) {j : Nat} (hj : j < 64) :
    (extractBits m a pos n).getLsbD j =
      (decide (j < n ∧ pos + j < 64 * a.len.toNat) && m.bufBit a.base.toNat (pos + j)) := by
  rw [extractBits, BitVec.getLsbD_and, getLsbD_ones]
  by_cases hn : j < n
  case neg => simp [hn]
  have hmask : j < 64 ∧ 0 ≤ j ∧ j < n := ⟨hj, Nat.zero_le j, hn⟩
  rw [decide_eq_true hmask, Bool.and_true, BitVec.getLsbD_or, BitVec.getLsbD_ushiftRight]
  simp only [hn, true_and]
  rw [← getLsbD_wordInside]
  by_cases hcross : pos % 64 + j < 64
  · have hword : (pos + j) / 64 = pos / 64 := by omega
    have hplace : (pos + j) % 64 = pos % 64 + j := by omega
    have hsecond (hi : Word) : (if pos % 64 = 0 then 0 else hi <<< (64 - pos % 64)).getLsbD j = false := by
      have hbelow : j < 64 - pos % 64 := by omega
      split
      · exact BitVec.getLsbD_zero
      · simp [hbelow]
    rw [hword, hplace, hsecond, Bool.or_false]
  · have hword : (pos + j) / 64 = pos / 64 + 1 := by omega
    have hplace : (pos + j) % 64 = j - (64 - pos % 64) := by omega
    have hspans : 64 < pos % 64 + n := by omega
    have habove : ¬ j < 64 - pos % 64 := by omega
    rw [hword, hplace, BitVec.getLsbD_of_ge _ (pos % 64 + j) (by omega), Bool.false_or, if_neg (by omega),
      BitVec.getLsbD_shiftLeft, decide_eq_true hj, decide_eq_false habove]
    simp only [hspans, true_and, Nat.add_assoc, Bool.not_false, Bool.true_and]

/-- An undisturbed `GETBITS` on legal operands in memory; for an empty range the word form gives the neutral result (R144,
R200). -/
theorem exec_getbits {s : State} {x : UnitState} {a : Buf} {apos cnt : Word} (hq : s.Quiet x)
    (hwf : (Instr.getbits a apos cnt).wellFormed = true) (hmem : a.InMemory s.memWords) :
    exec (.getbits a apos cnt) s =
      .next (s.setUnit s.active (x.done false (extractBits s.mem a apos.toNat cnt.toNat))) := by
  obtain hzero | hpos := Nat.eq_zero_or_pos cnt.toNat
  · have hnone : extractBits s.mem a apos.toNat cnt.toNat = 0 :=
      BitVec.eq_of_getLsbD_eq fun j hj => by simp [getLsbD_extractBits _ _ _ _ hj, hzero]
    obtain ⟨hx, -⟩ := hq
    rw [hnone]
    exact exec_of_early hx (planOf_of_empty _ _ hwf (congrArg some hzero))
  · exact exec_of_readOnly hq (planOf_getbits hwf hmem hpos s.mem)

/-- Settles O14: the word form, bit by bit. -/
theorem getbitsExtractsTheBits : Obligations.GetbitsExtractsTheBits :=
  fun s _ a apos cnt hq hwf hmem =>
    ⟨_, exec_getbits hq hwf hmem, fun _ hj => getLsbD_extractBits s.mem a apos.toNat cnt.toNat hj⟩

/-! ## `SETBITS` -/

/-- The word form of `SETBITS` brings to each bit of the range its bit of `VAL` (R201). -/
theorem getLsbD_insertUpdates {a : Buf} {pos n k b : Nat} {val : Word} {d : Upd} (hd : d ∈ insertUpdates a pos n val)
    (hb : b < 64) (hin : InRange a.base.toNat pos k d.addr b) :
    d.val.getLsbD b = val.getLsbD (64 * d.addr + b - (64 * a.base.toNat + pos)) := by
  obtain ⟨hlo, -⟩ := hin
  rw [insertUpdates, List.mem_append] at hd
  obtain hd | hd := hd
  · split at hd
    · obtain rfl := List.mem_singleton.1 hd
      dsimp only at hlo ⊢
      have hbit : 64 * (a.base.toNat + pos / 64) + b - (64 * a.base.toNat + pos) = b - pos % 64 := by omega
      have habove : ¬ b < pos % 64 := by omega
      rw [hbit, BitVec.getLsbD_shiftLeft, decide_eq_true hb, decide_eq_false habove]
      rfl
    · cases hd
  · split at hd
    · obtain rfl := List.mem_singleton.1 hd
      have hbit : 64 * (a.base.toNat + pos / 64 + 1) + b - (64 * a.base.toNat + pos) = 64 - pos % 64 + b := by omega
      rw [hbit, BitVec.getLsbD_ushiftRight]
    · cases hd

/-- Settles O15: an empty range writes nothing; any other takes at most two updates, both inside the buffer. -/
theorem setbitsInsertsTheBits : Obligations.SetbitsInsertsTheBits := by
  intro s x ns a apos cnt val hq hwf hmem hlock
  obtain hzero | hpos := Nat.eq_zero_or_pos cnt.toNat
  · obtain ⟨hx, -⟩ := hq
    rw [hzero, Nat.zero_min]
    exact ⟨_, exec_of_early hx (planOf_of_empty _ _ hwf (congrArg some hzero)), writes_nothing ..⟩
  · have hplan := planOf_setbits hwf hmem hpos ns val s.mem
    exact exec_writes_of_writing hq hplan rfl (planOf_mustWait_of_lockOpen hplan rfl hlock)
      fun _ hd _ hb hin => getLsbD_insertUpdates hd hb hin

/-! ## The two together -/

/-- A `SETBITS` whose range stays inside the buffer writes the whole of it (R201). -/
theorem exec_setbits_inside {s : State} {x : UnitState} {ns : Bool} {a : Buf} {apos cnt : Word} (val : Word)
    (hq : s.Quiet x) (hwf : (Instr.getbits a apos cnt).wellFormed = true) (hmem : a.InMemory s.memWords)
    (hholds : a.Holds apos.toNat cnt.toNat) (hlock : s.LockOpen ns a.base apos.toNat cnt.toNat) :
    ∃ t, exec (.setbits ns a apos cnt val) s = .next t ∧
      s.Writes t x false a.base.toNat apos.toNat cnt.toNat val.getLsbD := by
  have hinside : min cnt.toNat (64 * a.len.toNat - apos.toNat) = cnt.toNat := by unfold Buf.Holds at hholds; omega
  have h := setbitsInsertsTheBits s x ns a apos cnt val hq hwf hmem
  rw [hinside] at h
  exact h hlock

/-- Extracting from a range inside the buffer that holds the low bits of `val` gives those bits (R200). -/
theorem extractBits_eq_low_bits {m : Memory} {a : Buf} {pos n : Nat} {val : Word} (hn : n ≤ 64) (hholds : a.Holds pos n)
    (hbits : ∀ k, k < n → m.bufBit a.base.toNat (pos + k) = val.getLsbD k) :
    extractBits m a pos n = val &&& (BitVec.allOnes 64 >>> (64 - n)) := by
  unfold Buf.Holds at hholds
  refine BitVec.eq_of_getLsbD_eq fun j hj => ?_
  rw [getLsbD_extractBits m a pos n hj, BitVec.getLsbD_and, BitVec.getLsbD_ushiftRight, BitVec.getLsbD_allOnes]
  by_cases hlow : j < n
  · have hin : j < n ∧ pos + j < 64 * a.len.toNat := by omega
    have hone : 64 - n + j < 64 := by omega
    rw [hbits j hlow, decide_eq_true hin, decide_eq_true hone, Bool.true_and, Bool.and_true]
  · have hzero : ¬ 64 - n + j < 64 := by omega
    simp [hlow, hzero]

/-- Settles O16: `GETBITS` reads the bits that `SETBITS` has written, and `SETBITS` writes the bits that `GETBITS` has
read. -/
theorem setbitsAndGetbitsAreInverse : Obligations.SetbitsAndGetbitsAreInverse := by
  intro s x ns a apos cnt hq hwf hmem hholds hlock
  have hx := hq.1
  constructor
  · intro val
    obtain ⟨t, hset, hwrites⟩ := exec_setbits_inside val hq hwf hmem hholds hlock
    have hquiet := hwrites.quiet hx
    have hget := exec_getbits hquiet hwf (hwrites.memWords_eq ▸ hmem)
    obtain ⟨-, hbits, -⟩ := hwrites
    rw [extractBits_eq_low_bits (cnt_le_of_getbits_wellFormed hwf) hholds hbits] at hget
    exact ⟨t, _, hset, hquiet.1, hget⟩
  · have hquiet : (s.setUnit s.active (x.done false (extractBits s.mem a apos.toNat cnt.toNat))).Quiet (x.done false _) :=
      ⟨State.setUnit_get s s.active _ x hx, rfl⟩
    obtain ⟨t, hset, hwrites⟩ :=
      exec_setbits_inside (extractBits s.mem a apos.toNat cnt.toNat) hquiet hwf hmem hholds hlock
    refine ⟨_, t, exec_getbits hq hwf hmem, hset, hwrites.readWord_of_same fun k hk => ?_⟩
    have hcnt := cnt_le_of_getbits_wellFormed hwf
    have hin : k < cnt.toNat ∧ apos.toNat + k < 64 * a.len.toNat := by unfold Buf.Holds at hholds; omega
    rw [getLsbD_extractBits s.mem a apos.toNat cnt.toNat (by omega), decide_eq_true hin, Bool.true_and]
    rfl

end Sys2Proof.Machine
end

