-- ==== Sys2Proof/Proofs/RangeCopy.lean ====
section
/-! PROOFS. Range copy: what `COPY` moves (O17), that copying through a scratch buffer does the same (O18), and that no other
command sets the overlap flag (O39). -/

namespace Sys2Proof.Machine

/-! ## Words after a command that writes a range -/

section

variable {s t : State} {x : UnitState} {ovl : Bool} {base pos n : Nat} {bit : Nat → Bool}

/-- A word that holds no bit of the range is as before. -/
theorem State.Writes.readWord_outside (h : s.Writes t x ovl base pos n bit) {w : Nat}
    (hout : ∀ b, b < 64 → ¬ InRange base pos n w b) : t.mem.readWord w = s.mem.readWord w := by
  obtain ⟨-, -, hkept⟩ := h
  exact BitVec.eq_of_getLsbD_eq fun b hb => hkept w b hb (hout b hb)

/-- Writing the same bits to the same range of two memories that hold the same word leaves the same word. -/
theorem State.Writes.readWord_congr (h : s.Writes t x ovl base pos n bit) {s' t' : State} {x' : UnitState} {ovl' : Bool}
    {bit' : Nat → Bool} (h' : s'.Writes t' x' ovl' base pos n bit') (hbits : ∀ k, k < n → bit k = bit' k) {w : Nat}
    (hword : s.mem.readWord w = s'.mem.readWord w) : t.mem.readWord w = t'.mem.readWord w := by
  refine BitVec.eq_of_getLsbD_eq fun b hb => ?_
  change t.mem.bit w b = t'.mem.bit w b
  by_cases hin : InRange base pos n w b
  · rw [h.bit_inRange hb hin, h'.bit_inRange hb hin, hbits _ hin.sub_lt]
  · obtain ⟨-, -, hkept⟩ := h
    obtain ⟨-, -, hkept'⟩ := h'
    rw [hkept w b hb hin, hkept' w b hb hin]
    exact congrArg (BitVec.getLsbD · b) hword

/-- A command that has completed holds no lock, and others hold what they held (R73). -/
theorem State.Writes.lockOpen_iff (h : s.Writes t x ovl base pos n bit) (ns : Bool) (b : Word) (p k : Nat) :
    t.LockOpen ns b p k ↔ s.LockOpen ns b p k := by
  obtain ⟨ht, -⟩ := h
  rw [ht]
  rfl

end

/-! ## The operands of two-buffer commands -/

theorem not_buffersClash_self (a : Buf) : ¬ BuffersClash a a := fun ⟨hne, _⟩ => hne rfl

theorem ExtentsMeet.symm {a b : Buf} (h : ExtentsMeet a b) : ExtentsMeet b a := by
  obtain ⟨ha, hb, hab, hba⟩ := h
  exact ⟨hb, ha, hba, hab⟩

theorem Apart.symm {a b : Buf} (h : Apart a b) : Apart b a := by
  obtain ⟨hne, hmeet⟩ := h
  exact ⟨hne.symm, fun hba => hmeet hba.symm⟩

theorem Apart.not_buffersClash {a b : Buf} (h : Apart a b) : ¬ BuffersClash a b := fun ⟨_, hmeet⟩ => h.2 hmeet

/-- No word of a buffer holds a bit of a range of a buffer apart from it (R62, R224). -/
theorem Apart.not_inRange {a c : Buf} (h : Apart a c) {pos n w b : Nat} (hholds : c.Holds pos n) (hw : w < a.len.toNat)
    (hb : b < 64) : ¬ InRange c.base.toNat pos n (a.base.toNat + w) b := by
  rintro ⟨hlo, hhi⟩
  obtain ⟨-, hmeet⟩ := h
  unfold Buf.Holds at hholds
  refine hmeet ⟨?_, ?_, ?_, ?_⟩ <;> omega

theorem twoBufWellFormed_iff {a b : Buf} {apos bpos cnt : Word} : twoBufWellFormed a apos b bpos cnt = true ↔
    a.wellFormed = true ∧ apos.isIndex = true ∧ b.wellFormed = true ∧ bpos.isIndex = true ∧ cnt.isIndex = true := by
  simp only [twoBufWellFormed, Bool.and_eq_true, and_assoc]

/-- The checks of a two-buffer command pass on legal operands in memory and in their buffers, unless the range is empty or
the operands clash (R141). -/
theorem checkSequence_twoBuf_passes {a b : Buf} {apos bpos cnt : Word} {n : Nat} {al : Bool}
    (hwf : twoBufWellFormed a apos b bpos cnt = true) (hpos : 0 < cnt.toNat) (hmem : a.InMemory n ∧ b.InMemory n)
    (hholds : a.Holds apos.toNat cnt.toNat ∧ b.Holds bpos.toNat cnt.toNat) (hal : ¬ al = true) (r : Word)
    (w : Unit → Work) :
    checkSequence (badTwoBuf a apos b bpos cnt) (emptyResult cnt.toNat r) (offMemory2 n a b)
      (offBuffer2 a apos.toNat b bpos.toNat cnt.toNat) al w = .work (w ()) := by
  have hlegal : badTwoBuf a apos b bpos cnt = false := by rw [badTwoBuf_eq, hwf]; rfl
  exact (checkSequence_eq_work ..).2 ⟨hlegal, (emptyResult_eq_none _ _).2 hpos, (offMemory2_eq_false n a b).2 hmem,
    (offBuffer2_eq_false ..).2 hholds, Bool.eq_false_of_not_eq_true hal, rfl⟩

/-! ## `COPY` -/

/-- An empty range starts inside no range. -/
theorem overlap_empty (a b : Buf) (p q : Nat) : overlap a p b q 0 = false :=
  decide_eq_false fun ⟨_, hlo, hhi⟩ => by omega

/-- Settles O17: an empty range moves nothing; for any other, each destination word gets its window of the memory before
the command, whatever the overlap. -/
theorem copyMovesTheRange : Obligations.CopyMovesTheRange := by
  intro s x ns a apos b bpos cnt hq hwf ha hb hdst hsrc hclash hlock
  obtain hzero | hpos := Nat.eq_zero_or_pos cnt.toNat
  · have hflag := overlap_empty a b apos.toNat bpos.toNat
    obtain ⟨hx, -⟩ := hq
    unfold overlap at hflag
    rw [hzero, hflag]
    exact ⟨_, exec_of_early hx (planOf_of_empty _ _ hwf (congrArg some hzero)), writes_nothing ..⟩
  · rw [exec_eq_carryOut, planOf, planCopy,
      checkSequence_twoBuf_passes hwf hpos ⟨ha, hb⟩ ⟨hdst, hsrc⟩ (mt (aliasCopy_iff a b).1 hclash)]
    exact writes_of_range s x ns _ a apos.toNat cnt.toNat _ _ hpos hq hlock
      fun w c hc hlo hhi => getLsbD_window s.mem hsrc hc hlo hhi

/-- Settles O18: the scratch buffer receives the source bits as they were before, so both ways write the same bits to the
destination; the rest of the buffer is apart from the scratch buffer. -/
theorem copyEqualsCopyThroughScratch : Obligations.CopyEqualsCopyThroughScratch := by
  intro s x ns a c ds ss n hq hwf hwfc ha hc hdst hsrc hscratch hapart hlock hlockc
  have hx := hq.1
  obtain ⟨hwfa, hds, -, hss, hn⟩ := twoBufWellFormed_iff.1 hwf
  have hwfto : (Instr.copy ns c 0 a ss n).wellFormed = true := twoBufWellFormed_iff.2 ⟨hwfc, rfl, hwfa, hss, hn⟩
  have hwffrom : (Instr.copy ns a ds c 0 n).wellFormed = true := twoBufWellFormed_iff.2 ⟨hwfa, hds, hwfc, rfl, hn⟩
  obtain ⟨t, ht, hdirect⟩ :=
    copyMovesTheRange s x ns a ds a ss n hq hwf ha ha hdst hsrc (not_buffersClash_self a) hlock
  obtain ⟨u, hu, hto⟩ :=
    copyMovesTheRange s x ns c 0 a ss n hq hwfto hc ha hscratch hsrc hapart.symm.not_buffersClash hlockc
  have hwords := hto.memWords_eq
  obtain ⟨v, hv, hfrom⟩ :=
    copyMovesTheRange u _ ns a ds c 0 n (hto.quiet hx) hwffrom (hwords ▸ ha) (hwords ▸ hc) hdst hscratch
      hapart.not_buffersClash ((hto.lockOpen_iff ..).2 hlock)
  refine ⟨t, u, v, ht, hu, hv, fun w hw => hdirect.readWord_congr hfrom (fun k hk => ?_) ?_⟩
  · obtain ⟨-, hmoved, -⟩ := hto
    exact (hmoved k hk).symm
  · exact (hto.readWord_outside fun b hb => hapart.not_inRange hscratch hw hb).symm

/-! ## The overlap flag -/

/-- The overlap detector's output for a command (R221): none but `COPY` has one. -/
def overlapOutput : Instr → Bool
  | .copy _ a apos b bpos cnt => overlap a apos.toNat b bpos.toNat cnt.toNat
  | _ => false

theorem overlapOutput_iff (i : Instr) : overlapOutput i = true ↔
    ∃ ns a apos b bpos cnt, i = .copy ns a apos b bpos cnt ∧ a.base = b.base ∧ bpos.toNat ≤ apos.toNat ∧
      apos.toNat < bpos.toNat + cnt.toNat := by
  constructor
  · intro h
    cases i
    case copy => exact ⟨_, _, _, _, _, _, rfl, of_decide_eq_true h⟩
    all_goals cases h
  · rintro ⟨ns, a, apos, b, bpos, cnt, rfl, h⟩
    exact decide_eq_true h

section

variable {bad bus rng al ns ovl : Bool} {empty : Option Word} {r : Word} {a : Buf} {us : List Upd} {w : Work}

theorem checkSequence_writing_ovl (h : checkSequence bad empty bus rng al (fun _ => writing ns ovl a us) = .work w) :
    w.ovl = ovl := by
  obtain ⟨-, -, -, -, -, rfl⟩ := (checkSequence_eq_work ..).1 h
  rfl

theorem checkSequence_readOnly_ovl (h : checkSequence bad empty bus rng al (fun _ => readOnly r) = .work w) :
    w.ovl = false := by
  obtain ⟨-, -, -, -, -, rfl⟩ := (checkSequence_eq_work ..).1 h
  rfl

end

section

variable {i : Instr} {n : Nat} {m : Memory}

/-- The work of a command has the detector's output for it (R221). -/
theorem planOf_ovl {w : Work} (h : planOf i n m = .work w) : w.ovl = overlapOutput i := by
  cases i
  case plen cnt => exact absurd h (planPlen_ne_work cnt w)
  case ulen cnt => exact absurd h (planUlen_ne_work cnt w)
  case setbit | setbits | copy | notb | andb | orb | xorb | andnot | ornot | fill | rev =>
    simp only [planOf, planSetbit, planSetbits, planCopy, planNot, planFill, planUnary, planAnd, planOr, planXor,
      planAndnot, planOrnot, planBinary, planRev] at h
    exact checkSequence_writing_ovl h
  case getbit | getbits | iszero | indexof | lastindexof | card =>
    simp only [planOf, planGetbit, planGetbits, planIszero, planIndexof, planLastindexof, planCard, checkSearch] at h
    exact checkSequence_readOnly_ovl h
  case eqb =>
    obtain ⟨a, b, rfl, rfl, heq⟩ := planEq_eq_work h
    exact checkSequence_readOnly_ovl heq

/-- A command that ends early has an empty range or is no `COPY` (R144). -/
theorem overlapOutput_of_early {r : Word} (h : planOf i n m = .early r) : overlapOutput i = false := by
  cases i
  case copy ns a apos b bpos cnt =>
    rw [planOf, planCopy, checkSequence_eq_early] at h
    obtain ⟨-, hempty⟩ := h
    have hzero : cnt.toNat = 0 := by
      by_contra hne
      rw [(emptyResult_eq_none _ _).2 (Nat.pos_of_ne_zero hne)] at hempty
      cases hempty
    rw [overlapOutput, hzero, overlap_empty]
  all_goals rfl

end

/-- A command that has completed leaves its unit as its plan says but for `RES`, which is any value after a race (R79, R148,
R149). -/
theorem perform_completed {s : State} {x y : UnitState} (p : Plan) (hx : s.units[s.active]? = some x)
    (hbusy : x.busy = true) (hy : (s.perform x p).units[s.active]? = some y) (hidle : y.busy = false) :
    ∃ r, y = { p.unitAfter x with res := r } := by
  have hset : ∀ z : UnitState, (s.units.set s.active z)[s.active]? = some y → y = z := fun z hz =>
    Option.some.inj (hz.symm.trans (State.setUnit_get s _ z x hx))
  cases p with
  | fail e => exact ⟨_, hset _ hy⟩
  | early r => exact ⟨_, hset _ hy⟩
  | work w =>
    obtain ⟨-, h⟩ | ⟨-, -, h⟩ | ⟨-, -, h⟩ := perform_work_cases s x w <;> rw [h] at hy
    · obtain rfl := Option.some.inj (hx.symm.trans hy)
      rw [hbusy] at hidle
      cases hidle
    · exact ⟨_, hset _ hy⟩
    · exact ⟨_, hset _ hy⟩

/-- A plan ends with the flag set exactly when it ends in success and the detector's output is 1 (R148, R149, R221). -/
theorem planOf_unitAfter_ovl_iff (i : Instr) (n : Nat) (m : Memory) (x : UnitState) :
    ((planOf i n m).unitAfter x).ovl = true ↔ ((planOf i n m).unitAfter x).err = 0 ∧ overlapOutput i = true := by
  cases hp : planOf i n m with
  | fail e =>
    obtain ⟨hovl, herr⟩ := raise_status x e
    obtain ⟨hcode, -⟩ := e.code_range
    rw [Plan.unitAfter, hovl, herr]
    exact iff_of_false Bool.false_ne_true fun ⟨hzero, _⟩ => by omega
  | early r =>
    obtain ⟨-, herr, hovl⟩ := done_status x false r
    rw [Plan.unitAfter, hovl, herr, overlapOutput_of_early hp]
    simp
  | work w =>
    obtain ⟨-, herr, hovl⟩ := done_status x w.ovl w.res
    rw [Plan.unitAfter, hovl, herr, planOf_ovl hp]
    simp

/-- Settles O39: the flag is the plan's, raced or not, and a plan has the detector's output for its command. -/
theorem overlapFlagOnlyFromCopy : Obligations.OverlapFlagOnlyFromCopy := by
  intro s t x y i hx hbusy hexec hy hidle
  rw [exec_eq_perform i s x hx] at hexec
  cases hexec
  obtain ⟨r, rfl⟩ := perform_completed _ hx hbusy hy hidle
  rw [← overlapOutput_iff]
  exact planOf_unitAfter_ovl_iff i _ _ x

end Sys2Proof.Machine
end

