-- ==== Sys2Proof/Proofs/Logical.lean ====
section
/-! PROOFS. The logical combinator: what `NOT` (O19), `FILL` (O21) and the five binary commands (O20) make of each bit of their
range, the test of `ISZERO` (O22), and the laws of R249 (O23). -/

namespace Sys2Proof.Machine

/-! ## The checks of one-buffer commands -/

theorem oneBufWellFormed_iff {a : Buf} {apos cnt : Word} : oneBufWellFormed a apos cnt = true ↔
    a.wellFormed = true ∧ apos.isIndex = true ∧ cnt.isIndex = true := by
  simp only [oneBufWellFormed, Bool.and_eq_true, and_assoc]

/-- The checks of a one-buffer command with a count pass on legal operands in memory and in the buffer, unless the range is
empty (R141). -/
theorem checkSequence_oneBuf_passes {a : Buf} {apos cnt : Word} {n : Nat} (hwf : oneBufWellFormed a apos cnt = true)
    (hpos : 0 < cnt.toNat) (hmem : a.InMemory n) (hholds : a.Holds apos.toNat cnt.toNat) (r : Word) (w : Unit → Work) :
    checkSequence (badOneBuf a apos cnt) (emptyResult cnt.toNat r) (offMemory n a) (offBuffer a apos.toNat cnt.toNat)
      false w = .work (w ()) := by
  have hlegal : badOneBuf a apos cnt = false := by rw [badOneBuf_eq, hwf]; rfl
  exact (checkSequence_eq_work ..).2 ⟨hlegal, (emptyResult_eq_none _ _).2 hpos, (offMemory_eq_false n a).2 hmem,
    (offBuffer_eq_false ..).2 hholds, rfl, rfl⟩

/-! ## Commands that combine bit by bit -/

/-- A bit of a word of a range, by its position in the buffer (R60). -/
theorem getLsbD_readWord_eq_bufBit (m : Memory) (base : Nat) {pos w b : Nat} (hb : b < 64) (hlo : pos ≤ 64 * w + b) :
    (m.readWord (base + w)).getLsbD b = m.bufBit base (pos + (64 * w + b - pos)) := by
  have hword : (pos + (64 * w + b - pos)) / 64 = w := by omega
  have hplace : (pos + (64 * w + b - pos)) % 64 = b := by omega
  rw [bufBit_eq, hword, hplace, Memory.bit]

section

variable {s : State} {x : UnitState} {ns : Bool} {a b : Buf} {apos bpos cnt : Word}

/-- A unary command whose word function acts as `f` on each bit does so on each bit of its range (R241, R247). -/
theorem carryOut_planUnary {v : Word → Word} {f : Bool → Bool}
    (hv : ∀ r c, c < 64 → (v r).getLsbD c = f (r.getLsbD c)) (hq : s.Quiet x)
    (hwf : oneBufWellFormed a apos cnt = true) (hmem : a.InMemory s.memWords) (hholds : a.Holds apos.toNat cnt.toNat)
    (hlock : s.LockOpen ns a.base apos.toNat cnt.toNat) :
    ∃ t, carryOut s (planUnary v ns a apos cnt s.memWords s.mem) = .next t ∧
      s.Writes t x false a.base.toNat apos.toNat cnt.toNat
        (fun k => f (s.mem.bufBit a.base.toNat (apos.toNat + k))) := by
  obtain hzero | hpos := Nat.eq_zero_or_pos cnt.toNat
  · have hearly : planUnary v ns a apos cnt s.memWords s.mem = .early 0 :=
      (checkSequence_eq_early ..).2 ⟨by rw [badOneBuf_eq, hwf]; rfl, if_pos hzero⟩
    obtain ⟨hx, -⟩ := hq
    rw [hearly, carryOut_eq s _ x hx, perform_early, hzero]
    exact ⟨_, rfl, writes_nothing ..⟩
  · rw [planUnary, checkSequence_oneBuf_passes hwf hpos hmem hholds]
    refine writes_of_range s x ns false a apos.toNat cnt.toNat _ _ hpos hq hlock fun w c hc hlo _ => ?_
    rw [hv _ c hc, getLsbD_readWord_eq_bufBit _ _ hc hlo]

/-- A binary command whose word function acts as `f` on each bit combines the two ranges by it, both as they were before,
even where they coincide (R240). -/
theorem carryOut_planBinary {op : Word → Word → Word} {f : Bool → Bool → Bool}
    (hop : ∀ r y c, c < 64 → (op r y).getLsbD c = f (r.getLsbD c) (y.getLsbD c)) (hq : s.Quiet x)
    (hwf : twoBufWellFormed a apos b bpos cnt = true) (hmem : a.InMemory s.memWords ∧ b.InMemory s.memWords)
    (hholds : a.Holds apos.toNat cnt.toNat ∧ b.Holds bpos.toNat cnt.toNat)
    (hclash : ¬ (BuffersClash a b ∨ RangesClash a apos b bpos cnt))
    (hlock : s.LockOpen ns a.base apos.toNat cnt.toNat) :
    ∃ t, carryOut s (planBinary op ns a apos b bpos cnt s.memWords s.mem) = .next t ∧
      s.Writes t x false a.base.toNat apos.toNat cnt.toNat (fun k =>
        f (s.mem.bufBit a.base.toNat (apos.toNat + k)) (s.mem.bufBit b.base.toNat (bpos.toNat + k))) := by
  obtain hzero | hpos := Nat.eq_zero_or_pos cnt.toNat
  · have hearly : planBinary op ns a apos b bpos cnt s.memWords s.mem = .early 0 :=
      (checkSequence_eq_early ..).2 ⟨by rw [badTwoBuf_eq, hwf]; rfl, if_pos hzero⟩
    obtain ⟨hx, -⟩ := hq
    rw [hearly, carryOut_eq s _ x hx, perform_early, hzero]
    exact ⟨_, rfl, writes_nothing ..⟩
  · rw [planBinary, checkSequence_twoBuf_passes hwf hpos hmem hholds (mt (aliasLogic_iff ..).1 hclash)]
    refine writes_of_range s x ns false a apos.toNat cnt.toNat _ _ hpos hq hlock fun w c hc hlo hhi => ?_
    rw [hop _ _ c hc, getLsbD_readWord_eq_bufBit _ _ hc hlo, getLsbD_window s.mem hholds.2 hc hlo hhi]

end

/-- The complement of a word, on one of its own bits. -/
theorem getLsbD_not_of_lt (r : Word) {c : Nat} (hc : c < 64) : (~~~r).getLsbD c = !r.getLsbD c := by
  rw [BitVec.getLsbD_not, decide_eq_true hc, Bool.true_and]

/-- Settles O19: the complement of a word inverts each of its bits. -/
theorem notInvertsTheRange : Obligations.NotInvertsTheRange := fun _ _ _ _ _ _ =>
  carryOut_planUnary fun r _ => getLsbD_not_of_lt r

/-- Settles O21: the word of `FILL` has `V` in every bit, whatever the old word. -/
theorem fillSetsTheRange : Obligations.FillSetsTheRange := fun _ _ _ v _ _ _ =>
  carryOut_planUnary (f := fun _ => v) fun _ _ => getLsbD_ite_allOnes v

/-- Settles O20: each of the five word functions acts bit by bit. -/
theorem binaryCommandsCombineTheRanges : Obligations.BinaryCommandsCombineTheRanges := by
  intro s x ns a apos b bpos cnt hq hwf ha hb hdst hsrc hbufs hranges hlock
  have combine {op : Word → Word → Word} {f : Bool → Bool → Bool}
      (hop : ∀ r y c, c < 64 → (op r y).getLsbD c = f (r.getLsbD c) (y.getLsbD c)) :=
    carryOut_planBinary hop hq hwf ⟨ha, hb⟩ ⟨hdst, hsrc⟩ (not_or.2 ⟨hbufs, hranges⟩) hlock
  refine ⟨combine fun r y c _ => ?and, combine fun r y c _ => ?or, combine fun r y c _ => ?xor,
    combine (f := fun p q => p && !q) fun r y c hc => ?andnot, combine (f := fun p q => p || !q) fun r y c hc => ?ornot⟩
  case and => exact BitVec.getLsbD_and
  case or => exact BitVec.getLsbD_or
  case xor => exact BitVec.getLsbD_xor
  case andnot => rw [BitVec.getLsbD_and, getLsbD_not_of_lt y hc]
  case ornot => rw [BitVec.getLsbD_or, getLsbD_not_of_lt y hc]

/-! ## `ISZERO` -/

theorem boolWord_eq_zero_or_one (b : Bool) : boolWord b = 0 ∨ boolWord b = 1 := by
  cases b
  · exact .inl rfl
  · exact .inr rfl

theorem boolWord_eq_one_iff (b : Bool) : boolWord b = 1 ↔ b = true := by cases b <;> decide

/-- The scan finds no set bit exactly when the range has none (R248): the words of the range hold all its bits, and the masks
no other. -/
theorem rangeZero_iff (m : Memory) (base pos n : Nat) :
    rangeZero m base pos n = true ↔ ∀ k, k < n → m.bufBit base (pos + k) = false := by
  simp only [rangeZero, List.all_eq_true, beq_iff_eq, BitVec.ofNat_eq_ofNat]
  constructor
  · intro h k hk
    have hmask : (wordMask pos n ((pos + k) / 64)).getLsbD ((pos + k) % 64) = true := by
      rw [getLsbD_wordMask, decide_eq_true_eq]
      omega
    have hword := h _ (div_mem_rangeWords pos n (pos + k) (by omega) (by omega))
    have hbit := congrArg (BitVec.getLsbD · ((pos + k) % 64)) hword
    rw [bufBit_eq, Memory.bit]
    rwa [BitVec.getLsbD_and, hmask, Bool.and_true, BitVec.getLsbD_zero] at hbit
  · intro h w _
    refine BitVec.eq_of_getLsbD_eq fun b hb => ?_
    rw [BitVec.getLsbD_and, getLsbD_wordMask, BitVec.getLsbD_zero]
    by_cases hin : b < 64 ∧ pos ≤ 64 * w + b ∧ 64 * w + b < pos + n
    · obtain ⟨-, hlo, hhi⟩ := hin
      rw [getLsbD_readWord_eq_bufBit m base hb hlo, h _ (by omega), Bool.false_and]
    · rw [decide_eq_false hin, Bool.and_false]

/-- An undisturbed `ISZERO` on legal operands; the scan of an empty range gives the neutral result 1 (R144, R248). -/
theorem exec_iszero {s : State} {x : UnitState} {a : Buf} {apos cnt : Word} (hq : s.Quiet x)
    (hwf : (Instr.iszero a apos cnt).wellFormed = true) (hmem : a.InMemory s.memWords)
    (hholds : a.Holds apos.toNat cnt.toNat) :
    exec (.iszero a apos cnt) s = .next (s.setUnit s.active
      (x.done false (boolWord (rangeZero s.mem a.base.toNat apos.toNat cnt.toNat)))) := by
  obtain hzero | hpos := Nat.eq_zero_or_pos cnt.toNat
  · have hnone : rangeZero s.mem a.base.toNat apos.toNat cnt.toNat = true :=
      (rangeZero_iff ..).2 fun k hk => absurd hk (by omega)
    obtain ⟨hx, -⟩ := hq
    rw [hnone]
    exact exec_of_early hx (planOf_of_empty _ _ hwf (congrArg some hzero))
  · refine exec_of_readOnly hq ?_
    rw [planOf, planIszero, checkSequence_oneBuf_passes hwf hpos hmem hholds]

/-- Settles O22: the scan, bit by bit. -/
theorem iszeroTestsTheRange : Obligations.IszeroTestsTheRange :=
  fun _ _ _ _ _ hq hwf hmem hholds =>
    ⟨_, exec_iszero hq hwf hmem hholds, boolWord_eq_zero_or_one _, (boolWord_eq_one_iff _).trans (rangeZero_iff ..)⟩

/-! ## The laws -/

/-- A later completion writes over all that an earlier one wrote (R148, R149). -/
theorem done_done (x : UnitState) (o o' : Bool) (r r' : Word) : (x.done o r).done o' r' = x.done o' r' := rfl

section

variable {s t : State} {x : UnitState} {ovl : Bool} {pos n : Nat} {bit : Nat → Bool}

theorem State.Writes.bufBit {base k : Nat} (h : s.Writes t x ovl base pos n bit) (hk : k < n) :
    t.mem.bufBit base (pos + k) = bit k := by
  obtain ⟨-, hrange, -⟩ := h
  exact hrange k hk

/-- Writing to a buffer leaves the bits of a buffer apart from it (R62). -/
theorem State.Writes.bufBit_of_apart {a c : Buf} (h : s.Writes t x ovl c.base.toNat pos n bit) (hapart : Apart a c)
    (hholds : c.Holds pos n) {p : Nat} (hp : p < 64 * a.len.toNat) :
    t.mem.bufBit a.base.toNat p = s.mem.bufBit a.base.toNat p := by
  obtain ⟨-, -, hkept⟩ := h
  have hb : p % 64 < 64 := Nat.mod_lt _ (by decide)
  exact hkept _ _ hb (hapart.not_inRange hholds (by omega) hb)

/-- The values of a range may be said in any way. -/
theorem State.Writes.congr {base : Nat} {bit' : Nat → Bool} (h : s.Writes t x ovl base pos n bit)
    (hbits : ∀ k, k < n → bit k = bit' k) : s.Writes t x ovl base pos n bit' := by
  obtain ⟨ht, hrange, hkept⟩ := h
  exact ⟨ht, fun k hk => (hrange k hk).trans (hbits k hk), hkept⟩

/-- Of two commands of one unit that write the same range one after the other, only the second leaves a trace. -/
theorem State.Writes.overwrite {u : State} {ovl' : Bool} {base : Nat} {bit' : Nat → Bool}
    (h : s.Writes t x ovl base pos n bit) (h' : t.Writes u (x.done ovl 0) ovl' base pos n bit') :
    s.Writes u x ovl' base pos n bit' := by
  obtain ⟨ht, -, hkept⟩ := h
  obtain ⟨hu, hrange, hkept'⟩ := h'
  refine ⟨?_, hrange, fun c b hb hout => (hkept' c b hb hout).trans (hkept c b hb hout)⟩
  rw [ht, State.setUnit] at hu
  simpa only [State.setUnit, List.set_set, done_done] using hu

end

theorem not_rangesClash_self (a : Buf) (p n : Word) : ¬ RangesClash a p a p n := fun ⟨_, hne, _⟩ => hne rfl

theorem Apart.not_rangesClash {a b : Buf} (h : Apart a b) (p q n : Word) : ¬ RangesClash a p b q n :=
  fun ⟨hbase, _⟩ => h.1 hbase

section

variable {s : State} {x : UnitState} {ns : Bool} {a b c : Buf} {apos bpos cpos cnt : Word}

/-- `COPY` to a range and `NOT` of it there leave an inverted copy of the source range and no other trace. -/
theorem exec_copy_then_not (hq : s.Quiet x) (hwf : (Instr.copy ns c cpos b bpos cnt).wellFormed = true)
    (hc : c.InMemory s.memWords) (hb : b.InMemory s.memWords) (hdst : c.Holds cpos.toNat cnt.toNat)
    (hsrc : b.Holds bpos.toNat cnt.toNat) (hclash : ¬ BuffersClash c b)
    (hlock : s.LockOpen ns c.base cpos.toNat cnt.toNat) :
    ∃ t u, exec (.copy ns c cpos b bpos cnt) s = .next t ∧ exec (.notb ns c cpos cnt) t = .next u ∧
      s.Writes u x false c.base.toNat cpos.toNat cnt.toNat
        (fun k => !s.mem.bufBit b.base.toNat (bpos.toNat + k)) := by
  obtain ⟨hwfc, hcpos, -, -, hcnt⟩ := twoBufWellFormed_iff.1 hwf
  obtain ⟨t, ht, hcopy⟩ := copyMovesTheRange s x ns c cpos b bpos cnt hq hwf hc hb hdst hsrc hclash hlock
  obtain ⟨u, hu, hnot⟩ := notInvertsTheRange t _ ns c cpos cnt (hcopy.quiet hq.1)
    (oneBufWellFormed_iff.2 ⟨hwfc, hcpos, hcnt⟩) (hcopy.memWords_eq ▸ hc) hdst ((hcopy.lockOpen_iff ..).2 hlock)
  refine ⟨t, u, ht, hu, hcopy.overwrite (hnot.congr fun k hk => ?_)⟩
  rw [hcopy.bufBit hk]

/-- `ANDNOT` gives its range what `AND` with an inverted copy of the source in a scratch buffer gives it (R249 (a)). -/
theorem andnot_eq_and_of_inverted_copy (hq : s.Quiet x) (hwf : (Instr.andnot ns a apos b bpos cnt).wellFormed = true)
    (hwfc : (Instr.notb ns c cpos cnt).wellFormed = true) (ha : a.InMemory s.memWords) (hb : b.InMemory s.memWords)
    (hc : c.InMemory s.memWords) (hdst : a.Holds apos.toNat cnt.toNat) (hsrc : b.Holds bpos.toNat cnt.toNat)
    (hscratch : c.Holds cpos.toNat cnt.toNat) (hbufs : ¬ BuffersClash a b) (hranges : ¬ RangesClash a apos b bpos cnt)
    (hca : Apart c a) (hcb : Apart c b) (hlock : s.LockOpen ns a.base apos.toNat cnt.toNat)
    (hlockc : s.LockOpen ns c.base cpos.toNat cnt.toNat) :
    ∃ t, exec (.andnot ns a apos b bpos cnt) s = .next t ∧
      ∃ t₁ t₂ t₃, exec (.copy ns c cpos b bpos cnt) s = .next t₁ ∧ exec (.notb ns c cpos cnt) t₁ = .next t₂ ∧
        exec (.andb ns a apos c cpos cnt) t₂ = .next t₃ ∧
        ∀ k, k < cnt.toNat →
          t.mem.bufBit a.base.toNat (apos.toNat + k) = t₃.mem.bufBit a.base.toNat (apos.toNat + k) := by
  obtain ⟨hwfa, hapos, hwfb, hbpos, hcnt⟩ := twoBufWellFormed_iff.1 hwf
  obtain ⟨hwfc, hcpos, -⟩ := oneBufWellFormed_iff.1 hwfc
  obtain ⟨-, -, -, ⟨t, ht, handnot⟩, -⟩ :=
    binaryCommandsCombineTheRanges s x ns a apos b bpos cnt hq hwf ha hb hdst hsrc hbufs hranges hlock
  obtain ⟨t₁, t₂, hcopy, hnot, hinverted⟩ :=
    exec_copy_then_not hq (twoBufWellFormed_iff.2 ⟨hwfc, hcpos, hwfb, hbpos, hcnt⟩) hc hb hscratch hsrc
      hcb.not_buffersClash hlockc
  have hwords := hinverted.memWords_eq
  obtain ⟨⟨t₃, ht₃, hand⟩, -⟩ :=
    binaryCommandsCombineTheRanges t₂ _ ns a apos c cpos cnt (hinverted.quiet hq.1)
      (twoBufWellFormed_iff.2 ⟨hwfa, hapos, hwfc, hcpos, hcnt⟩) (hwords ▸ ha) (hwords ▸ hc) hdst hscratch
      hca.symm.not_buffersClash (hca.symm.not_rangesClash _ _ _) ((hinverted.lockOpen_iff ..).2 hlock)
  refine ⟨t, ht, t₁, t₂, t₃, hcopy, hnot, ht₃, fun k hk => ?_⟩
  have hkept : t₂.mem.bufBit a.base.toNat (apos.toNat + k) = s.mem.bufBit a.base.toNat (apos.toNat + k) :=
    hinverted.bufBit_of_apart hca.symm hscratch (by unfold Buf.Holds at hdst; omega)
  rw [handnot.bufBit hk, hand.bufBit hk, hkept, hinverted.bufBit hk]

/-- `NOT` twice restores memory (R249 (d)). -/
theorem not_not_restores (hq : s.Quiet x) (hwf : (Instr.notb ns a apos cnt).wellFormed = true)
    (ha : a.InMemory s.memWords) (hdst : a.Holds apos.toNat cnt.toNat)
    (hlock : s.LockOpen ns a.base apos.toNat cnt.toNat) :
    ∃ t t', exec (.notb ns a apos cnt) s = .next t ∧ exec (.notb ns a apos cnt) t = .next t' ∧
      ∀ w, t'.mem.readWord w = s.mem.readWord w := by
  obtain ⟨t, ht, hfirst⟩ := notInvertsTheRange s x ns a apos cnt hq hwf ha hdst hlock
  obtain ⟨t', ht', hsecond⟩ := notInvertsTheRange t _ ns a apos cnt (hfirst.quiet hq.1) hwf (hfirst.memWords_eq ▸ ha) hdst
    ((hfirst.lockOpen_iff ..).2 hlock)
  refine ⟨t, t', ht, ht', (hfirst.overwrite hsecond).readWord_of_same fun k hk => ?_⟩
  rw [hfirst.bufBit hk, Bool.not_not]

end

/-- Settles O23: (a) and (d) by the lemmas above, (b) and (c) from `p ^^ p = false` and `p || !p = true` on each bit. -/
theorem logicalLawsHold : Obligations.LogicalLawsHold := by
  intro s x ns a apos b bpos c cpos cnt hq hwf hwfc ha hb hc hdst hsrc hscratch hbufs hranges hca hcb hlock hlockc
  obtain ⟨hwfa, hapos, -, -, hcnt⟩ := twoBufWellFormed_iff.1 hwf
  obtain ⟨-, -, ⟨t, ht, hxor⟩, -, ⟨u, hu, hornot⟩⟩ :=
    binaryCommandsCombineTheRanges s x ns a apos a apos cnt hq
      (twoBufWellFormed_iff.2 ⟨hwfa, hapos, hwfa, hapos, hcnt⟩) ha ha hdst hdst (not_buffersClash_self a)
      (not_rangesClash_self a apos cnt) hlock
  refine ⟨?copied, ⟨t, ht, fun k hk => ?xor⟩, ⟨u, hu, fun k hk => ?ornot⟩, ?twice⟩
  case copied =>
    exact andnot_eq_and_of_inverted_copy hq hwf hwfc ha hb hc hdst hsrc hscratch hbufs hranges hca hcb hlock hlockc
  case xor => rw [hxor.bufBit hk, Bool.xor_self]
  case ornot => rw [hornot.bufBit hk, Bool.or_not_self]
  case twice => exact not_not_restores hq (oneBufWellFormed_iff.2 ⟨hwfa, hapos, hcnt⟩) ha hdst hlock

end Sys2Proof.Machine
end

