-- ==== Sys2Proof/Proofs/Reversal.lean ====
section
/-! PROOFS. Reversal: what `REV` makes of its range (O24), the comparison of `EQ` bit by bit, and that `REV` twice gives back
a range that `EQ` finds equal to the first (O25). -/

namespace Sys2Proof.Machine

/-! ## `REV` -/

/-- Buffers that are apart pass the check of `REV` (R147 (a), (b)). -/
theorem Apart.not_aliasRev {a b : Buf} (h : Apart a b) : ¬ aliasRev a b = true := by
  rw [aliasRev_iff, not_or]
  exact ⟨h.not_buffersClash, h.1⟩

/-- Settles O24: an empty range leaves nothing to write; for any other, each destination word gets its reversed window. -/
theorem revReversesTheRange : Obligations.RevReversesTheRange := by
  intro s x ns a apos b bpos cnt hq hwf ha hb hdst hsrc hapart hlock
  obtain hzero | hpos := Nat.eq_zero_or_pos cnt.toNat
  · obtain ⟨hx, -⟩ := hq
    rw [hzero]
    exact ⟨_, exec_of_early hx (planOf_of_empty _ _ hwf (congrArg some hzero)), writes_nothing ..⟩
  · rw [exec_eq_carryOut, planOf, planRev,
      checkSequence_twoBuf_passes hwf hpos ⟨ha, hb⟩ ⟨hdst, hsrc⟩ hapart.not_aliasRev]
    refine writes_of_range s x ns false a apos.toNat cnt.toNat _ _ hpos hq hlock fun w c hc hlo hhi => ?_
    rw [getLsbD_revWindow s.mem hsrc hc hlo hhi]
    congr 1
    omega

/-! ## `EQ` -/

/-- A masked scan finds only zeros exactly when every bit of the range is clear in its word (R150): the words of the range
hold all its bits, and the masks no other. -/
theorem rangeWords_all_masked_zero_iff (pos n : Nat) (v : Nat → Word) :
    ((rangeWords pos n).all fun w => v w &&& wordMask pos n w == 0) = true ↔
      ∀ k, k < n → (v ((pos + k) / 64)).getLsbD ((pos + k) % 64) = false := by
  simp only [List.all_eq_true, beq_iff_eq, BitVec.ofNat_eq_ofNat]
  constructor
  · intro h k hk
    have hmask : (wordMask pos n ((pos + k) / 64)).getLsbD ((pos + k) % 64) = true := by
      rw [getLsbD_wordMask, decide_eq_true_eq]
      omega
    have hbit := congrArg (BitVec.getLsbD · ((pos + k) % 64))
      (h _ (div_mem_rangeWords pos n (pos + k) (by omega) (by omega)))
    rwa [BitVec.getLsbD_and, hmask, Bool.and_true, BitVec.getLsbD_zero] at hbit
  · intro h w _
    refine BitVec.eq_of_getLsbD_eq fun b hb => ?_
    rw [BitVec.getLsbD_and, getLsbD_wordMask, BitVec.getLsbD_zero]
    by_cases hin : b < 64 ∧ pos ≤ 64 * w + b ∧ 64 * w + b < pos + n
    · have hword : (pos + (64 * w + b - pos)) / 64 = w := by omega
      have hplace : (pos + (64 * w + b - pos)) % 64 = b := by omega
      have hclear := h (64 * w + b - pos) (by omega)
      rw [hword, hplace] at hclear
      rw [hclear, Bool.false_and]
    · rw [decide_eq_false hin, Bool.and_false]

/-- The comparator's output is the equality of the two ranges, bit by bit (R300, R301). -/
theorem rangesEqual_iff (m : Memory) (a : Buf) (apos : Nat) {b : Buf} {bpos n : Nat} (hb : b.Holds bpos n) :
    rangesEqual m a apos b bpos n = true ↔
      ∀ k, k < n → m.bufBit a.base.toNat (apos + k) = m.bufBit b.base.toNat (bpos + k) := by
  rw [rangesEqual, rangeWords_all_masked_zero_iff]
  refine forall₂_congr fun k hk => ?_
  have hsource : bpos + (64 * ((apos + k) / 64) + (apos + k) % 64 - apos) = bpos + k := by omega
  rw [BitVec.getLsbD_xor, bne_eq_false_iff_eq,
    getLsbD_window m hb (Nat.mod_lt _ (by decide)) (by omega) (by omega), hsource]
  exact Iff.rfl

/-- An undisturbed `EQ` of two present buffers on legal operands gives the comparator's output, which is 1 in the cases that
end before the scan: one buffer at one position, and an empty range (R144, R300). -/
theorem exec_eqb {s : State} {x : UnitState} {a : Buf} {apos : Word} {b : Buf} {bpos cnt : Word} (hq : s.Quiet x)
    (hwf : (Instr.eqb (some a) apos (some b) bpos cnt).wellFormed = true) (ha : a.InMemory s.memWords)
    (hb : b.InMemory s.memWords) (hdst : a.Holds apos.toNat cnt.toNat) (hsrc : b.Holds bpos.toNat cnt.toNat) :
    exec (.eqb (some a) apos (some b) bpos cnt) s = .next (s.setUnit s.active
      (x.done false (boolWord (rangesEqual s.mem a apos.toNat b bpos.toNat cnt.toNat)))) := by
  by_cases hsame : a.base = b.base ∧ apos = bpos
  · have hequal : rangesEqual s.mem a apos.toNat b bpos.toNat cnt.toNat = true := by
      obtain ⟨hbase, hpos⟩ := hsame
      rw [rangesEqual_iff s.mem a apos.toNat hsrc, hbase, hpos]
      exact fun _ _ => rfl
    rw [hequal]
    exact exec_of_early hq.1 (planOf_of_same _ _ hwf hsame)
  obtain hzero | hpos := Nat.eq_zero_or_pos cnt.toNat
  · have hequal : rangesEqual s.mem a apos.toNat b bpos.toNat cnt.toNat = true :=
      (rangesEqual_iff s.mem a apos.toNat hsrc).2 fun k hk => absurd hk (by omega)
    rw [hequal]
    exact exec_of_early hq.1 (planOf_of_empty _ _ hwf (congrArg some hzero))
  · refine exec_of_readOnly hq ?_
    rw [planOf, planEq_present _ _ hsame, hwf]
    exact (checkSequence_eq_work ..).2 ⟨rfl, (emptyResult_eq_none _ _).2 hpos, (offMemory2_eq_false ..).2 ⟨ha, hb⟩,
      (offBuffer2_eq_false ..).2 ⟨hdst, hsrc⟩, rfl, rfl⟩

/-! ## `REV` twice -/

/-- Reversing a reversed range gives each bit back its place (R272). -/
theorem State.Writes.bufBit_rev_rev {s t u : State} {x y : UnitState} {p q n base k : Nat} {b c : Buf}
    (h : s.Writes t x false b.base.toNat q n (fun k => s.mem.bufBit base (p + n - 1 - k)))
    {r : Nat} (h' : t.Writes u y false c.base.toNat r n (fun k => t.mem.bufBit b.base.toNat (q + n - 1 - k)))
    (hk : k < n) : u.mem.bufBit c.base.toNat (r + k) = s.mem.bufBit base (p + k) := by
  have hmirror : q + n - 1 - k = q + (n - 1 - k) := by omega
  have hback : p + n - 1 - (n - 1 - k) = p + k := by omega
  calc u.mem.bufBit c.base.toNat (r + k)
      = t.mem.bufBit b.base.toNat (q + (n - 1 - k)) := by rw [h'.bufBit hk, hmirror]
    _ = s.mem.bufBit base (p + k) := by rw [h.bufBit (show n - 1 - k < n by omega), hback]

/-- Settles O25: the second scratch buffer holds the bits of the first range, which neither command has touched. -/
theorem revTwiceGivesTheRangeBack : Obligations.RevTwiceGivesTheRangeBack := by
  intro s x ns a apos b bpos c cpos n hq hwfto hwffrom ha hb hc hholda hholdb hholdc hba hca hcb hlockb hlockc
  obtain ⟨-, -, hwfa, hapos, hn⟩ := twoBufWellFormed_iff.1 hwfto
  obtain ⟨hwfc, hcpos, -⟩ := twoBufWellFormed_iff.1 hwffrom
  obtain ⟨t, ht, hto⟩ := revReversesTheRange s x ns b bpos a apos n hq hwfto hb ha hholdb hholda hba hlockb
  have hquiet := hto.quiet hq.1
  have hwords := hto.memWords_eq
  obtain ⟨u, hu, hfrom⟩ := revReversesTheRange t _ ns c cpos b bpos n hquiet hwffrom (hwords ▸ hc) (hwords ▸ hb)
    hholdc hholdb hcb ((hto.lockOpen_iff ..).2 hlockc)
  have hquiet' := hfrom.quiet hquiet.1
  have hwords' := hfrom.memWords_eq.trans hwords
  have hequal : rangesEqual u.mem a apos.toNat c cpos.toNat n.toNat = true := by
    refine (rangesEqual_iff u.mem a apos.toNat hholdc).2 fun k hk => ?_
    have hin : apos.toNat + k < 64 * a.len.toNat := by unfold Buf.Holds at hholda; omega
    rw [hfrom.bufBit_of_apart hca.symm hholdc hin, hto.bufBit_of_apart hba.symm hholdb hin, hto.bufBit_rev_rev hfrom hk]
  have heq := exec_eqb hquiet' (twoBufWellFormed_iff.2 ⟨hwfa, hapos, hwfc, hcpos, hn⟩) (hwords' ▸ ha) (hwords' ▸ hc)
    hholda hholdc
  rw [hequal] at heq
  exact ⟨t, u, _, ht, hu, hquiet'.1, heq⟩

end Sys2Proof.Machine
end

