-- ==== Sys2Proof/Proofs/Search.lean ====
section
/-! PROOFS. Search and count: what the two scans find, `INDEXOF` (O26) and `LASTINDEXOF` (O27); what the masked population
counts add up to, `CARD` (O28); and that the searches agree with the count and with `GETBIT` (O29). -/

namespace Sys2Proof.Machine

/-! ## Matching positions -/

/-- Position `p` of the buffer lies in the range and its bit equals `v` (R280). -/
abbrev RangeMatch (m : Memory) (base pos n : Nat) (v : Bool) (p : Nat) : Prop :=
  pos ≤ p ∧ p < pos + n ∧ m.bufBit base p = v

/-- The bits of a word that a scan looks at are the matching positions of the range that lie in the word (R280). -/
theorem getLsbD_matchBits_iff (m : Memory) (base pos n : Nat) (v : Bool) (w : Nat) {b : Nat} (hb : b < 64) :
    (matchBits m base pos n v w).getLsbD b = true ↔ RangeMatch m base pos n v (64 * w + b) := by
  have hword : (64 * w + b) / 64 = w := by omega
  have hplace : (64 * w + b) % 64 = b := by omega
  rw [matchBits, BitVec.getLsbD_and, getLsbD_wordMask, Bool.and_eq_true, decide_eq_true_eq, RangeMatch, bufBit_eq, hword,
    hplace, Memory.bit]
  cases v
  · rw [if_neg (by decide), getLsbD_not_of_lt _ hb, Bool.not_eq_true']
    tauto
  · rw [if_pos rfl]
    tauto

/-- A matching position shows in its own word, which a scan visits (R150). -/
theorem RangeMatch.mem_word {m : Memory} {base pos n : Nat} {v : Bool} {p : Nat} (h : RangeMatch m base pos n v p) :
    p / 64 ∈ rangeWords pos n ∧ (matchBits m base pos n v (p / 64)).getLsbD (p % 64) = true := by
  have ⟨hlo, hhi, _⟩ := h
  refine ⟨div_mem_rangeWords pos n p hlo hhi, (getLsbD_matchBits_iff m base pos n v _ (Nat.mod_lt _ (by decide))).2 ?_⟩
  rwa [Nat.div_add_mod]

/-! ## What a scan finds -/

/-- The position `r` is the first of those satisfying `P` in the order `le`, or there is none: `le` is `≤` for the
ascending scan and `≥` for the descending one. -/
def IsFirst (P : Nat → Prop) (le : Nat → Nat → Prop) : Option Nat → Prop
  | none => ∀ p, ¬ P p
  | some r => P r ∧ ∀ p, P p → le r p

/-- A search through words, in the order `before`, for the first that is not zero. -/
theorem findSome?_nonzero_cases {ws : List Nat} {before : Nat → Nat → Prop} (hws : ws.Pairwise before)
    (bits : Nat → Word) (place : Nat → Nat) :
    (ws.findSome? (fun w => if bits w = 0 then none else some (place w)) = none ∧ ∀ w ∈ ws, bits w = 0) ∨
      ∃ w, ws.findSome? (fun w => if bits w = 0 then none else some (place w)) = some (place w) ∧ bits w ≠ 0 ∧
        ∀ w' ∈ ws, bits w' ≠ 0 → w' = w ∨ before w w' := by
  induction hws with
  | nil => exact .inl ⟨rfl, nofun⟩
  | @cons w ws hfirst _ ih =>
    by_cases hw : bits w = 0
    · rw [List.findSome?_cons_of_isNone (by simp [hw])]
      obtain ⟨hnone, hzero⟩ | ⟨u, hsome, hu, hbest⟩ := ih
      · exact .inl ⟨hnone, List.forall_mem_cons.2 ⟨hw, hzero⟩⟩
      · exact .inr ⟨u, hsome, hu, List.forall_mem_cons.2 ⟨fun h => absurd hw h, hbest⟩⟩
    · refine .inr ⟨w, by rw [List.findSome?_cons, if_neg hw], hw, List.forall_mem_cons.2 ⟨fun _ => .inl rfl, ?_⟩⟩
      exact fun w' hw' _ => .inr (hfirst w' hw')

/-- A scan of the words of a range in an order of positions, that picks in a word the first of its bits in that order,
finds the first matching position in that order. -/
theorem scan_isFirst {m : Memory} {base pos n : Nat} {v : Bool} {le : Nat → Nat → Prop} {ws : List Nat}
    {place : Nat → Nat} (hmem : ∀ w, w ∈ rangeWords pos n → w ∈ ws)
    (hws : ws.Pairwise fun w w' => ∀ b < 64, ∀ c < 64, le (64 * w + b) (64 * w' + c))
    (hplace : ∀ w, matchBits m base pos n v w ≠ 0 → ∃ b < 64, place w = 64 * w + b ∧
      (matchBits m base pos n v w).getLsbD b = true ∧
      ∀ c < 64, (matchBits m base pos n v w).getLsbD c = true → le (64 * w + b) (64 * w + c)) :
    IsFirst (RangeMatch m base pos n v) le
      (ws.findSome? fun w => if matchBits m base pos n v w = 0 then none else some (place w)) := by
  obtain ⟨hnone, hzero⟩ | ⟨w, hsome, hw, hbest⟩ := findSome?_nonzero_cases hws (matchBits m base pos n v) place
  · rw [hnone]
    intro p hp
    obtain ⟨hin, hbit⟩ := hp.mem_word
    rw [hzero _ (hmem _ hin)] at hbit
    simp at hbit
  · obtain ⟨b, hb, hpl, hset, hlow⟩ := hplace w hw
    rw [hsome, hpl]
    refine ⟨(getLsbD_matchBits_iff m base pos n v w hb).1 hset, fun p hp => ?_⟩
    obtain ⟨hin, hbit⟩ := hp.mem_word
    have hplt : p % 64 < 64 := Nat.mod_lt _ (by decide)
    have hne : matchBits m base pos n v (p / 64) ≠ 0 := fun h => by rw [h] at hbit; simp at hbit
    rw [← Nat.div_add_mod p 64]
    obtain heq | hlt := hbest _ (hmem _ hin) hne
    · rw [heq] at hbit ⊢
      exact hlow _ hplt hbit
    · exact hlt b hb _ hplt

/-- The ascending scan finds the lowest match (R280). -/
theorem firstMatch_isFirst (m : Memory) (base pos n : Nat) (v : Bool) :
    IsFirst (RangeMatch m base pos n v) (· ≤ ·) (firstMatch m base pos n v) := by
  refine scan_isFirst (fun _ => id) ?_ fun w hw => ⟨_, ctz64_lt hw, rfl, getLsbD_ctz64 hw, fun c _ hc => ?_⟩
  · exact (List.pairwise_lt_range' 1).imp fun hlt b hb c hc => by omega
  · by_contra hlt
    rw [getLsbD_of_lt_ctz64 (by omega)] at hc
    cases hc

/-- The descending scan finds the highest match (R281). -/
theorem lastMatch_isFirst (m : Memory) (base pos n : Nat) (v : Bool) :
    IsFirst (RangeMatch m base pos n v) (· ≥ ·) (lastMatch m base pos n v) := by
  refine scan_isFirst (fun _ => List.mem_reverse.2) ?_ fun w hw =>
    ⟨63 - clz64 (matchBits m base pos n v w), by omega, ?_, getLsbD_clz64 hw, fun c hc hset => ?_⟩
  · exact List.pairwise_reverse.2 ((List.pairwise_lt_range' 1).imp fun hlt b hb c hc => by omega)
  · have := clz64_lt hw
    omega
  · by_contra hlt
    have hmirror : c = 63 - (63 - c) := by omega
    rw [hmirror, getLsbD_of_lt_clz64 (by omega)] at hset
    cases hset

/-! ## The result word of a search -/

theorem toNat_natWord {k : Nat} (h : k < 2 ^ 63) : (natWord k).toNat = k := by
  rw [natWord, BitVec.toNat_ofNat, Nat.mod_eq_of_lt (by omega)]

section

variable {P : Nat → Prop} {le : Nat → Nat → Prop} {r : Option Nat} (h : IsFirst P le r)
  (hindex : ∀ p, P p → p < 2 ^ 63)

include h hindex

/-- What a search answers (R35, R280, R281): −1 when nothing matches, else an index, which is not −1. -/
theorem IsFirst.indexWord_cases :
    (indexWord r = 0xFFFFFFFFFFFFFFFF ∧ ∀ p, ¬ P p) ∨
      (indexWord r ≠ 0xFFFFFFFFFFFFFFFF ∧ P (indexWord r).toNat ∧ ∀ p, P p → le (indexWord r).toNat p) := by
  cases r with
  | none => exact .inl ⟨rfl, h⟩
  | some k =>
    obtain ⟨hk, hbest⟩ := h
    have hnat : (indexWord (some k)).toNat = k := toNat_natWord (hindex k hk)
    have hlast : (0xFFFFFFFFFFFFFFFF : Word).toNat = 2 ^ 64 - 1 := rfl
    refine .inr ⟨fun hall => ?_, hnat.symm ▸ hk, hnat.symm ▸ hbest⟩
    have := hindex k hk
    rw [hall] at hnat
    omega

theorem IsFirst.indexWord_eq_allOnes_iff : indexWord r = 0xFFFFFFFFFFFFFFFF ↔ ∀ p, ¬ P p := by
  obtain ⟨hall, hnone⟩ | ⟨hne, hmatch, -⟩ := h.indexWord_cases hindex
  · exact iff_of_true hall hnone
  · exact iff_of_false hne fun hnone => hnone _ hmatch

/-- The answer is the one position that is first. -/
theorem IsFirst.toNat_indexWord (hanti : ∀ p q, le p q → le q p → p = q) {p : Nat} (hp : P p)
    (hbest : ∀ q, P q → le p q) : (indexWord r).toNat = p := by
  obtain ⟨-, hnone⟩ | ⟨-, hmatch, hfirst⟩ := h.indexWord_cases hindex
  · exact absurd hp (hnone p)
  · exact hanti _ _ (hfirst p hp) (hbest _ hmatch)

end

/-! ## The count -/

/-- A masked population count is the number of matches in its word (R282). -/
theorem popcount64_matchBits (m : Memory) (base pos n : Nat) (v : Bool) (w : Nat) :
    popcount64 (matchBits m base pos n v w) = Nat.count (fun b => RangeMatch m base pos n v (64 * w + b)) 64 :=
  List.countP_congr fun b hb => by
    rw [getLsbD_matchBits_iff m base pos n v w (List.mem_range.1 hb), decide_eq_true_eq]

/-- Counts over consecutive words add up to the count over their bits. -/
theorem count_words (P : Nat → Prop) [DecidablePred P] (w k : Nat) :
    Nat.count P (64 * (w + k)) =
      Nat.count P (64 * w) + ((List.range' w k).map fun w => Nat.count (fun b => P (64 * w + b)) 64).sum := by
  induction k with
  | zero => rfl
  | succ k ih =>
    rw [List.range'_1_concat, List.map_append, List.sum_append, ← Nat.add_assoc (Nat.count P _), ← ih, List.map_singleton,
      List.sum_singleton, ← Nat.count_add]
    rfl

/-- Only the range counts: counting its matches to any end beyond it gives the count of its own bits. -/
theorem count_rangeMatch (m : Memory) (base pos n : Nat) (v : Bool) (k : Nat) :
    Nat.count (RangeMatch m base pos n v) (pos + n + k) = Nat.count (fun i => m.bufBit base (pos + i) = v) n := by
  have hbelow : Nat.count (RangeMatch m base pos n v) pos = 0 :=
    Nat.count_iff_forall_not.2 fun _ _ ⟨_, _, _⟩ => by omega
  have habove : Nat.count (fun i => RangeMatch m base pos n v (pos + n + i)) k = 0 :=
    Nat.count_iff_forall_not.2 fun _ _ ⟨_, _, _⟩ => by omega
  rw [Nat.count_add, habove, Nat.count_add, hbelow, Nat.zero_add, Nat.add_zero]
  refine List.countP_congr fun i hi => ?_
  have := List.mem_range.1 hi
  rw [decide_eq_true_eq, decide_eq_true_eq]
  exact ⟨fun ⟨_, _, h⟩ => h, fun h => ⟨by omega, by omega, h⟩⟩

/-- The masked population counts of the words of a range add up to the number of its 1 bits (R282). -/
theorem rangeCount_eq_count (m : Memory) (base pos n : Nat) :
    rangeCount m base pos n = Nat.count (fun k => m.bufBit base (pos + k) = true) n := by
  have hbelow : Nat.count (RangeMatch m base pos n true) (64 * (pos / 64)) = 0 :=
    Nat.count_iff_forall_not.2 fun _ _ ⟨_, _, _⟩ => by omega
  have hend : 64 * (pos / 64 + ((pos + n - 1) / 64 + 1 - pos / 64)) =
      pos + n + (64 * (pos / 64 + ((pos + n - 1) / 64 + 1 - pos / 64)) - (pos + n)) := by omega
  calc rangeCount m base pos n
      = ((rangeWords pos n).map fun w => popcount64 (matchBits m base pos n true w)).sum := rfl
    _ = Nat.count (RangeMatch m base pos n true) (64 * (pos / 64 + ((pos + n - 1) / 64 + 1 - pos / 64))) := by
      rw [count_words, hbelow, Nat.zero_add, rangeWords]
      simp only [popcount64_matchBits]
    _ = Nat.count (fun k => m.bufBit base (pos + k) = true) n := by rw [hend, count_rangeMatch]

/-- The number of matches of either value, got from the count of the 1 bits (R282, R284), is 0 exactly when nothing
matches. -/
theorem matchCount_eq_zero_iff (m : Memory) (base pos n : Nat) (v : Bool) :
    (if v then rangeCount m base pos n else n - rangeCount m base pos n) = 0 ↔
      ∀ p, ¬ RangeMatch m base pos n v p := by
  rw [rangeCount_eq_count]
  have hpos : (∀ p, ¬ RangeMatch m base pos n v p) ↔ ∀ k < n, m.bufBit base (pos + k) ≠ v := by
    refine ⟨fun h k hk hv => h (pos + k) ⟨by omega, by omega, hv⟩, fun h p ⟨hlo, hhi, hv⟩ => ?_⟩
    refine h (p - pos) (by omega) ?_
    rwa [Nat.add_sub_cancel' hlo]
  rw [hpos]
  cases v
  · have hle : Nat.count (fun k => m.bufBit base (pos + k) = true) n ≤ n := Nat.count_le _
    rw [if_neg (by decide), Nat.sub_eq_zero_iff_le, hle.ge_iff_eq, Nat.count_iff_forall]
    simp only [ne_eq, Bool.not_eq_false]
  · rw [if_pos rfl, Nat.count_iff_forall_not]

/-! ## The commands -/

theorem endWellFormed_iff {a : Buf} {apos cnt : Word} : endWellFormed a apos cnt = true ↔
    a.wellFormed = true ∧ apos.isIndex = true ∧ cnt.isIndex = true ∧ apos.toNat ≤ cnt.toNat := by
  rw [endWellFormed, Bool.and_eq_true, oneBufWellFormed_iff, decide_eq_true_eq, and_assoc, and_assoc]

section

variable {s : State} {x : UnitState} {a : Buf} {apos cnt : Word} (hq : s.Quiet x)
  (hwf : endWellFormed a apos cnt = true) (hmem : a.InMemory s.memWords)
  (hholds : a.Holds apos.toNat (cnt.toNat - apos.toNat))

include hwf

/-- The end of the range, from its start and the number of its bits (R143). -/
theorem pos_add_count_eq_end : apos.toNat + (cnt.toNat - apos.toNat) = cnt.toNat := by
  obtain ⟨-, -, -, hle⟩ := endWellFormed_iff.1 hwf
  omega

/-- A matching position is an index (R6). -/
theorem RangeMatch.lt_of_endWellFormed {m : Memory} {v : Bool} {p : Nat}
    (h : RangeMatch m a.base.toNat apos.toNat (cnt.toNat - apos.toNat) v p) : p < 2 ^ 63 := by
  obtain ⟨-, -, hcnt, hle⟩ := endWellFormed_iff.1 hwf
  have := (isIndex_iff cnt).1 hcnt
  obtain ⟨-, hhi, -⟩ := h
  omega

/-- The count of a range is an index, so its result word holds it (R6, R282). -/
theorem toNat_natWord_rangeCount (m : Memory) :
    (natWord (rangeCount m a.base.toNat apos.toNat (cnt.toNat - apos.toNat))).toNat =
      rangeCount m a.base.toNat apos.toNat (cnt.toNat - apos.toNat) := by
  obtain ⟨-, -, hcnt, -⟩ := endWellFormed_iff.1 hwf
  have hle : rangeCount m a.base.toNat apos.toNat (cnt.toNat - apos.toNat) ≤ cnt.toNat - apos.toNat :=
    rangeCount_eq_count .. ▸ Nat.count_le _
  have := (isIndex_iff cnt).1 hcnt
  exact toNat_natWord (by omega)

/-- The result of a search of an empty range is −1, whatever the order (R280, R281). -/
theorem IsFirst.indexWord_of_empty {m : Memory} {v : Bool} {le : Nat → Nat → Prop} {r : Option Nat}
    (h : IsFirst (RangeMatch m a.base.toNat apos.toNat (cnt.toNat - apos.toNat) v) le r)
    (hzero : cnt.toNat - apos.toNat = 0) : indexWord r = allOnes :=
  (h.indexWord_eq_allOnes_iff fun _ => RangeMatch.lt_of_endWellFormed hwf).2
    fun p ⟨hlo, hhi, _⟩ => by omega

include hq hmem hholds

/-- An undisturbed search or count on legal operands gives the result of its scan, when that of an empty range is its
neutral result (R141, R144). -/
theorem exec_of_checkSearch {i : Instr} {empty r : Word}
    (hplan : planOf i s.memWords s.mem = checkSearch a apos cnt empty s.memWords fun _ => readOnly r)
    (hempty : cnt.toNat - apos.toNat = 0 → r = empty) :
    exec i s = .next (s.setUnit s.active (x.done false r)) := by
  have hlegal : badEnd a apos cnt = false := by rw [badEnd_eq, hwf]; rfl
  obtain hzero | hpos := Nat.eq_zero_or_pos (cnt.toNat - apos.toNat)
  · rw [hempty hzero]
    obtain ⟨hx, -⟩ := hq
    exact exec_of_early hx (hplan.trans ((checkSequence_eq_early ..).2 ⟨hlegal, if_pos hzero⟩))
  · exact exec_of_readOnly hq (hplan.trans ((checkSequence_eq_work ..).2 ⟨hlegal, (emptyResult_eq_none _ _).2 hpos,
      (offMemory_eq_false ..).2 hmem, (offBuffer_eq_false ..).2 hholds, rfl, rfl⟩))

theorem exec_indexof (v : Bool) : exec (.indexof v a apos cnt) s = .next (s.setUnit s.active
    (x.done false (indexWord (firstMatch s.mem a.base.toNat apos.toNat (cnt.toNat - apos.toNat) v)))) :=
  exec_of_checkSearch hq hwf hmem hholds rfl ((firstMatch_isFirst ..).indexWord_of_empty hwf)

theorem exec_lastindexof (v : Bool) : exec (.lastindexof v a apos cnt) s = .next (s.setUnit s.active
    (x.done false (indexWord (lastMatch s.mem a.base.toNat apos.toNat (cnt.toNat - apos.toNat) v)))) :=
  exec_of_checkSearch hq hwf hmem hholds rfl ((lastMatch_isFirst ..).indexWord_of_empty hwf)

theorem exec_card : exec (.card a apos cnt) s = .next (s.setUnit s.active
    (x.done false (natWord (rangeCount s.mem a.base.toNat apos.toNat (cnt.toNat - apos.toNat))))) := by
  refine exec_of_checkSearch hq hwf hmem hholds rfl fun hzero => ?_
  rw [rangeCount_eq_count, hzero, Nat.count_zero]
  rfl

/-- `GETBIT` of a matching position gives the value searched for (R284). -/
theorem exec_getbit_of_rangeMatch {v : Bool} {p : Word}
    (hp : RangeMatch s.mem a.base.toNat apos.toNat (cnt.toNat - apos.toNat) v p.toNat) :
    exec (.getbit a p) s = .next (s.setUnit s.active (x.done false (if v then 1 else 0))) := by
  have hindex := (isIndex_iff p).2 (hp.lt_of_endWellFormed hwf)
  obtain ⟨hbuf, -⟩ := endWellFormed_iff.1 hwf
  obtain ⟨-, hhi, hbit⟩ := hp
  have hinside : a.Holds p.toNat 1 := by unfold Buf.Holds at hholds ⊢; omega
  rw [← hbit]
  exact getbitReadsTheBit s x a p hq (Bool.and_eq_true_iff.2 ⟨hbuf, hindex⟩) hmem hinside

/-- A search agrees with the count and with `GETBIT`, in either direction (R284). -/
theorem IsFirst.agrees {v : Bool} {le : Nat → Nat → Prop} {r : Option Nat}
    (h : IsFirst (RangeMatch s.mem a.base.toNat apos.toNat (cnt.toNat - apos.toNat) v) le r) :
    (indexWord r = 0xFFFFFFFFFFFFFFFF ↔
      (if v then rangeCount s.mem a.base.toNat apos.toNat (cnt.toNat - apos.toNat)
        else cnt.toNat - apos.toNat - rangeCount s.mem a.base.toNat apos.toNat (cnt.toNat - apos.toNat)) = 0) ∧
    (indexWord r ≠ 0xFFFFFFFFFFFFFFFF →
      exec (.getbit a (indexWord r)) s = .next (s.setUnit s.active (x.done false (if v then 1 else 0))) ∧
      RangeMatch s.mem a.base.toNat apos.toNat (cnt.toNat - apos.toNat) v (indexWord r).toNat ∧
      ∀ p, RangeMatch s.mem a.base.toNat apos.toNat (cnt.toNat - apos.toNat) v p → le (indexWord r).toNat p) := by
  have hindex p := RangeMatch.lt_of_endWellFormed (m := s.mem) (v := v) (p := p) hwf
  refine ⟨(h.indexWord_eq_allOnes_iff hindex).trans (matchCount_eq_zero_iff ..).symm, fun hne => ?_⟩
  obtain ⟨hall, -⟩ | ⟨-, hmatch, hbest⟩ := h.indexWord_cases hindex
  · exact absurd hall hne
  · exact ⟨exec_getbit_of_rangeMatch hq hwf hmem hholds hmatch, hmatch, hbest⟩

end

/-! ## The obligations -/

/-- Settles O26: the ascending scan finds the lowest match. -/
theorem indexofFindsTheLowest : Obligations.IndexofFindsTheLowest := by
  intro s x v a apos cnt hq hwf hmem hholds
  have hend := pos_add_count_eq_end hwf
  have hfirst := firstMatch_isFirst s.mem a.base.toNat apos.toNat (cnt.toNat - apos.toNat) v
  have hindex p := RangeMatch.lt_of_endWellFormed (m := s.mem) (v := v) (p := p) hwf
  refine ⟨_, exec_indexof hq hwf hmem hholds v, fun hnone => ?_, fun p hlo hhi hv hbelow => ?_⟩
  · exact (hfirst.indexWord_eq_allOnes_iff hindex).2 fun p ⟨hlo, hhi, hv⟩ => hnone p hlo (hend ▸ hhi) hv
  · refine hfirst.toNat_indexWord hindex (fun _ _ => Nat.le_antisymm) ⟨hlo, hend.symm ▸ hhi, hv⟩
      fun q ⟨hqlo, _, hqv⟩ => Nat.le_of_not_lt fun hlt => hbelow q hqlo hlt hqv

/-- Settles O27: the descending scan finds the highest match. -/
theorem lastindexofFindsTheHighest : Obligations.LastindexofFindsTheHighest := by
  intro s x v a apos cnt hq hwf hmem hholds
  have hend := pos_add_count_eq_end hwf
  have hlast := lastMatch_isFirst s.mem a.base.toNat apos.toNat (cnt.toNat - apos.toNat) v
  have hindex p := RangeMatch.lt_of_endWellFormed (m := s.mem) (v := v) (p := p) hwf
  refine ⟨_, exec_lastindexof hq hwf hmem hholds v, fun hnone => ?_, fun p hlo hhi hv habove => ?_⟩
  · exact (hlast.indexWord_eq_allOnes_iff hindex).2 fun p ⟨hlo, hhi, hv⟩ => hnone p hlo (hend ▸ hhi) hv
  · refine hlast.toNat_indexWord hindex (fun _ _ h h' => Nat.le_antisymm h' h) ⟨hlo, hend.symm ▸ hhi, hv⟩
      fun q ⟨_, hqhi, hqv⟩ => Nat.le_of_not_lt fun hlt => habove q hlt (hend ▸ hqhi) hqv

/-- Settles O28: the masked population counts add up to the number of 1 bits of the range. -/
theorem cardCountsTheOnes : Obligations.CardCountsTheOnes := by
  intro s x a apos cnt hq hwf hmem hholds
  rw [exec_card hq hwf hmem hholds, rangeCount_eq_count, natWord, Nat.count]
  simp only [Bool.decide_eq_true]

/-- Settles O29: each search agrees with the count and with `GETBIT` by one argument, in its own order. -/
theorem searchAgreesWithCount : Obligations.SearchAgreesWithCount := by
  intro s x v a apos cnt hq hwf hmem hholds
  have hend := pos_add_count_eq_end hwf
  have hcount := toNat_natWord_rangeCount hwf s.mem
  obtain ⟨hlonone, hlo⟩ := (firstMatch_isFirst s.mem _ _ _ v).agrees hq hwf hmem hholds
  obtain ⟨hhinone, hhi⟩ := (lastMatch_isFirst s.mem _ _ _ v).agrees hq hwf hmem hholds
  refine ⟨_, _, _, exec_indexof hq hwf hmem hholds v, exec_lastindexof hq hwf hmem hholds v,
    exec_card hq hwf hmem hholds, hcount.symm ▸ hlonone, hcount.symm ▸ hhinone, fun hne => ?_, fun hne => ?_⟩
  · obtain ⟨hget, ⟨-, hin, -⟩, hbest⟩ := hlo hne
    exact ⟨hget, fun q hq' hlt hv => absurd (hbest q ⟨hq', by omega, hv⟩) (Nat.not_le.2 hlt)⟩
  · obtain ⟨hget, ⟨hin, -, -⟩, hbest⟩ := hhi hne
    exact ⟨hget, fun q hlt hq' hv => absurd (hbest q ⟨by omega, by omega, hv⟩) (Nat.not_le.2 hlt)⟩

end Sys2Proof.Machine
end

