-- ==== Sys2Proof/Proofs/Equality.lean ====
section
/-! PROOFS. Equality: the comparison of two present buffers (O30) and the shortcuts that come before its extent and range
checks (O31). -/

namespace Sys2Proof.Machine

/-- Settles O30: the result is the comparator's output, which is the equality of the ranges bit for bit (R300, R301). -/
theorem eqComparesTheRanges : Obligations.EqComparesTheRanges :=
  fun s _ a apos _ _ _ hq hwf ha hb hdst hsrc =>
    ⟨_, exec_eqb hq hwf ha hb hdst hsrc, boolWord_eq_zero_or_one _,
      (boolWord_eq_one_iff _).trans (rangesEqual_iff s.mem a apos.toNat hsrc)⟩

/-- Two absent buffers are equal once the sign checks have passed (R141 step 3). -/
theorem planOf_eqb_absent {apos bpos cnt : Word} (k : Nat) (m : Memory)
    (hwf : (Instr.eqb none apos none bpos cnt).wellFormed = true) : planOf (.eqb none apos none bpos cnt) k m = .early 1 := by
  rw [planOf, planEq, badEq_eq, hwf]
  rfl

/-- Settles O31: each form ends in steps 3 to 5 of R141, before memory has a part in it. -/
theorem eqShortcutsPrecedeTheOtherChecks : Obligations.EqShortcutsPrecedeTheOtherChecks := by
  intro s x apos bpos cnt a b hx hapos hbpos hcnt ha hb
  have hwf : ∀ p q : Option Buf, optBufWellFormed p = true → optBufWellFormed q = true →
      (Instr.eqb p apos q bpos cnt).wellFormed = true := fun p q hp hq => by
    simp only [Instr.wellFormed, hp, hq, hapos, hbpos, hcnt, Bool.and_self]
  refine ⟨?bothAbsent, ?secondAbsent, ?firstAbsent, fun _ hbase hpos => ?same⟩
  case bothAbsent => exact exec_of_early hx (planOf_eqb_absent _ _ (hwf none none rfl rfl))
  case secondAbsent => exact exec_of_failsWith .nullBuf hx ⟨hwf (some a) none ha rfl, trivial⟩
  case firstAbsent => exact exec_of_failsWith .nullBuf hx ⟨hwf none (some b) rfl hb, trivial⟩
  case same => exact exec_of_early hx (planOf_of_same _ _ (hwf (some a) (some b) ha hb) ⟨hbase, hpos⟩)

end Sys2Proof.Machine
end

