-- ==== Sys2Proof/Proofs/Faults.lean ====
section
/-! PROOFS. Errors and faults: what a command that ends with an error has changed (O38), what a reset leaves (O54), and which
turns the machine faults on (O60). -/

namespace Sys2Proof.Machine

/-! ## The error of a command -/

/-- Only a plan that fails leaves an error in `STAT` (R148, R149). -/
theorem Plan.eq_fail_of_err_ne_zero {p : Plan} {x : UnitState} (h : (p.unitAfter x).err ≠ 0) : ∃ e, p = .fail e := by
  cases p with
  | fail e => exact ⟨e, rfl⟩
  | early r => exact absurd (done_status x false r).2.1 h
  | work w => exact absurd (done_status x w.ovl w.res).2.1 h

/-- Settles O38: the plan is a failure, and carrying out a failure writes the acting unit's completion alone. -/
theorem errorsLeaveAllButStatAndRes : Obligations.ErrorsLeaveAllButStatAndRes := by
  intro s t x y i hx hbusy hexec hy hidle herr
  rw [exec_eq_perform i s x hx] at hexec
  cases hexec
  obtain ⟨r, hcompleted⟩ := perform_completed _ hx hbusy hy hidle
  rw [hcompleted] at herr
  obtain ⟨e, hfail⟩ := Plan.eq_fail_of_err_ne_zero (x := x) herr
  rw [hfail, perform_fail] at hy ⊢
  have hraise : x.raise e = y := Option.some.inj ((State.setUnit_get s _ _ x hx).symm.trans hy)
  exact ⟨e, hraise.symm, hraise ▸ rfl⟩

/-! ## Reset -/

/-- Nothing is owed to a unit exactly when an interference foretold of its command has come (log entry 18). -/
theorem UnitState.owed_eq_false_iff (x : UnitState) :
    x.owed = false ↔ ∀ j, x.job = some j → j.foretold = true → x.raced = true := by
  unfold UnitState.owed
  cases x.job <;> simp

/-- The schedule has kept what it foretold exactly when it owes no unit anything. -/
theorem State.nothingOwed_iff (s : State) : s.NothingOwed ↔ s.units.findIdx? UnitState.owed = none := by
  rw [State.findIdx_owed_none]
  exact forall₂_congr fun x _ => x.owed_eq_false_iff.symm

/-- A reset in a schedule that has kept what it foretold clears every unit and every lock (R350). -/
theorem resetTurn_of_nothingOwed {s : State} (h : s.NothingOwed) :
    resetTurn s = .next { s with lock := [], units := s.units.map UnitState.clear } := by
  rw [resetTurn, s.nothingOwed_iff.1 h]

@[simp] theorem UnitState.clear_busy (x : UnitState) : x.clear.busy = false := BitVec.getLsbD_zero

/-- Settles O54: each unit is cleared in its place. -/
theorem resetTurnClearsUnitsAndLocks : Obligations.ResetTurnClearsUnitsAndLocks := by
  intro s ts hturns howed
  have hstep : step s = .next { s with turns := ts, lock := [], units := s.units.map UnitState.clear } :=
    (step_cons s _ ts hturns).trans (resetTurn_of_nothingOwed (s := { s with turns := ts }) howed)
  refine ⟨_, hstep, rfl, fun _ => rfl, List.length_map .., rfl, fun u x hx =>
    ⟨x.clear, ?_, rfl, rfl, rfl, x.clear_busy, rfl⟩⟩
  rw [List.getElem?_map, hx]
  rfl

/-! ## The faults of a step -/

/-- The answer is a next state when the condition holds and a fault when it does not. -/
def GoesOnWhen (r : Result) (ok : Prop) : Prop := (ok ∧ ∃ t, r = .next t) ∨ (¬ ok ∧ ∃ f, r = .fault f)

section

variable {r : Result} {ok ok' : Prop}

theorem GoesOnWhen.fault_iff (h : GoesOnWhen r ok) : (∃ f, r = .fault f) ↔ ¬ ok := by
  obtain ⟨hok, t, rfl⟩ | ⟨hbad, f, rfl⟩ := h
  · exact iff_of_false nofun (not_not_intro hok)
  · exact iff_of_true ⟨f, rfl⟩ hbad

theorem GoesOnWhen.ne_refused (h : GoesOnWhen r ok) (q : Refusal) : r ≠ .refused q := by
  obtain ⟨-, t, rfl⟩ | ⟨-, f, rfl⟩ := h <;> nofun

theorem GoesOnWhen.congr (h : GoesOnWhen r ok) (hiff : ok ↔ ok') : GoesOnWhen r ok' := propext hiff ▸ h

/-- Of a turn that is no reset a condition on resets asks nothing. -/
theorem GoesOnWhen.of_ne_reset {e : Turn} (h : GoesOnWhen r ok) (hne : e ≠ .reset) :
    GoesOnWhen r (ok ∧ (e = .reset → ok')) := h.congr (and_iff_left fun heq => absurd heq hne).symm

/-- What the other units notice does not change whether the step goes on. -/
theorem GoesOnWhen.noticed (h : GoesOnWhen r ok) (u : Nat) (m : Memory) : GoesOnWhen (noticed u m r) ok := by
  obtain ⟨hok, t, rfl⟩ | ⟨hbad, f, rfl⟩ := h
  · exact .inl ⟨hok, _, rfl⟩
  · exact .inr ⟨hbad, f, rfl⟩

end

/-- A turn of a unit goes on exactly when there is such a unit (R329). -/
theorem withUnit_goesOnWhen (s : State) (u : Nat) (f : UnitState → State) :
    GoesOnWhen (withUnit s u f) (u < s.units.length) := by
  unfold withUnit
  split
  · next h => exact .inr ⟨Nat.not_lt.2 (List.getElem?_eq_none_iff.1 h), _, rfl⟩
  · next x h => exact .inl ⟨(List.getElem?_eq_some_iff.1 h).1, _, rfl⟩

/-- An atomic turn goes on exactly when there is such a unit: every error of a command is a completion (R321, R329). -/
theorem execTurn_goesOnWhen (s : State) (u : Nat) : GoesOnWhen (execTurn s u) (u < s.units.length) := by
  obtain ⟨hnone, h⟩ | ⟨x, hx, hcases⟩ := execTurn_cases s u
  · exact .inr ⟨Nat.not_lt.2 (List.getElem?_eq_none_iff.1 hnone), _, h⟩
  · obtain ⟨hu, -⟩ := List.getElem?_eq_some_iff.1 hx
    obtain ⟨-, h⟩ | ⟨-, -, ⟨r, -, h⟩ | ⟨i, -, h⟩⟩ := hcases
    · exact .inl ⟨hu, _, h⟩
    · exact .inl ⟨hu, _, h⟩
    · rw [h, exec_eq_perform i { s with active := u } x hx]
      exact .inl ⟨hu, _, rfl⟩

/-- A write of the host goes on exactly when the word exists (R31). -/
theorem hostWriteTurn_goesOnWhen (s : State) (a : Nat) (v : Word) : GoesOnWhen (hostWriteTurn s a v) (a < s.memWords) := by
  unfold hostWriteTurn
  split
  · next h => exact .inl ⟨h, _, rfl⟩
  · next h => exact .inr ⟨h, _, rfl⟩

/-- A reset goes on exactly when the schedule has kept what it foretold (log entry 18). -/
theorem resetTurn_goesOnWhen (s : State) : GoesOnWhen (resetTurn s) s.NothingOwed := by
  by_cases howed : s.NothingOwed
  · exact .inl ⟨howed, _, resetTurn_of_nothingOwed howed⟩
  · obtain ⟨u, -, h⟩ | ⟨hnone, -⟩ := resetTurn_cases s
    · exact .inr ⟨howed, _, h⟩
    · exact absurd (s.nothingOwed_iff.2 (s.findIdx_owed_none.2 hnone)) howed

/-- A turn goes on exactly when it names what exists and, if it is a reset, contradicts nothing that was foretold. -/
theorem takeTurn_goesOnWhen (s : State) (e : Turn) :
    GoesOnWhen (takeTurn s e) (e.NamesExisting s.memWords s.units.length ∧ (e = .reset → s.NothingOwed)) := by
  cases e with
  | submit u => exact (withUnit_goesOnWhen s u _).of_ne_reset nofun
  | exec u => exact (execTurn_goesOnWhen s u).of_ne_reset nofun
  | start u f => exact (withUnit_goesOnWhen s u _).of_ne_reset nofun
  | event u k => exact ((withUnit_goesOnWhen s u _).noticed u s.mem).of_ne_reset nofun
  | finish u => exact (withUnit_goesOnWhen s u _).of_ne_reset nofun
  | hostWrite a v => exact (hostWriteTurn_goesOnWhen s a v).of_ne_reset nofun
  | hostWriteStat u v => exact (withUnit_goesOnWhen s u _).of_ne_reset nofun
  | hostWriteRes u v => exact (withUnit_goesOnWhen s u _).of_ne_reset nofun
  | reset => exact (resetTurn_goesOnWhen s).congr ⟨fun h => ⟨trivial, fun _ => h⟩, fun h => h.2 rfl⟩

/-- Settles O60: at the end of the schedule a step goes on, and elsewhere it does what its turn does. -/
theorem stepFaultsExactlyOnBadTurns : Obligations.StepFaultsExactlyOnBadTurns := by
  intro s
  cases hturns : s.turns with
  | nil => simp [step_nil s hturns]
  | cons e ts =>
    have h := takeTurn_goesOnWhen { s with turns := ts } e
    rw [step_cons s e ts hturns]
    refine ⟨h.fault_iff.trans ?_, h.ne_refused⟩
    rw [not_and_or, Classical.not_imp]
    constructor
    · exact fun hbad => ⟨e, ts, rfl, hbad⟩
    · rintro ⟨_, _, heq, hbad⟩
      cases heq
      exact hbad

end Sys2Proof.Machine
end
